-- ==== Sys2Proof/Word.lean ====
section
/-!
DEFINITION. The block's word types (00_scope R5, R8, R9): all values are unsigned.
-/
namespace Sys2Proof

/-- A memory cell, a general register or a timer: 8 bits (00_scope R5). -/
abbrev Byte := BitVec 8

/-- An instruction word, the index register, the program counter or a stack entry: 16 bits (00_scope R5). -/
abbrev Word := BitVec 16

/-- The 12-bit address field `NNN` of an instruction word (00_scope R8). -/
abbrev Addr12 := BitVec 12

/-- The 4-bit row count field `N` (00_scope R8). -/
abbrev Nibble := BitVec 4

/-- A general register's index, from a 4-bit field: "always in range" (10_state R21). -/
abbrev RegIdx := Fin 16

/-- A key's index (00_scope R5, `NKEYS` = 16). -/
abbrev KeyIdx := Fin 16

end Sys2Proof
end

