-- ==== Sys2Proof/Syntax.lean ====
section
/-!
DEFINITION. The instructions: one constructor per row of spec/opcode_table.json (30_encoding R94), in the table's order.
Operands are the fields of 00_scope R8, each of its own width, so every term is a legal instruction.
-/
namespace Sys2Proof

inductive Instr where
  /-- 00E0 CLS (40_display R121). -/
  | cls
  /-- 00EE RET (41_control_flow R140). -/
  | ret
  /-- 1NNN JP NNN (41_control_flow R141). -/
  | jp (nnn : Addr12)
  /-- 2NNN CALL NNN (41_control_flow R142). -/
  | call (nnn : Addr12)
  /-- 3XNN SE Vx,NN (41_control_flow R143). -/
  | seImm (x : RegIdx) (nn : Byte)
  /-- 4XNN SNE Vx,NN (41_control_flow R144). -/
  | sneImm (x : RegIdx) (nn : Byte)
  /-- 5XY0 SE Vx,Vy (41_control_flow R145). -/
  | seReg (x y : RegIdx)
  /-- 6XNN LD Vx,NN (42_alu R160). -/
  | ldImm (x : RegIdx) (nn : Byte)
  /-- 7XNN ADD Vx,NN (42_alu R161). -/
  | addImm (x : RegIdx) (nn : Byte)
  /-- 8XY0 LD Vx,Vy (42_alu R162). -/
  | ldReg (x y : RegIdx)
  /-- 8XY1 OR Vx,Vy (42_alu R163). -/
  | orReg (x y : RegIdx)
  /-- 8XY2 AND Vx,Vy (42_alu R164). -/
  | andReg (x y : RegIdx)
  /-- 8XY3 XOR Vx,Vy (42_alu R165). -/
  | xorReg (x y : RegIdx)
  /-- 8XY4 ADD Vx,Vy (42_alu R166). -/
  | addReg (x y : RegIdx)
  /-- 8XY5 SUB Vx,Vy (42_alu R167). -/
  | subReg (x y : RegIdx)
  /-- 8XY6 SHR Vx (42_alu R168); Y is the shift source when `SHIFT_SOURCE = y`. -/
  | shr (x y : RegIdx)
  /-- 8XY7 SUBN Vx,Vy (42_alu R169). -/
  | subnReg (x y : RegIdx)
  /-- 8XYE SHL Vx (42_alu R170); Y as for SHR. -/
  | shl (x y : RegIdx)
  /-- 9XY0 SNE Vx,Vy (41_control_flow R146). -/
  | sneReg (x y : RegIdx)
  /-- ANNN LD I,NNN (43_index_memory R190). -/
  | ldI (nnn : Addr12)
  /-- BNNN JP V0,NNN (41_control_flow R147). -/
  | jpV0 (nnn : Addr12)
  /-- CXNN RND Vx,NN (42_alu R171). -/
  | rnd (x : RegIdx) (nn : Byte)
  /-- DXYN DRW Vx,Vy,N (40_display R122). -/
  | drw (x y : RegIdx) (n : Nibble)
  /-- EX9E SKP Vx (44_keys_timers R211). -/
  | skp (x : RegIdx)
  /-- EXA1 SKNP Vx (44_keys_timers R212). -/
  | sknp (x : RegIdx)
  /-- FX07 LD Vx,DT (44_keys_timers R213). -/
  | ldVxDT (x : RegIdx)
  /-- FX0A LD Vx,K (44_keys_timers R216). -/
  | ldVxK (x : RegIdx)
  /-- FX15 LD DT,Vx (44_keys_timers R217). -/
  | ldDT (x : RegIdx)
  /-- FX18 LD ST,Vx (44_keys_timers R218). -/
  | ldST (x : RegIdx)
  /-- FX1E ADD I,Vx (43_index_memory R191). -/
  | addI (x : RegIdx)
  /-- FX29 LD F,Vx (43_index_memory R192). -/
  | ldF (x : RegIdx)
  /-- FX33 LD B,Vx (43_index_memory R193). -/
  | ldB (x : RegIdx)
  /-- FX55 LD [I],Vx (43_index_memory R194). -/
  | store (x : RegIdx)
  /-- FX65 LD Vx,[I] (43_index_memory R195). -/
  | load (x : RegIdx)
  deriving DecidableEq, Repr

end Sys2Proof
end

