-- ==== Sys2Proof/WellFormed.lean ====
section
/-!
DEFINITION. Which 16-bit words are instructions: the table of illegal words of 30_encoding R96, family by family. It is
written from that table and does not look at the decoder (whose words come from R94). A term of `Instr` has no check of
its own: each operand has the width of its field (30_encoding R93, "always in range"), so no ill-formed term exists.
-/
namespace Sys2Proof

/-- The top nibble, which "selects the instruction family" (00_scope R8). -/
def Word.family (w : Word) : Nat := w.toNat / 4096

/-- Family 0: only 00E0 and 00EE are instructions (30_encoding R96, D16). -/
def Word.legalFamily0 (w : Word) : Bool := w.toNat == 0x00E0 || w.toNat == 0x00EE

/-- Families 5 and 9: only a low nibble of 0 (30_encoding R96, D15). -/
def Word.legalFamily5or9 (w : Word) : Bool := w.toNat % 16 == 0

/-- Family 8: every low nibble but 8, 9, A, B, C, D and F (30_encoding R96). -/
def Word.legalFamily8 (w : Word) : Bool := !([0x8, 0x9, 0xA, 0xB, 0xC, 0xD, 0xF].contains (w.toNat % 16))

/-- Family E: only the low bytes 9E and A1 (30_encoding R96). -/
def Word.legalFamilyE (w : Word) : Bool := [0x9E, 0xA1].contains (w.toNat % 256)

/-- Family F: only the nine low bytes of 30_encoding R96. -/
def Word.legalFamilyF (w : Word) : Bool :=
  [0x07, 0x0A, 0x15, 0x18, 0x1E, 0x29, 0x33, 0x55, 0x65].contains (w.toNat % 256)

/-- Whether a word is one of the 43954 legal ones (30_encoding R96): the families 1 to 4, 6, 7 and A to D have no illegal word. -/
def Word.wellFormed (w : Word) : Bool :=
  match w.family with
  | 0x0 => w.legalFamily0
  | 0x5 => w.legalFamily5or9
  | 0x8 => w.legalFamily8
  | 0x9 => w.legalFamily5or9
  | 0xE => w.legalFamilyE
  | 0xF => w.legalFamilyF
  | _ => true

end Sys2Proof
end

