-- ==== Sys2Proof/Decode.lean ====
section
/-!
DEFINITION. Decoding (30_encoding R90 to R95) and, after it, encoding. The opcode map is the table of R94, row for row;
its bit patterns are the spec's (D24: only 6005, A2F0, 2300 and 00EE are the source's own; UNVERIFIED, log 11).
-/
namespace Sys2Proof

/-- Why the decoder refuses. -/
inductive DecodeError where
  /-- No row of R94 matches: `UnknownInstruction(w)`, with the exact word (30_encoding R95). -/
  | unknownInstruction (w : Word)
  /-- Fewer than the two bytes of an instruction are left (30_encoding R90). -/
  | truncated
  deriving DecidableEq, Repr

/-- The word of two consecutive bytes, big-endian (20_memory R62). -/
def wordOfBytes (hi lo : Byte) : Word := BitVec.ofNat 16 (hi.toNat * 256 + lo.toNat)

/-- The byte of a word at the lower address (20_memory R62). -/
def highByte (w : Word) : Byte := BitVec.ofNat 8 (w.toNat / 256)

/-- The byte of a word at the higher address (20_memory R62). -/
def lowByte (w : Word) : Byte := BitVec.ofNat 8 w.toNat

/-- Field `X`, `w[11:8]` (00_scope R8). -/
def fieldX (w : Word) : RegIdx := ⟨w.toNat / 256 % 16, Nat.mod_lt _ (by decide)⟩

/-- Field `Y`, `w[7:4]` (00_scope R8). -/
def fieldY (w : Word) : RegIdx := ⟨w.toNat / 16 % 16, Nat.mod_lt _ (by decide)⟩

/-- Field `N`, `w[3:0]` (00_scope R8). -/
def fieldN (w : Word) : Nibble := w.setWidth 4

/-- Field `NN`, `w[7:0]` (00_scope R8). -/
def fieldNN (w : Word) : Byte := w.setWidth 8

/-- Field `NNN`, `w[11:0]` (00_scope R8). -/
def fieldNNN (w : Word) : Addr12 := w.setWidth 12

/-- One row of the opcode map: a word selects it when `(w & mask) = pattern` (30_encoding R94). -/
structure OpRow where
  mnemonic : String
  mask : Word
  pattern : Word
  build : Word → Instr

/-- Whether a word selects the row (30_encoding R94). -/
def rowMatches (r : OpRow) (w : Word) : Bool := w &&& r.mask == r.pattern

/-- Rows 1 to 9 of 30_encoding R94. -/
def rows1to9 : List OpRow := [
  ⟨"CLS",       0xFFFF, 0x00E0, fun _ => .cls⟩,
  ⟨"RET",       0xFFFF, 0x00EE, fun _ => .ret⟩,
  ⟨"JP_NNN",    0xF000, 0x1000, fun w => .jp (fieldNNN w)⟩,
  ⟨"CALL_NNN",  0xF000, 0x2000, fun w => .call (fieldNNN w)⟩,
  ⟨"SE_Vx_NN",  0xF000, 0x3000, fun w => .seImm (fieldX w) (fieldNN w)⟩,
  ⟨"SNE_Vx_NN", 0xF000, 0x4000, fun w => .sneImm (fieldX w) (fieldNN w)⟩,
  ⟨"SE_Vx_Vy",  0xF00F, 0x5000, fun w => .seReg (fieldX w) (fieldY w)⟩,
  ⟨"LD_Vx_NN",  0xF000, 0x6000, fun w => .ldImm (fieldX w) (fieldNN w)⟩,
  ⟨"ADD_Vx_NN", 0xF000, 0x7000, fun w => .addImm (fieldX w) (fieldNN w)⟩]

/-- Rows 10 to 18 of 30_encoding R94: the ALU family 8XYn. -/
def rows10to18 : List OpRow := [
  ⟨"LD_Vx_Vy",   0xF00F, 0x8000, fun w => .ldReg (fieldX w) (fieldY w)⟩,
  ⟨"OR_Vx_Vy",   0xF00F, 0x8001, fun w => .orReg (fieldX w) (fieldY w)⟩,
  ⟨"AND_Vx_Vy",  0xF00F, 0x8002, fun w => .andReg (fieldX w) (fieldY w)⟩,
  ⟨"XOR_Vx_Vy",  0xF00F, 0x8003, fun w => .xorReg (fieldX w) (fieldY w)⟩,
  ⟨"ADD_Vx_Vy",  0xF00F, 0x8004, fun w => .addReg (fieldX w) (fieldY w)⟩,
  ⟨"SUB_Vx_Vy",  0xF00F, 0x8005, fun w => .subReg (fieldX w) (fieldY w)⟩,
  ⟨"SHR_Vx",     0xF00F, 0x8006, fun w => .shr (fieldX w) (fieldY w)⟩,
  ⟨"SUBN_Vx_Vy", 0xF00F, 0x8007, fun w => .subnReg (fieldX w) (fieldY w)⟩,
  ⟨"SHL_Vx",     0xF00F, 0x800E, fun w => .shl (fieldX w) (fieldY w)⟩]

/-- Rows 19 to 25 of 30_encoding R94. -/
def rows19to25 : List OpRow := [
  ⟨"SNE_Vx_Vy",   0xF00F, 0x9000, fun w => .sneReg (fieldX w) (fieldY w)⟩,
  ⟨"LD_I_NNN",    0xF000, 0xA000, fun w => .ldI (fieldNNN w)⟩,
  ⟨"JP_V0_NNN",   0xF000, 0xB000, fun w => .jpV0 (fieldNNN w)⟩,
  ⟨"RND_Vx_NN",   0xF000, 0xC000, fun w => .rnd (fieldX w) (fieldNN w)⟩,
  ⟨"DRW_Vx_Vy_N", 0xF000, 0xD000, fun w => .drw (fieldX w) (fieldY w) (fieldN w)⟩,
  ⟨"SKP_Vx",      0xF0FF, 0xE09E, fun w => .skp (fieldX w)⟩,
  ⟨"SKNP_Vx",     0xF0FF, 0xE0A1, fun w => .sknp (fieldX w)⟩]

/-- Rows 26 to 34 of 30_encoding R94: the family FXnn. -/
def rows26to34 : List OpRow := [
  ⟨"LD_Vx_DT",  0xF0FF, 0xF007, fun w => .ldVxDT (fieldX w)⟩,
  ⟨"LD_Vx_K",   0xF0FF, 0xF00A, fun w => .ldVxK (fieldX w)⟩,
  ⟨"LD_DT_Vx",  0xF0FF, 0xF015, fun w => .ldDT (fieldX w)⟩,
  ⟨"LD_ST_Vx",  0xF0FF, 0xF018, fun w => .ldST (fieldX w)⟩,
  ⟨"ADD_I_Vx",  0xF0FF, 0xF01E, fun w => .addI (fieldX w)⟩,
  ⟨"LD_F_Vx",   0xF0FF, 0xF029, fun w => .ldF (fieldX w)⟩,
  ⟨"LD_B_Vx",   0xF0FF, 0xF033, fun w => .ldB (fieldX w)⟩,
  ⟨"LD__I__Vx", 0xF0FF, 0xF055, fun w => .store (fieldX w)⟩,
  ⟨"LD_Vx__I",  0xF0FF, 0xF065, fun w => .load (fieldX w)⟩]

/-- The opcode map (30_encoding R94). -/
def opRows : List OpRow := rows1to9 ++ rows10to18 ++ rows19to25 ++ rows26to34

/-- Decode a word: the row it selects, or `UnknownInstruction(w)` (30_encoding R95). Total on all 65536 words. -/
def decodeWord (w : Word) : Except DecodeError Instr :=
  match opRows.find? (fun r => rowMatches r w) with
  | some r => .ok (r.build w)
  | none => .error (.unknownInstruction w)

/-- Decode from a sequence of bytes: always two of them (30_encoding R90), and the bytes left over. -/
def decodeBytes : List Byte → Except DecodeError (Instr × List Byte)
  | hi :: lo :: rest =>
    match decodeWord (wordOfBytes hi lo) with
    | .ok i => .ok (i, rest)
    | .error e => .error e
  | _ => .error .truncated

/-- The bits of an instruction given as the opcode table numbers them, as a word; every bit above `nbits` is 0. -/
def tableWord (nbits w : Nat) : Word := BitVec.ofNat 16 (w % 2 ^ min nbits 16)

/-- The instruction the decoder reads from a word given as the opcode table numbers its bits, laid out as the hardware
stores it: big-endian (20_memory R62). -/
def decodeTableWord (nbits w : Nat) : Option Instr :=
  match decodeBytes [highByte (tableWord nbits w), lowByte (tableWord nbits w)] with
  | .ok (i, _) => some i
  | .error _ => none

/-- A register index in the place of field `X` (00_scope R8). -/
def placeX (x : RegIdx) : Word := BitVec.ofNat 16 (x.val * 256)

/-- A register index in the place of field `Y` (00_scope R8). -/
def placeY (y : RegIdx) : Word := BitVec.ofNat 16 (y.val * 16)

/-- The word of an instruction (30_encoding R92, R94). -/
def encode : Instr → Word
  | .cls => 0x00E0
  | .ret => 0x00EE
  | .jp nnn => 0x1000 ||| nnn.setWidth 16
  | .call nnn => 0x2000 ||| nnn.setWidth 16
  | .seImm x nn => 0x3000 ||| placeX x ||| nn.setWidth 16
  | .sneImm x nn => 0x4000 ||| placeX x ||| nn.setWidth 16
  | .seReg x y => 0x5000 ||| placeX x ||| placeY y
  | .ldImm x nn => 0x6000 ||| placeX x ||| nn.setWidth 16
  | .addImm x nn => 0x7000 ||| placeX x ||| nn.setWidth 16
  | .ldReg x y => 0x8000 ||| placeX x ||| placeY y
  | .orReg x y => 0x8001 ||| placeX x ||| placeY y
  | .andReg x y => 0x8002 ||| placeX x ||| placeY y
  | .xorReg x y => 0x8003 ||| placeX x ||| placeY y
  | .addReg x y => 0x8004 ||| placeX x ||| placeY y
  | .subReg x y => 0x8005 ||| placeX x ||| placeY y
  | .shr x y => 0x8006 ||| placeX x ||| placeY y
  | .subnReg x y => 0x8007 ||| placeX x ||| placeY y
  | .shl x y => 0x800E ||| placeX x ||| placeY y
  | .sneReg x y => 0x9000 ||| placeX x ||| placeY y
  | .ldI nnn => 0xA000 ||| nnn.setWidth 16
  | .jpV0 nnn => 0xB000 ||| nnn.setWidth 16
  | .rnd x nn => 0xC000 ||| placeX x ||| nn.setWidth 16
  | .drw x y n => 0xD000 ||| placeX x ||| placeY y ||| n.setWidth 16
  | .skp x => 0xE09E ||| placeX x
  | .sknp x => 0xE0A1 ||| placeX x
  | .ldVxDT x => 0xF007 ||| placeX x
  | .ldVxK x => 0xF00A ||| placeX x
  | .ldDT x => 0xF015 ||| placeX x
  | .ldST x => 0xF018 ||| placeX x
  | .addI x => 0xF01E ||| placeX x
  | .ldF x => 0xF029 ||| placeX x
  | .ldB x => 0xF033 ||| placeX x
  | .store x => 0xF055 ||| placeX x
  | .load x => 0xF065 ||| placeX x

/-- The bytes of an instruction as they lie in memory (20_memory R62). -/
def encodeBytes (i : Instr) : List Byte := [highByte (encode i), lowByte (encode i)]

end Sys2Proof
end

