-- ==== Sys2Proof/Config.lean ====
section
/-!
DEFINITION. The implementation parameters of 00_scope R5, the named parameters of 10_state R20 with the spec's defaults
(92_eei_decisions D5, D7, D13, D23), and the free values: the inputs the spec puts no law on (D2, D13, D25).
-/
namespace Sys2Proof

/-- `OPERAND_READ` (00_scope R11, D5): whether an instruction reads its operands before any write, or re-reads them after
the flag write. The spec's choice is `latched`. -/
inductive OperandRead where
  | latched
  | sequential
  deriving DecidableEq, Repr

/-- `SHIFT_SOURCE` (42_alu R168, D7): the register SHR and SHL shift. The spec's choice is `x`. -/
inductive ShiftSource where
  | x
  | y
  deriving DecidableEq, Repr

/-- `KEY_SELECT` (44_keys_timers R214, D13): which of several pressed keys LD Vx,K stores. `lowest` is the spec's reference
choice; `drawn` is its safe model, any pressed key. -/
inductive KeySelect where
  | lowest
  | drawn
  deriving DecidableEq, Repr

namespace Config

/-- `MEM_SIZE` (00_scope R5): addresses 0 to 4095. -/
abbrev memSize : Nat := 4096

/-- `PROG_ORIGIN` (00_scope R5): the entry point and the place `load` copies to. -/
abbrev progOrigin : Nat := 0x200

/-- `MAX_PROG` (00_scope R5). -/
abbrev maxProg : Nat := 3584

/-- `GLYPH_BYTES` (00_scope R5): the bytes of one glyph, the scale of LD F,Vx. -/
abbrev glyphBytes : Nat := 5

/-- Glyphs 0 to 3 (20_memory R66). Glyph 0 is the source's; UNVERIFIED (log 10): glyphs 1 to F are the conventional font. -/
def glyphs0to3 : List Byte :=
  [0xF0, 0x90, 0x90, 0x90, 0xF0,
   0x20, 0x60, 0x20, 0x20, 0x70,
   0xF0, 0x10, 0xF0, 0x80, 0xF0,
   0xF0, 0x10, 0xF0, 0x10, 0xF0]

/-- Glyphs 4 to 7 (20_memory R66). -/
def glyphs4to7 : List Byte :=
  [0x90, 0x90, 0xF0, 0x10, 0x10,
   0xF0, 0x80, 0xF0, 0x10, 0xF0,
   0xF0, 0x80, 0xF0, 0x90, 0xF0,
   0xF0, 0x10, 0x20, 0x40, 0x40]

/-- Glyphs 8 to B (20_memory R66). -/
def glyphs8toB : List Byte :=
  [0xF0, 0x90, 0xF0, 0x90, 0xF0,
   0xF0, 0x90, 0xF0, 0x10, 0xF0,
   0xF0, 0x90, 0xF0, 0x90, 0x90,
   0xE0, 0x90, 0xE0, 0x90, 0xE0]

/-- Glyphs C to F (20_memory R66). -/
def glyphsCtoF : List Byte :=
  [0xF0, 0x80, 0x80, 0x80, 0xF0,
   0xE0, 0x90, 0x90, 0x90, 0xE0,
   0xF0, 0x80, 0xF0, 0x80, 0xF0,
   0xF0, 0x80, 0xF0, 0x80, 0x80]

/-- The 80 bytes of the default `GLYPH_TABLE` (20_memory R66). -/
def glyphList : List Byte := glyphs0to3 ++ glyphs4to7 ++ glyphs8toB ++ glyphsCtoF

/-- `GLYPH_TABLE` at its default (D23). -/
def glyphTable : Vector Byte 80 := ⟨glyphList.toArray, by decide⟩

/-- What address `a` holds right after reset with the default glyph table (10_state R38): the glyph table in 0..79, then 0.
It is also what an address the memory does not list reads as (log 12). -/
def resetByte (a : Nat) : Byte := glyphList.getD a 0

/-- FREE VALUE (log 3, D2, U6): the time input, in milliseconds, of the step numbered `n`. Nothing constrains it. -/
opaque freeNow : Nat → Int

/-- FREE VALUE (log 4, D25, U5): the byte the random source gives at its draw numbered `n`. Nothing constrains it. -/
opaque freeRandom : Nat → Byte

/-- FREE VALUE (log 5, D13, U7): which of the pressed keys is picked at the choice numbered `n`, under `KeySelect.drawn`. -/
opaque freePick : Nat → Nat

end Config

/-- The named parameters of the block (10_state R20), fixed for a machine: no step writes them (log 6). -/
structure Params where
  /-- `OPERAND_READ` (D5). -/
  operandRead : OperandRead
  /-- `SHIFT_SOURCE` (D7). -/
  shiftSource : ShiftSource
  /-- `KEY_SELECT` (D13). -/
  keySelect : KeySelect
  /-- `TIMER_PERIOD`, in milliseconds (60_exceptions R248, U11). -/
  timerPeriod : Nat
  /-- `GLYPH_TABLE` (D23), copied to memory by `reset`. -/
  glyphTable : Vector Byte 80
  deriving DecidableEq, Repr

/-- The spec's default of every parameter (00_scope R5, 95_test_vectors "Conventions"). -/
def Config.defaults : Params where
  operandRead := .latched
  shiftSource := .x
  keySelect := .lowest
  timerPeriod := 17
  glyphTable := Config.glyphTable

end Sys2Proof
end

