-- ==== Sys2Proof/Machine/State.lean ====
section
/-!
DEFINITION. The block's state (10_state R20), the errors a step can report (60_exceptions R231), the fault record (R232)
and the state after reset (10_state R38). The last five fields of `State` are the model's own: inputs and output of the
transactions and the named parameters, which the spec calls "parameters of the step, not state".
-/
namespace Sys2Proof.Machine

/-- Memory (20_memory R60): (address, byte) pairs with rising addresses, listing only bytes that differ from what an
unlisted address reads as, `Config.resetByte`. -/
abbrev Memory := List Host.Cell

/-- The canonical form of a memory: addresses strictly rising and inside the address space (20_memory R60), no entry equal to
what an unlisted address reads as. -/
abbrev Memory.wf (m : Memory) : Prop :=
  m.Pairwise (fun c d => c.1 < d.1) ∧ ∀ c ∈ m, c.1 < Config.memSize ∧ c.2 ≠ Config.resetByte c.1

/-- The framebuffer (10_state R32): 32 rows of 64 one-bit pixels, `true` = set. -/
abbrev Framebuffer := Vector (Vector Bool 64) 32

/-- The engine's "two observable modes" (10_state R35). -/
inductive Mode where
  | running
  /-- LD Vx,K found no key; `t` is the register the key's index goes to. -/
  | waitingForKey (t : RegIdx)
  deriving DecidableEq, Repr

/-- The store an out-of-range access was made to (60_exceptions R231). -/
inductive Store where
  | mem
  | key
  /-- A program image past the end of memory; raised by the host's `load` alone (60_exceptions R242). -/
  | load
  deriving DecidableEq, Repr

/-- The four error kinds of steps and host operations, with the info each carries (60_exceptions R231). -/
inductive Error where
  /-- An access outside the store's valid bound, with the offending address, index or length. -/
  | outOfRange (store : Store) (index : Nat)
  /-- A word of no instruction, with the raw word. -/
  | unknownInstruction (w : Word)
  /-- CALL with a full stack, with the `pc` of the CALL. -/
  | stackOverflow (pc : Word)
  /-- RET with an empty stack, with the `pc` of the RET. -/
  | stackUnderflow (pc : Word)
  deriving DecidableEq, Repr

/-- An error as it is recorded and reported: its kind and info, and the address of the faulting word (60_exceptions R232). -/
structure ErrorRecord where
  error : Error
  pc : Word
  deriving DecidableEq, Repr

/-- A source of input values the spec puts no law on: values already given, oldest first, and the number of values drawn so
far, which picks the free value when none is given (log 3). -/
structure Source (α : Type) where
  queue : List α
  drawn : Nat
  deriving DecidableEq, Repr

/-- A source with nothing given and nothing drawn. -/
def Source.fresh (α : Type) : Source α := ⟨[], 0⟩

structure State where
  /-- `mem[0..4095]` (10_state R37). -/
  mem : Memory
  /-- `x[0..15]`, the general registers; `x[15]` is the flag register VF (10_state R21, R22). -/
  regs : Vector Byte 16
  /-- `I`, the index register (10_state R27). -/
  I : Word
  /-- `pc` (10_state R24). -/
  pc : Word
  /-- `stack[0..15]`, the call stack (10_state R29). -/
  stack : Vector Word 16
  /-- `sp`, the number of live stack entries, in [0,16] (10_state R29). -/
  sp : Fin 17
  /-- `fb[0..31][0..63]` (10_state R32). -/
  fb : Framebuffer
  /-- `dirty` (10_state R33). -/
  dirty : Bool
  /-- `key[0..15]`, the input latch, `true` = pressed (10_state R34). -/
  key : Vector Bool 16
  /-- `dt`, the delay timer (10_state R30). -/
  dt : Byte
  /-- `st`, the sound timer (10_state R30). -/
  st : Byte
  /-- `mode` (10_state R35). -/
  mode : Mode
  /-- `last_update`, in milliseconds (10_state R31). -/
  lastUpdate : Int
  /-- `fault`, the first error a step reported since the last reset (10_state R36). -/
  fault : Option ErrorRecord
  /-- The model's own (log 2): the error the last step returned to the host, none if it completed (60_exceptions R241). -/
  report : Option ErrorRecord
  /-- The model's own (log 3): the `now` inputs of the coming steps (60_exceptions R248). -/
  clock : Source Int
  /-- The model's own (log 4): the bytes of `RAND` (42_alu R171). -/
  random : Source Byte
  /-- The model's own (log 5): the choices among pressed keys under `KeySelect.drawn` (44_keys_timers R214). -/
  keyPick : Source Nat
  /-- The model's own (log 6): the named parameters (10_state R20), which no step writes. -/
  params : Params
  deriving DecidableEq, Repr

/-- Why a host operation fails (60_exceptions R242, R243): it is returned to the host and nothing changes, so the state is
the one before. Safe: no instruction and no step raises one (their errors are recorded in the state, log 1 and 18). -/
inductive Fault where
  /-- `OutOfRange(load, L)`, raised by `hostLoad` with `L` bytes past the end of memory (60_exceptions R242). Safe. -/
  | loadOutOfRange (length : Nat)
  /-- `OutOfRange(key, k)`, raised by `setKeyDown` and `setKeyUp` with an index outside [0,15] (60_exceptions R243). Safe. -/
  | keyOutOfRange (index : Nat)
  deriving DecidableEq, Repr

/-- Why the model gives no meaning. No instruction of this set is refused (00_scope R12). -/
inductive Refusal where
  /-- Raised by `exec` for an instruction without a meaning yet, of which there is none. Safe. -/
  | notModelled (mnemonic : String)
  deriving DecidableEq, Repr

/-- The blank framebuffer (10_state R38). -/
def blankFramebuffer : Framebuffer := Vector.replicate 32 (Vector.replicate 64 false)

/-- The state after `reset(0)` with every parameter at its default (10_state R38, 95_test_vectors "Conventions"; log 8, 19).
The memory lists nothing: it holds the glyph table and zeros. -/
def State.reset : State where
  mem := []
  regs := Vector.replicate 16 0
  I := 0
  pc := 0x200
  stack := Vector.replicate 16 0
  sp := 0
  fb := blankFramebuffer
  dirty := false
  key := Vector.replicate 16 false
  dt := 0
  st := 0
  mode := .running
  lastUpdate := 0
  fault := none
  report := none
  clock := Source.fresh Int
  random := Source.fresh Byte
  keyPick := Source.fresh Nat
  params := Config.defaults

end Sys2Proof.Machine
end

