-- ==== Sys2Proof/Machine/Ops.lean ====
section
/-!
DEFINITION. The named operations over memory, registers, call stack, framebuffer and inputs, and the one operation by which
a step reports an error (60_exceptions R232, R234). Instructions are written over these.
-/
namespace Sys2Proof.Machine

/-! Memory (20_memory R61). -/

/-- The byte at an address: the listed one, or the reset contents. -/
def Memory.read : Memory → Nat → Byte
  | [], a => Config.resetByte a
  | (k, b) :: rest, a => if k = a then b else Memory.read rest a

/-- The memory without an entry for `a`. -/
def Memory.erase (m : Memory) (a : Nat) : Memory := m.filter (fun c => c.1 ≠ a)

/-- The memory with the entry `(a, b)` before the first entry of a higher address. -/
def Memory.insert (a : Nat) (b : Byte) : Memory → Memory
  | [] => [(a, b)]
  | (k, v) :: rest => if a < k then (a, b) :: (k, v) :: rest else (k, v) :: Memory.insert a b rest

/-- The memory with `b` at `a`, in canonical form: writing what an unlisted address reads as removes the entry. -/
def Memory.write (m : Memory) (a : Nat) (b : Byte) : Memory :=
  if b = Config.resetByte a then m.erase a else Memory.insert a b (m.erase a)

/-- `MemRead(a, 1)`: bounds-checked; the address is an exact integer and does not wrap (20_memory R61, D17). -/
def memRead (m : Memory) (a : Nat) : Except Error Byte :=
  if a < Config.memSize then .ok (m.read a) else .error (.outOfRange .mem a)

/-- `MemWrite(a, 1, v)`: bounds-checked (20_memory R61). -/
def memWrite (m : Memory) (a : Nat) (v : Byte) : Except Error Memory :=
  if a < Config.memSize then .ok (m.write a v) else .error (.outOfRange .mem a)

/-- `n` reads at rising addresses from `a`; the lowest address out of range is the one reported (60_exceptions R235). -/
def memReadBytes (m : Memory) (a : Nat) : Nat → Except Error (List Byte)
  | 0 => .ok []
  | n + 1 =>
    match memRead m a with
    | .error e => .error e
    | .ok b =>
      match memReadBytes m (a + 1) n with
      | .error e => .error e
      | .ok bs => .ok (b :: bs)

/-- Writes at rising addresses from `a`. On an error there is no memory to commit: nothing is written (60_exceptions R234). -/
def memWriteBytes (m : Memory) (a : Nat) : List Byte → Except Error Memory
  | [] => .ok m
  | b :: bs =>
    match memWrite m a b with
    | .error e => .error e
    | .ok m' => memWriteBytes m' (a + 1) bs

/-- Unchecked writes at rising addresses, for `reset` and for a `load` whose length has been checked (60_exceptions R242). -/
def Memory.writeAll (m : Memory) (a : Nat) : List Byte → Memory
  | [] => m
  | b :: bs => Memory.writeAll (m.write a b) (a + 1) bs

/-! General registers (10_state R21). No register is hard-wired, and no access can be out of range. -/

/-- `x[i]` (00_scope R10). -/
def State.reg (s : State) (i : RegIdx) : Byte := s.regs[i]

/-- `x[i] <- v` (00_scope R10). -/
def State.setReg (s : State) (i : RegIdx) (v : Byte) : State := { s with regs := s.regs.set i v }

/-- The flag register, `x[15]` (10_state R22). -/
def flagReg : RegIdx := 15

/-- `x[k] <- bs[k]` for each byte of the list, from register `k` upward (43_index_memory R195). -/
def setRegsFrom (k : Nat) (regs : Vector Byte 16) : List Byte → Vector Byte 16
  | [] => regs
  | b :: bs => setRegsFrom (k + 1) (regs.setIfInBounds k b) bs

/-! Program counter (10_state R24): writes store the value modulo 65536 (00_scope R10). -/

/-- `pc <- pc + 2`, the engine's advance (30_encoding R102). -/
def State.advance (s : State) : State := { s with pc := s.pc + 2 }

/-- `pc <- target`. -/
def State.jump (s : State) (target : Word) : State := { s with pc := target }

/-- `pc + 4` when the condition holds, else `pc + 2`: the next word is passed over without being fetched (41_control_flow R148). -/
def State.skipIf (s : State) (c : Bool) : State := { s with pc := if c then s.pc + 4 else s.pc + 2 }

/-! Call stack (10_state R29). -/

/-- Push a return address; StackOverflow when 16 entries are held (41_control_flow R142). -/
def State.push (s : State) (a : Word) : Except Error State :=
  if h : s.sp.val < 16 then
    .ok { s with stack := s.stack.set s.sp.val a, sp := ⟨s.sp.val + 1, by omega⟩ }
  else .error (.stackOverflow s.pc)

/-- Pop the top return address, which stays in its entry (D27); StackUnderflow when none is held (41_control_flow R140). -/
def State.pop (s : State) : Except Error (Word × State) :=
  if h : 0 < s.sp.val then
    .ok (s.stack[s.sp.val - 1]'(by omega), { s with sp := ⟨s.sp.val - 1, by omega⟩ })
  else .error (.stackUnderflow s.pc)

/-! The pixel engine (40_display R120): coordinates are already in range. -/

/-- `PixelGet(r, c)`. -/
def pixelGet (fb : Framebuffer) (r : Fin 32) (c : Fin 64) : Bool := fb[r][c]

/-- `fb[r][c] <- v`, the write under the two operations below. -/
def pixelSet (fb : Framebuffer) (r : Fin 32) (c : Fin 64) (v : Bool) : Framebuffer := fb.set r (fb[r].set c v)

/-- `PixelClear(r, c)`. Made for every coordinate it leaves the blank framebuffer (`clear_every_pixel` in Laws/Display.lean). -/
def pixelClear (fb : Framebuffer) (r : Fin 32) (c : Fin 64) : Framebuffer := pixelSet fb r c false

/-- `PixelFlip(r, c)`: the old value of the pixel, and the framebuffer with it flipped. -/
def pixelFlip (fb : Framebuffer) (r : Fin 32) (c : Fin 64) : Bool × Framebuffer :=
  (pixelGet fb r c, pixelSet fb r c (!pixelGet fb r c))

/-! Inputs (10_state R20: the random source, the time input, `KEY_SELECT`). -/

/-- The next value of a source: the oldest one given, or the free value of this draw. -/
def Source.value {α : Type} (free : Nat → α) (src : Source α) : α :=
  match src.queue with
  | v :: _ => v
  | [] => free src.drawn

/-- The source after a draw. -/
def Source.next {α : Type} (src : Source α) : Source α := ⟨src.queue.tail, src.drawn + 1⟩

/-- The `now` input of the coming step (60_exceptions R248, D2). -/
def State.now (s : State) : Int := s.clock.value Config.freeNow

/-- `draw RAND`: the byte the random source gives next (42_alu R171, D25). -/
def State.randomByte (s : State) : Byte := s.random.value Config.freeRandom

/-- The pressed keys, in rising order (44_keys_timers R214). -/
def pressedKeys (key : Vector Bool 16) : List KeyIdx := (List.finRange 16).filter (fun k => key[k])

/-- `KEY_SELECT(S)`: none for the empty set; the lowest key, or the one a drawn number points at (44_keys_timers R214, D13). -/
def keySelect (policy : KeySelect) (pick : Nat) : List KeyIdx → Option KeyIdx
  | [] => none
  | k :: rest =>
    match policy with
    | .lowest => some k
    | .drawn => some ((k :: rest).getD (pick % (rest.length + 1)) k)

/-- The key LD Vx,K would store now, if any is pressed. -/
def State.selectedKey (s : State) : Option KeyIdx :=
  keySelect s.params.keySelect (s.keyPick.value Config.freePick) (pressedKeys s.key)

/-- The key scan shared by LD Vx,K and by a waiting step (44_keys_timers R216, 30_encoding R101): when a key is pressed, its
index goes to `x[t]` and `pc` advances. -/
def State.takeKey (s : State) (t : RegIdx) : Option State :=
  match s.selectedKey with
  | none => none
  | some k => some ({ s with keyPick := s.keyPick.next }.setReg t (BitVec.ofNat 8 k.val)).advance

/-! Errors. -/

/-- A step reports an error (60_exceptions R232, R234): nothing is committed, the record is kept if it is the first since
reset, and it is what the step returns to the host (R230). The block has no other trap entry (R237). -/
def State.raise (s : State) (e : Error) : State :=
  { s with
    report := some ⟨e, s.pc⟩
    fault := match s.fault with
      | none => some ⟨e, s.pc⟩
      | some first => some first }

/-- How an instruction ends: with the state it commits, or with an error, which commits nothing of it. -/
def State.settle (s : State) : Except Error State → Host.Outcome State Fault Refusal
  | .ok t => .next t
  | .error e => .next (s.raise e)

/-- The numeric code of an error kind, 0 standing for no error (60_exceptions R231). -/
def errorCode : Option Error → Nat
  | none => 0
  | some (.outOfRange _ _) => 1
  | some (.unknownInstruction _) => 2
  | some (.stackOverflow _) => 3
  | some (.stackUnderflow _) => 4

/-- The error a failing host operation returns: its kind is OutOfRange (60_exceptions R231, R242, R243). -/
def hostError : Fault → Error
  | .loadOutOfRange length => .outOfRange .load length
  | .keyOutOfRange index => .outOfRange .key index

end Sys2Proof.Machine
end

