-- ==== Sys2Proof/Machine/Operands.lean ====
section
/-!
DEFINITION. Every operand form: how instructions get at their operands (30_encoding R93, 43_index_memory R196) and when they
read them (00_scope R11).
-/
namespace Sys2Proof.Machine

/-- `zext_16(NNN)` (30_encoding R93). -/
def addressOf (nnn : Addr12) : Word := nnn.setWidth 16

/-- The target of JP V0: `(NNN + x[0]) mod 65536`, not reduced modulo 4096 (41_control_flow R147). -/
def offsetTarget (s : State) (nnn : Addr12) : Word := BitVec.ofNat 16 (nnn.toNat + (s.reg 0).toNat)

/-- The address pushed by CALL: `(pc + 2) mod 65536` (41_control_flow R142). -/
def returnAddress (s : State) : Word := s.pc + 2

/-- Index-register indirect: the effective address `I + k`, an exact integer (43_index_memory R196, D17). -/
def effectiveAddress (s : State) (k : Nat) : Nat := s.I.toNat + k

/-- The state an instruction reads its operands in after its flag write has given `flagged` (00_scope R11, 42_alu R176):
the one before the instruction, or, under `OPERAND_READ = sequential`, the one it has reached. -/
def operandState (before flagged : State) : State :=
  match before.params.operandRead with
  | .latched => before
  | .sequential => flagged

/-- The register SHR and SHL shift (42_alu R168, D7). -/
def shiftOperand (s : State) (x y : RegIdx) : RegIdx :=
  match s.params.shiftSource with
  | .x => x
  | .y => y

/-- The registers `x[0] .. x[X]`, in order (43_index_memory R194). -/
def registersUpTo (s : State) (x : RegIdx) : List Byte := s.regs.toList.take (x.val + 1)

/-- The three decimal digits of a byte, hundreds first (43_index_memory R193). -/
def bcdDigits (a : Byte) : List Byte :=
  [BitVec.ofNat 8 (a.toNat / 100), BitVec.ofNat 8 (a.toNat / 10 % 10), BitVec.ofNat 8 (a.toNat % 10)]

/-- The key index of SKP and SKNP, `x[X]`, checked against [0,15], and whether that key is pressed (44_keys_timers R210). -/
def keyPressed (s : State) (x : RegIdx) : Except Error Bool :=
  if h : (s.reg x).toNat < 16 then .ok s.key[(s.reg x).toNat]
  else .error (.outOfRange .key (s.reg x).toNat)

/-- The row a sprite's row `r` is drawn at: `(y_reg + r) mod 32` (40_display R123). -/
def wrapRow (by' : Byte) (r : Nat) : Fin 32 := ⟨(by'.toNat + r) % 32, Nat.mod_lt _ (by decide)⟩

/-- The column a sprite's column `c` is drawn at: `(x_reg + c) mod 64` (40_display R123). -/
def wrapColumn (bx : Byte) (c : Nat) : Fin 64 := ⟨(bx.toNat + c) % 64, Nat.mod_lt _ (by decide)⟩

/-- The columns of a sprite byte's 1 bits: column `c` is bit `7 - c` (40_display R124). -/
def litColumns (b : Byte) : List Nat := (List.range 8).filter (fun c => b.getLsbD (7 - c))

/-- The 1 bits of a sprite as (row, column) pairs in the order DRW takes them, from row `r` on (40_display R122). -/
def litBits (r : Nat) : List Byte → List (Nat × Nat)
  | [] => []
  | b :: bs => (litColumns b).map (fun c => (r, c)) ++ litBits (r + 1) bs

end Sys2Proof.Machine
end

