-- ==== Sys2Proof/Machine/Flags.lean ====
section
/-!
DEFINITION. Every flag computation. The block has no flags register: a flag is the value 0 or 1 an instruction writes to
`x[15]` (10_state R22, R26).
-/
namespace Sys2Proof.Machine

/-- A comparison's value: 1 when true, 0 when false (00_scope R9). -/
def flagByte (c : Bool) : Byte := if c then 1 else 0

/-- ADD: the unsigned sum exceeds 255 before truncation (42_alu R166). -/
def addCarry (a b : Byte) : Bool := 255 < a.toNat + b.toNat

/-- SUB and SUBN: strictly greater, so equal operands give 0 (42_alu R173). -/
def subNoBorrow (a b : Byte) : Bool := b.toNat < a.toNat

/-- SHR: the bit shifted out, bit 0 (42_alu R168). -/
def shiftOutRight (a : Byte) : Bool := a.getLsbD 0

/-- SHL: the bit shifted out, bit 7 (42_alu R170). -/
def shiftOutLeft (a : Byte) : Bool := a.getLsbD 7

/-- ADD I: the exact sum exceeds 0xFFF (43_index_memory R191, D18). -/
def indexCarry (i : Word) (a : Byte) : Bool := 0xFFF < i.toNat + a.toNat

/-- Write a flag value (10_state R22). -/
def State.setFlag (s : State) (c : Bool) : State := s.setReg flagReg (flagByte c)

/-- The flag-writing ALU instructions: the flag first, from the operands before the instruction, the result second, so with
X = 15 the result stays (42_alu R175); the result's operands are read as `OPERAND_READ` says (R176). -/
def State.flagThenResult (s : State) (x : RegIdx) (flag : Bool) (result : State → Byte) : State :=
  ((s.setFlag flag).setReg x (result (operandState s (s.setFlag flag)))).advance

end Sys2Proof.Machine
end

