-- ==== Sys2Proof/Machine/Alu.lean ====
section
/-!
DEFINITION. Register load, ALU and random (42_alu).
-/
namespace Sys2Proof.Machine

/-- LD Vx,NN (42_alu R160). -/
def execLdImm (x : RegIdx) (nn : Byte) (s : State) : Host.Outcome State Fault Refusal :=
  .next (s.setReg x nn).advance

/-- ADD Vx,NN (42_alu R161): wraps, no flag. -/
def execAddImm (x : RegIdx) (nn : Byte) (s : State) : Host.Outcome State Fault Refusal :=
  .next (s.setReg x (s.reg x + nn)).advance

/-- LD Vx,Vy (42_alu R162): no flag (R174). -/
def execLdReg (x y : RegIdx) (s : State) : Host.Outcome State Fault Refusal :=
  .next (s.setReg x (s.reg y)).advance

/-- OR Vx,Vy (42_alu R163): no flag (R174). -/
def execOrReg (x y : RegIdx) (s : State) : Host.Outcome State Fault Refusal :=
  .next (s.setReg x (s.reg x ||| s.reg y)).advance

/-- AND Vx,Vy (42_alu R164): no flag (R174). -/
def execAndReg (x y : RegIdx) (s : State) : Host.Outcome State Fault Refusal :=
  .next (s.setReg x (s.reg x &&& s.reg y)).advance

/-- XOR Vx,Vy (42_alu R165): no flag (R174). -/
def execXorReg (x y : RegIdx) (s : State) : Host.Outcome State Fault Refusal :=
  .next (s.setReg x (s.reg x ^^^ s.reg y)).advance

/-- ADD Vx,Vy (42_alu R166): the sum is of the two operands before the instruction under both readings (R176). -/
def execAddReg (x y : RegIdx) (s : State) : Host.Outcome State Fault Refusal :=
  .next (s.flagThenResult x (addCarry (s.reg x) (s.reg y)) (fun _ => s.reg x + s.reg y))

/-- SUB Vx,Vy (42_alu R167). -/
def execSubReg (x y : RegIdx) (s : State) : Host.Outcome State Fault Refusal :=
  .next (s.flagThenResult x (subNoBorrow (s.reg x) (s.reg y)) (fun t => t.reg x - t.reg y))

/-- SHR Vx (42_alu R168). -/
def execShr (x y : RegIdx) (s : State) : Host.Outcome State Fault Refusal :=
  .next (s.flagThenResult x (shiftOutRight (s.reg (shiftOperand s x y))) (fun t => t.reg (shiftOperand s x y) >>> 1))

/-- SUBN Vx,Vy (42_alu R169). -/
def execSubnReg (x y : RegIdx) (s : State) : Host.Outcome State Fault Refusal :=
  .next (s.flagThenResult x (subNoBorrow (s.reg y) (s.reg x)) (fun t => t.reg y - t.reg x))

/-- SHL Vx (42_alu R170). -/
def execShl (x y : RegIdx) (s : State) : Host.Outcome State Fault Refusal :=
  .next (s.flagThenResult x (shiftOutLeft (s.reg (shiftOperand s x y))) (fun t => t.reg (shiftOperand s x y) <<< 1))

/-- RND Vx,NN (42_alu R171): each execution draws exactly one new byte. -/
def execRnd (x : RegIdx) (nn : Byte) (s : State) : Host.Outcome State Fault Refusal :=
  .next ({ s with random := s.random.next }.setReg x (s.randomByte &&& nn)).advance

end Sys2Proof.Machine
end

