-- ==== Sys2Proof/Machine/Control.lean ====
section
/-!
DEFINITION. Control transfer (41_control_flow): RET, JP, CALL, the register skips and JP V0.
-/
namespace Sys2Proof.Machine

/-- RET (41_control_flow R140): StackUnderflow on an empty stack, else to the popped address with no advance. -/
def execRet (s : State) : Host.Outcome State Fault Refusal :=
  s.settle <|
    match s.pop with
    | .error e => .error e
    | .ok (target, t) => .ok (t.jump target)

/-- JP NNN (41_control_flow R141). -/
def execJp (nnn : Addr12) (s : State) : Host.Outcome State Fault Refusal :=
  .next (s.jump (addressOf nnn))

/-- CALL NNN (41_control_flow R142): StackOverflow on a full stack, else push the next word's address and go to NNN. -/
def execCall (nnn : Addr12) (s : State) : Host.Outcome State Fault Refusal :=
  s.settle <|
    match s.push (returnAddress s) with
    | .error e => .error e
    | .ok t => .ok (t.jump (addressOf nnn))

/-- SE Vx,NN (41_control_flow R143). -/
def execSeImm (x : RegIdx) (nn : Byte) (s : State) : Host.Outcome State Fault Refusal :=
  .next (s.skipIf (s.reg x == nn))

/-- SNE Vx,NN (41_control_flow R144). -/
def execSneImm (x : RegIdx) (nn : Byte) (s : State) : Host.Outcome State Fault Refusal :=
  .next (s.skipIf (s.reg x != nn))

/-- SE Vx,Vy (41_control_flow R145). -/
def execSeReg (x y : RegIdx) (s : State) : Host.Outcome State Fault Refusal :=
  .next (s.skipIf (s.reg x == s.reg y))

/-- SNE Vx,Vy (41_control_flow R146). -/
def execSneReg (x y : RegIdx) (s : State) : Host.Outcome State Fault Refusal :=
  .next (s.skipIf (s.reg x != s.reg y))

/-- JP V0,NNN (41_control_flow R147). -/
def execJpV0 (nnn : Addr12) (s : State) : Host.Outcome State Fault Refusal :=
  .next (s.jump (offsetTarget s nnn))

end Sys2Proof.Machine
end

