-- ==== Sys2Proof/Machine/Display.lean ====
section
/-!
DEFINITION. The display instructions (40_display): CLS and DRW.
-/
namespace Sys2Proof.Machine

/-- CLS (40_display R121): `PixelClear` of every pixel, which is the blank framebuffer, and dirty whatever the pixels were. -/
def execCls (s : State) : Host.Outcome State Fault Refusal :=
  .next { s with fb := blankFramebuffer, dirty := true }.advance

/-- DRW's handling of one 1 bit of the sprite, at sprite row `rc.1` and column `rc.2` (40_display R122, R125): flip the
wrapped pixel, and write 1 to the flag register if the pixel was set. `before` is the state before the instruction, `s` the
one reached so far; the coordinate registers are read as `OPERAND_READ` says. -/
def drawBit (before : State) (x y : RegIdx) (s : State) (rc : Nat × Nat) : State :=
  let src := operandState before s
  let flipped := pixelFlip s.fb (wrapRow (src.reg y) rc.1) (wrapColumn (src.reg x) rc.2)
  let drawn := { s with fb := flipped.2 }
  if flipped.1 then drawn.setFlag true else drawn

/-- DRW's second phase over the sprite bytes read in the first (40_display R122, R126). -/
def drawSprite (s : State) (x y : RegIdx) (rows : List Byte) : State :=
  { (litBits 0 rows).foldl (drawBit s x y) (s.setFlag false) with dirty := true }

/-- DRW Vx,Vy,N (40_display R122): all sprite bytes are read, and their bounds checked, before anything is written. -/
def execDrw (x y : RegIdx) (n : Nibble) (s : State) : Host.Outcome State Fault Refusal :=
  s.settle <|
    match memReadBytes s.mem (effectiveAddress s 0) n.toNat with
    | .error e => .error e
    | .ok rows => .ok (drawSprite s x y rows).advance

end Sys2Proof.Machine
end

