-- ==== Sys2Proof/Machine/IndexMem.lean ====
section
/-!
DEFINITION. Index register and memory instructions (43_index_memory). All bounds are checked before any write.
-/
namespace Sys2Proof.Machine

/-- LD I,NNN (43_index_memory R190). -/
def execLdI (nnn : Addr12) (s : State) : Host.Outcome State Fault Refusal :=
  .next { s with I := addressOf nnn }.advance

/-- ADD I,Vx (43_index_memory R191): `I` first, the flag second, so with X = 15 the flag stays. -/
def execAddI (x : RegIdx) (s : State) : Host.Outcome State Fault Refusal :=
  .next ({ s with I := BitVec.ofNat 16 (s.I.toNat + (s.reg x).toNat) }.setFlag (indexCarry s.I (s.reg x))).advance

/-- LD F,Vx (43_index_memory R192): the value is not masked to a digit (D19). -/
def execLdF (x : RegIdx) (s : State) : Host.Outcome State Fault Refusal :=
  .next { s with I := BitVec.ofNat 16 (Config.glyphBytes * (s.reg x).toNat) }.advance

/-- LD B,Vx (43_index_memory R193). -/
def execLdB (x : RegIdx) (s : State) : Host.Outcome State Fault Refusal :=
  s.settle <|
    match memWriteBytes s.mem (effectiveAddress s 0) (bcdDigits (s.reg x)) with
    | .error e => .error e
    | .ok m => .ok { s with mem := m }.advance

/-- LD [I],Vx (43_index_memory R194). -/
def execStore (x : RegIdx) (s : State) : Host.Outcome State Fault Refusal :=
  s.settle <|
    match memWriteBytes s.mem (effectiveAddress s 0) (registersUpTo s x) with
    | .error e => .error e
    | .ok m => .ok { s with mem := m }.advance

/-- LD Vx,[I] (43_index_memory R195). -/
def execLoad (x : RegIdx) (s : State) : Host.Outcome State Fault Refusal :=
  s.settle <|
    match memReadBytes s.mem (effectiveAddress s 0) (x.val + 1) with
    | .error e => .error e
    | .ok bs => .ok { s with regs := setRegsFrom 0 s.regs bs }.advance

end Sys2Proof.Machine
end

