-- ==== Sys2Proof/Machine/KeysTimers.lean ====
section
/-!
DEFINITION. Key and timer instructions (44_keys_timers).
-/
namespace Sys2Proof.Machine

/-- SKP Vx (44_keys_timers R211). -/
def execSkp (x : RegIdx) (s : State) : Host.Outcome State Fault Refusal :=
  s.settle <|
    match keyPressed s x with
    | .error e => .error e
    | .ok down => .ok (s.skipIf down)

/-- SKNP Vx (44_keys_timers R212). -/
def execSknp (x : RegIdx) (s : State) : Host.Outcome State Fault Refusal :=
  s.settle <|
    match keyPressed s x with
    | .error e => .error e
    | .ok down => .ok (s.skipIf (!down))

/-- LD Vx,DT (44_keys_timers R213): `dt` before this step's decay. -/
def execLdVxDT (x : RegIdx) (s : State) : Host.Outcome State Fault Refusal :=
  .next (s.setReg x s.dt).advance

/-- LD Vx,K (44_keys_timers R216): take a pressed key, or wait for one with `pc` and `x[X]` unchanged. -/
def execLdVxK (x : RegIdx) (s : State) : Host.Outcome State Fault Refusal :=
  match s.takeKey x with
  | some t => .next t
  | none => .next { s with mode := .waitingForKey x }

/-- LD DT,Vx (44_keys_timers R217). -/
def execLdDT (x : RegIdx) (s : State) : Host.Outcome State Fault Refusal :=
  .next { s with dt := s.reg x }.advance

/-- LD ST,Vx (44_keys_timers R218). -/
def execLdST (x : RegIdx) (s : State) : Host.Outcome State Fault Refusal :=
  .next { s with st := s.reg x }.advance

end Sys2Proof.Machine
end

