-- ==== Sys2Proof/Machine/Cycle.lean ====
section
/-!
DEFINITION. The step cycle (30_encoding R91, R100, R101; 60_exceptions R234, R235, R241, R248).
-/
namespace Sys2Proof.Machine

/-- Fetch (30_encoding R91): the bytes at `pc` and `pc + 1`, big-endian, the read of `pc` first; it changes no state. -/
def State.fetch (s : State) : Except Error Word :=
  match memRead s.mem s.pc.toNat with
  | .error e => .error e
  | .ok hi =>
    match memRead s.mem (s.pc.toNat + 1) with
    | .error e => .error e
    | .ok lo => .ok (wordOfBytes hi lo)

/-- Fetch and decode, in the order of the checks of 60_exceptions R235. -/
def State.fetchInstr (s : State) : Except Error Instr :=
  match s.fetch with
  | .error e => .error e
  | .ok w =>
    match decodeWord w with
    | .ok i => .ok i
    | .error _ => .error (.unknownInstruction w)

/-- A step begins: nothing has been reported yet. -/
def State.beginStep (s : State) : State := { s with report := none }

/-- Whether the timer gate fires (60_exceptions R248): exact integers, so a clock that went backwards does not fire it. -/
def State.gateFires (s : State) (now : Int) : Bool := s.params.timerPeriod ≤ now - s.lastUpdate

/-- A timer decrements if positive: it "never decrement[s] below 0" (60_exceptions R248). -/
def decay (t : Byte) : Byte := if t = 0 then 0 else t - 1

/-- The timer gate (60_exceptions R248). -/
def State.timerGate (s : State) (now : Int) : State :=
  { s with
    dt := if s.gateFires now then decay s.dt else s.dt
    st := if s.gateFires now then decay s.st else s.st
    lastUpdate := if s.gateFires now then now else s.lastUpdate }

/-- A step ends: the gate runs unless the step reported an error (60_exceptions R234, R248), and its `now` input is used up. -/
def State.endStep (s : State) : State :=
  { (if s.report.isSome then s else s.timerGate s.now) with clock := s.clock.next }

/-- A waiting step's re-scan (30_encoding R101): with a key pressed, the register is written, `pc` advances and the mode is
Running again; else nothing changes. -/
def State.rescan (s : State) (t : RegIdx) : State :=
  match s.takeKey t with
  | some s' => { s' with mode := .running }
  | none => s

/-- The outcome of a step, from the outcome of its instruction. -/
def closeStep : Host.Outcome State Fault Refusal → Host.Outcome State Fault Refusal
  | .next s => .next s.endStep
  | .fault f => .fault f
  | .refused r => .refused r

/-- One `step` (60_exceptions R241), its `now` being `s.now`: fetch, decode, execute and the timer gate in Running mode
(30_encoding R100), the re-scan and the timer gate while waiting for a key (R101). -/
def State.cycle (s : State) : Host.Outcome State Fault Refusal :=
  match s.mode with
  | .waitingForKey t => closeStep (.next (s.beginStep.rescan t))
  | .running =>
    match s.fetchInstr with
    | .error e => closeStep (.next (s.beginStep.raise e))
    | .ok i => closeStep (exec i s.beginStep)

/-- The state with an instruction's word where the next step fetches: at `pc`, which needs `pc` <= 4094 (else the word goes to
the program origin, and `pc` with it), and with mode Running, for a waiting step fetches nothing (log 9). -/
def State.placeWord (s : State) (w : Word) : State :=
  let at' : Word := if s.pc.toNat + 1 < Config.memSize then s.pc else BitVec.ofNat 16 Config.progOrigin
  { s with
    mem := Memory.writeAll s.mem at'.toNat [highByte w, lowByte w]
    pc := at'
    mode := .running }

end Sys2Proof.Machine
end

