-- ==== Sys2Proof/Machine/Step.lean ====
section
/-!
DEFINITION. One step of the machine, and the state whose next step runs a given word. Both only call the step cycle.
-/
namespace Sys2Proof.Machine

/-- `step` (60_exceptions R241). Every error is a next state with the error recorded (log 1). -/
def step (s : State) : Host.Outcome State Fault Refusal := s.cycle

/-- `s` with the word of `nbits` bits where the next step fetches it (log 9). -/
def State.withFetchWord (s : State) (nbits w : Nat) : State := s.placeWord (tableWord nbits w)

end Sys2Proof.Machine
end

