-- ==== Sys2Proof/Machine/HostOps.lean ====
section
/-!
DEFINITION. The host interface (60_exceptions R240): each operation is one transaction on the state, made between steps.
-/
namespace Sys2Proof.Machine

/-- `reset(now)` (70_reset_and_hazards R270, 10_state R38): every component at its reset value, whatever the state was. The
named parameters and the input sources are not components of the block: they stay (log 13). -/
def State.resetAt (s : State) (now : Int) : State :=
  { State.reset with
    mem := Memory.writeAll [] 0 s.params.glyphTable.toList
    lastUpdate := now
    clock := s.clock
    random := s.random
    keyPick := s.keyPick
    params := s.params }

/-- `load(bytes)` (60_exceptions R242): at 0x200 onward; an over-long image writes no byte (90_conflicts C7). -/
def State.hostLoad (s : State) (bytes : List Byte) : Host.Outcome State Fault Refusal :=
  if Config.progOrigin + bytes.length > Config.memSize then .fault (.loadOutOfRange bytes.length)
  else .next { s with mem := Memory.writeAll s.mem Config.progOrigin bytes }

/-- Write one entry of the input latch, for an index in [0,15] (60_exceptions R243); `mode` does not change (90_conflicts C5). -/
def State.setKey (s : State) (k : Nat) (down : Bool) : Host.Outcome State Fault Refusal :=
  if h : k < 16 then .next { s with key := s.key.set k down } else .fault (.keyOutOfRange k)

/-- `set_key_down(k)` (60_exceptions R243). -/
def State.setKeyDown (s : State) (k : Nat) : Host.Outcome State Fault Refusal := s.setKey k true

/-- `set_key_up(k)` (60_exceptions R243). -/
def State.setKeyUp (s : State) (k : Nat) : Host.Outcome State Fault Refusal := s.setKey k false

/-- `is_draw_pending()` (60_exceptions R244). -/
def State.isDrawPending (s : State) : Bool := s.dirty

/-- `clear_draw_pending()` (60_exceptions R244). -/
def State.clearDrawPending (s : State) : State := { s with dirty := false }

/-- `framebuffer()` (60_exceptions R244). -/
def State.framebuffer (s : State) : Framebuffer := s.fb

/-- `delay_timer()` (60_exceptions R246). -/
def State.delayTimer (s : State) : Byte := s.dt

/-- `sound_timer()` (60_exceptions R246). -/
def State.soundTimer (s : State) : Byte := s.st

/-- `step(now)` (60_exceptions R241): the step whose time input is `now`. -/
def State.stepAt (s : State) (now : Int) : Host.Outcome State Fault Refusal :=
  step { s with clock := { s.clock with queue := now :: s.clock.queue } }

/-- The host operations that write the state (60_exceptions R240). -/
inductive HostOp where
  | reset (now : Int)
  | load (bytes : List Byte)
  | step (now : Int)
  | setKeyDown (k : Nat)
  | setKeyUp (k : Nat)
  | clearDrawPending
  deriving DecidableEq, Repr

/-- One transaction of the host (60_exceptions R240). -/
def State.transact (s : State) : HostOp → Host.Outcome State Fault Refusal
  | .reset now => .next (s.resetAt now)
  | .load bytes => s.hostLoad bytes
  | .step now => s.stepAt now
  | .setKeyDown k => s.setKeyDown k
  | .setKeyUp k => s.setKeyUp k
  | .clearDrawPending => .next s.clearDrawPending

/-- What a transaction returns to the host: none for success, or an error of 60_exceptions R231. A step returns the error it
reported (R241), a failing `load` or key setter its own (R242, R243); nothing else can fail. -/
def State.returned (s : State) (op : HostOp) : Option Error :=
  match op, s.transact op with
  | .step _, .next t => t.report.map ErrorRecord.error
  | _, .next _ => none
  | _, .fault f => some (hostError f)
  | _, .refused _ => none

/-- The state after a transaction: a host operation that fails changes nothing (60_exceptions R232). -/
def State.after (s : State) (op : HostOp) : State :=
  match s.transact op with
  | .next t => t
  | .fault _ => s
  | .refused _ => s

/-- The state after a host's transactions, in their order: "in any order and as often as it likes" (60_exceptions R240). -/
def State.afterAll (s : State) (ops : List HostOp) : State := ops.foldl State.after s

end Sys2Proof.Machine
end

