-- ==== Sys2Proof/Safety.lean ====
section
/-!
DEFINITION. What claims about runs speak of: a run without a fault, the halted state (60_exceptions R253), and the invariant
that every transaction keeps.
-/
namespace Sys2Proof.Machine

/-- No step has reported an error since reset (10_state R36): the premise the spec gives claims (D11). -/
def State.unfaulted (s : State) : Prop := s.fault = none

/-- Halted at address `a` (60_exceptions R253): a jump to itself, in Running mode and with no fault recorded. -/
def State.haltedAt (s : State) (a : Addr12) : Prop :=
  s.fault = none ∧ s.mode = .running ∧ s.pc = addressOf a ∧ a.toNat ≤ 4094 ∧
    s.fetch = .ok (0x1000 ||| a.setWidth 16)

/-- The invariant of the block: memory is canonical (20_memory R60); every stack entry is a return address, at most 4096, and
`pc` is at most 0x10FE (10_state R25); a waiting step's `pc` addresses a fetchable word (30_encoding R101). -/
structure State.Inv (s : State) : Prop where
  memory : s.mem.wf
  stack : ∀ k : Fin 16, (s.stack[k]).toNat ≤ 4096
  pc : s.pc.toNat ≤ 0x10FE
  waiting : ∀ t, s.mode = .waitingForKey t → s.pc.toNat ≤ 4094

/-- While waiting, `pc` "still addresses the FX0A word" that named the register waited for (30_encoding R101). -/
def State.WaitsAtItsWord (s : State) : Prop :=
  ∀ t, s.mode = .waitingForKey t → s.fetchInstr = .ok (.ldVxK t)

end Sys2Proof.Machine
end

