-- ==== Sys2Proof/Certificates/Slice0/Obligations.lean ====
section
/-!
DEFINITION. The statements about the model, from the spec's numbered rules. Each says which instructions answer a next state,
which state that is, and what they leave unchanged. A state equation `t = { s with … := t.… }` names everything that may
differ: all other components are unchanged, memory among them unless it is named; memory is also said byte by byte.
-/
open Sys2Proof Sys2Proof.Machine

namespace Sys2Proof.Claims

/-! How the spec writes words: four hexadecimal digits, with field letters standing for digits (00_scope R8). -/

/-- The word of four hexadecimal digits. -/
def hex4 (a b c d : Nat) : Word := BitVec.ofNat 16 (a * 4096 + b * 256 + c * 16 + d)

/-- The word `aXNN`. -/
def hexXNN (a : Nat) (x : RegIdx) (nn : Byte) : Word := BitVec.ofNat 16 (a * 4096 + x.val * 256 + nn.toNat)

/-- The word `aNNN`. -/
def hexNNN (a : Nat) (nnn : Addr12) : Word := BitVec.ofNat 16 (a * 4096 + nnn.toNat)

/-- The spec's word `w` is the instruction `i`. -/
def Decodes (w : Word) (i : Instr) : Prop := decodeWord w = .ok i

/-- The number of illegal words in a family (30_encoding R96). -/
def illegalIn (family : Nat) : Nat :=
  ((List.range 4096).filter fun n => !Word.wellFormed (BitVec.ofNat 16 (family * 4096 + n))).length

/-- The state after a step or instruction that reports error `e` (60_exceptions R232, R234): nothing else changes. -/
def errored (s : State) (e : Error) : State :=
  { s with report := some ⟨e, s.pc⟩, fault := s.fault.or (some ⟨e, s.pc⟩) }

/-- Every byte of memory reads as before. -/
def SameBytes (s t : State) : Prop := ∀ a, t.mem.read a = s.mem.read a

/-- `i` completes: it writes `v` to `x[x]`, advances `pc` by 2, and changes nothing else. -/
def Writes (i : Instr) (s : State) (x : RegIdx) (v : Byte) : Prop :=
  ∃ t, exec i s = .next t ∧ t.reg x = v ∧ (∀ j, j ≠ x → t.reg j = s.reg j) ∧ t.pc = s.pc + 2 ∧
    SameBytes s t ∧ t = { s with regs := t.regs, pc := t.pc }

/-- `i` completes: `x[x]` ends as `v`, the flag register as `f` unless it is `x[x]` itself, `pc` advances by 2, and nothing
else changes (42_alu R175). -/
def WritesFlagged (i : Instr) (s : State) (x : RegIdx) (v : Byte) (f : Nat) : Prop :=
  ∃ t, exec i s = .next t ∧ t.reg x = v ∧ (x ≠ 15 → (t.reg 15).toNat = f) ∧
    (∀ j, j ≠ x → j ≠ 15 → t.reg j = s.reg j) ∧ t.pc = s.pc + 2 ∧
    SameBytes s t ∧ t = { s with regs := t.regs, pc := t.pc }

/-- `i` completes with `pc` at `a` and changes nothing else. -/
def GoesTo (i : Instr) (s : State) (a : Word) : Prop := exec i s = .next { s with pc := a }

/-- `pc + 4` when the condition holds, else `pc + 2` (41_control_flow R143). -/
def skipTarget (s : State) (c : Prop) [Decidable c] : Word := if c then s.pc + 4 else s.pc + 2

/-- A comparison's value as the spec writes it: 1 when true, 0 when false (00_scope R9). -/
def bit (c : Prop) [Decidable c] : Nat := if c then 1 else 0

/-- A 1 bit of the sprite lands on the pixel (40_display R122 to R124): some sprite row `k` and column `j` wrap to it and bit
`7 - j` of `mem[I + k]` is 1. -/
def Covered (s : State) (x y : RegIdx) (n : Nibble) (r : Fin 32) (c : Fin 64) : Prop :=
  ∃ k j, k < n.toNat ∧ j < 8 ∧ r.val = ((s.reg y).toNat + k) % 32 ∧ c.val = ((s.reg x).toNat + j) % 64 ∧
    (s.mem.read (s.I.toNat + k)).getLsbD (7 - j) = true

/-- `t` is what a DRW that completes leaves of `s` off the pixels and `x[15]`: the other registers, `I`, every byte of memory and
everything else as before, `dirty` set and `pc` advanced by 2 (40_display R122, R126). -/
def DrawsOnly (s t : State) : Prop :=
  (∀ j, j ≠ 15 → t.reg j = s.reg j) ∧ t.dirty = true ∧ t.pc = s.pc + 2 ∧ SameBytes s t ∧
    t = { s with fb := t.fb, regs := t.regs, dirty := t.dirty, pc := t.pc }

/-- All bytes `mem[I .. I+n-1]` exist; always so for `n = 0` (20_memory R61). -/
def InRange (s : State) (n : Nat) : Prop := n = 0 ∨ s.I.toNat + n ≤ 4096

/-- The state, with OPERAND_READ as given (00_scope R11). -/
def withRead (s : State) (m : OperandRead) : State := { s with params := { s.params with operandRead := m } }

/-- The registers an instruction writes (10_state R23). -/
def writtenRegs : Instr → List RegIdx
  | .ldImm x _ | .addImm x _ | .rnd x _ | .ldVxDT x | .ldVxK x => [x]
  | .ldReg x _ | .orReg x _ | .andReg x _ | .xorReg x _ => [x]
  | .addReg x _ | .subReg x _ | .subnReg x _ | .shr x _ | .shl x _ => [15, x]
  | .drw _ _ _ | .addI _ => [15]
  | .load x => (List.finRange 16).filter (fun k => k.val ≤ x.val)
  | .cls | .ret | .jp _ | .call _ | .seImm _ _ | .sneImm _ _ | .seReg _ _ | .sneReg _ _ | .ldI _ | .jpV0 _ => []
  | .skp _ | .sknp _ | .ldDT _ | .ldST _ | .ldF _ | .ldB _ | .store _ => []

/-- The new `pc` of an instruction that raises no error (10_state R24). -/
def newPc (i : Instr) (s : State) : Nat :=
  match i with
  | .jp nnn | .call nnn => nnn.toNat
  | .ret => (s.stack.toList.getD (s.sp.val - 1) 0).toNat
  | .jpV0 nnn => nnn.toNat + (s.reg 0).toNat
  | .seImm x nn => s.pc.toNat + if s.reg x = nn then 4 else 2
  | .sneImm x nn => s.pc.toNat + if s.reg x = nn then 2 else 4
  | .seReg x y => s.pc.toNat + if s.reg x = s.reg y then 4 else 2
  | .sneReg x y => s.pc.toNat + if s.reg x = s.reg y then 2 else 4
  | .skp x => s.pc.toNat + if s.key.toList.getD (s.reg x).toNat false then 4 else 2
  | .sknp x => s.pc.toNat + if s.key.toList.getD (s.reg x).toNat false then 2 else 4
  | .ldVxK _ => s.pc.toNat + if s.key.toList.contains true then 2 else 0
  | _ => s.pc.toNat + 2

/-- The source SHR and SHL shift (42_alu R168). -/
def shifted (s : State) (x y : RegIdx) : Byte := if s.params.shiftSource = .x then s.reg x else s.reg y

/-- The end of a step that completes at `t` (60_exceptions R248): both timers decrement if positive and the time is recorded
when the gate fires; the step's time input is used up in any case. -/
def gated (t : State) : State :=
  if t.now - t.lastUpdate ≥ t.params.timerPeriod then
    { t with dt := t.dt - (if t.dt = 0 then 0 else 1), st := t.st - (if t.st = 0 then 0 else 1),
             lastUpdate := t.now, clock := t.clock.next }
  else { t with clock := t.clock.next }

/-- The end of a step at time `now` that completes at `t` (60_exceptions R248): both timers decrement if positive and `now` is
recorded, exactly if TIMER_PERIOD has passed since the last decay. -/
def gateAt (now : Int) (t : State) : State :=
  if now - t.lastUpdate ≥ t.params.timerPeriod then
    { t with dt := t.dt - (if t.dt = 0 then 0 else 1), st := t.st - (if t.st = 0 then 0 else 1), lastUpdate := now }
  else t

/-- The state after the host's `step(now)`: the inputs it had given for later steps are as they were (log 3). -/
def afterStep (s t : State) : State := { t with clock := ⟨s.clock.queue, s.clock.drawn + 1⟩ }

/-- What DRW's second phase has reached (40_display R122): the pixels so far, and the value of `x[15]`. -/
structure Drawing where
  pixel : Fin 32 → Fin 64 → Bool
  flag : Nat

/-- DRW's handling of one 1 bit under the sequential reading, at sprite row `r` and column `c` (40_display R122): a coordinate
register that is `x[15]` is read as the flag it now holds, and coordinates wrap (`Fin.ofNat` is the remainder, R123). -/
def Drawing.flip (s : State) (x y : RegIdx) (d : Drawing) (r c : Nat) : Drawing :=
  let yy := Fin.ofNat 32 ((if y = 15 then d.flag else (s.reg y).toNat) + r)
  let xx := Fin.ofNat 64 ((if x = 15 then d.flag else (s.reg x).toNat) + c)
  { pixel := fun i j => if i = yy ∧ j = xx then !d.pixel i j else d.pixel i j
    flag := if d.pixel yy xx then 1 else d.flag }

/-- DRW's second phase under the sequential reading, in the pseudocode's order: rows from 0, columns from 0 in each row, and
only the sprite's 1 bits (40_display R122, R124). -/
def sequentialDrawing (s : State) (x y : RegIdx) (n : Nibble) : Drawing :=
  (List.range n.toNat).foldl
    (fun d r => (List.range 8).foldl
      (fun d c => if (s.mem.read (s.I.toNat + r)).getLsbD (7 - c) then d.flip s x y r c else d) d)
    ⟨pixelGet s.fb, 0⟩

/-- The byte an address holds after a store of `bytes` from `base` on. -/
def storedByte (s : State) (base : Nat) (bytes : List Byte) (a : Nat) : Byte :=
  if base ≤ a then bytes.getD (a - base) (s.mem.read a) else s.mem.read a

/-- The state with what a step does not read of it replaced: stack entries at or above `sp`. -/
def SameButDeadEntries (s t : State) : Prop :=
  t = { s with stack := t.stack } ∧ ∀ k : Fin 16, k.val < s.sp.val → t.stack[k] = s.stack[k]

end Sys2Proof.Claims

open Sys2Proof.Claims

/-! Reset and the host's operations. -/

/-- 10_state R38, 70_reset_and_hazards R270: whatever the state was, `reset(now)` completes with every component at the value
of R38's table, and doing it again leaves the same state. -/
def Obligations.ResetGivesEveryComponentItsValue : Prop :=
  ∀ (s : State) (now : Int), ∃ t, s.transact (.reset now) = .next t ∧
    (∀ a, t.mem.read a = s.params.glyphTable.toList.getD a 0) ∧ (∀ i, t.reg i = 0) ∧ t.I = 0 ∧ t.pc = 0x200 ∧
    (∀ k : Fin 16, t.stack[k] = 0) ∧ t.sp = 0 ∧ (∀ r c, pixelGet t.fb r c = false) ∧ t.dirty = false ∧
    (∀ k : KeyIdx, t.key[k] = false) ∧ t.dt = 0 ∧ t.st = 0 ∧ t.mode = .running ∧ t.lastUpdate = now ∧ t.fault = none ∧
    t.transact (.reset now) = .next t

/-- `State.reset`, whose glyph table is the default and whose time is 0 (log 8), is what `reset(0)` gives, and it meets the
invariants. -/
def Obligations.ResetStateMeetsInvariant : Prop :=
  State.reset.resetAt 0 = State.reset ∧ State.reset.Inv ∧ State.reset.WaitsAtItsWord

/-- 60_exceptions R242: `load` copies an image that fits to 0x200 onward and changes nothing else, so an empty one changes
nothing, and the next fetch sees the loaded bytes; a longer one fails with OutOfRange(load, L), the error kind of code 1 in
R231, and writes no byte. -/
def Obligations.LoadCopiesOrFails : Prop :=
  ∀ (s : State) (bytes : List Byte),
    (0x200 + bytes.length ≤ 4096 → ∃ t, s.transact (.load bytes) = .next t ∧
      (∀ i, (h : i < bytes.length) → t.mem.read (0x200 + i) = bytes[i]) ∧
      (∀ a, (a < 0x200 ∨ 0x200 + bytes.length ≤ a) → t.mem.read a = s.mem.read a) ∧ t = { s with mem := t.mem } ∧
      (bytes = [] → t = s) ∧
      ∀ i, (h : i + 1 < bytes.length) → { t with pc := BitVec.ofNat 16 (0x200 + i) }.fetch =
        .ok (BitVec.ofNat 16 (bytes[i].toNat * 256 + bytes[i + 1].toNat))) ∧
    (0x200 + bytes.length > 4096 →
      s.transact (.load bytes) = .fault (.loadOutOfRange bytes.length) ∧ s.after (.load bytes) = s ∧
      s.returned (.load bytes) = some (.outOfRange .load bytes.length) ∧ errorCode (s.returned (.load bytes)) = 1)

/-- 60_exceptions R243: the key setters write one latch entry for an index in [0,15] and nothing else, `mode` among it; any
other index fails with OutOfRange(key, k), code 1 in R231, and changes nothing; setting a key to what it is changes nothing.
R244, R246: the reads of the framebuffer, the dirty flag and the timers return them, and `clear_draw_pending` clears the dirty
flag alone. -/
def Obligations.KeySettersAndHostReads : Prop :=
  ∀ (s : State) (k : Nat) (down : Bool),
    let op := if down then HostOp.setKeyDown k else HostOp.setKeyUp k
    (∀ h : k < 16, ∃ t, s.transact op = .next t ∧ t.key[k] = down ∧
      (∀ j : KeyIdx, j.val ≠ k → t.key[j] = s.key[j]) ∧ t = { s with key := t.key } ∧ (s.key[k] = down → t = s)) ∧
    (16 ≤ k → s.transact op = .fault (.keyOutOfRange k) ∧ s.after op = s ∧
      s.returned op = some (.outOfRange .key k) ∧ errorCode (s.returned op) = 1) ∧
    s.transact .clearDrawPending = .next { s with dirty := false } ∧
    s.isDrawPending = s.dirty ∧ s.framebuffer = s.fb ∧ s.delayTimer = s.dt ∧ s.soundTimer = s.st

/-- 70_reset_and_hazards R273 (which the spec marks as derived): the state claims about a program start from, after `reset(t0)`
and `load(P)`. -/
def Obligations.LaunchStateHoldsTheProgram : Prop :=
  ∀ (s : State) (t0 : Int) (program : List Byte), program.length ≤ 3584 →
    let t := s.afterAll [.reset t0, .load program]
    t.fault = none ∧ t.mode = .running ∧ t.pc = 0x200 ∧ (∀ k : KeyIdx, t.key[k] = false) ∧ t.lastUpdate = t0 ∧
      (∀ i, (h : i < program.length) → t.mem.read (0x200 + i) = program[i]) ∧
      (∀ a, 80 ≤ a → (a < 0x200 ∨ 0x200 + program.length ≤ a) → t.mem.read a = 0)

/-! Encoding and decoding. -/

/-- 30_encoding R94: each of the 34 rows, by its match and mask as that rule gives them (log 11); the fields by their bits
(00_scope R8). -/
def Obligations.OpcodeMapRows : Prop :=
  ∀ w : Word,
    ((fieldX w).val = (w.extractLsb 11 8).toNat ∧ (fieldY w).val = (w.extractLsb 7 4).toNat ∧
      fieldN w = w.extractLsb 3 0 ∧ fieldNN w = w.extractLsb 7 0 ∧ fieldNNN w = w.extractLsb 11 0) ∧
    (w &&& 0xFFFF = 0x00E0 → Decodes w .cls) ∧ (w &&& 0xFFFF = 0x00EE → Decodes w .ret) ∧
    (w &&& 0xF000 = 0x1000 → Decodes w (.jp (fieldNNN w))) ∧ (w &&& 0xF000 = 0x2000 → Decodes w (.call (fieldNNN w))) ∧
    (w &&& 0xF000 = 0x3000 → Decodes w (.seImm (fieldX w) (fieldNN w))) ∧
    (w &&& 0xF000 = 0x4000 → Decodes w (.sneImm (fieldX w) (fieldNN w))) ∧
    (w &&& 0xF00F = 0x5000 → Decodes w (.seReg (fieldX w) (fieldY w))) ∧
    (w &&& 0xF000 = 0x6000 → Decodes w (.ldImm (fieldX w) (fieldNN w))) ∧
    (w &&& 0xF000 = 0x7000 → Decodes w (.addImm (fieldX w) (fieldNN w))) ∧
    (w &&& 0xF00F = 0x8000 → Decodes w (.ldReg (fieldX w) (fieldY w))) ∧
    (w &&& 0xF00F = 0x8001 → Decodes w (.orReg (fieldX w) (fieldY w))) ∧
    (w &&& 0xF00F = 0x8002 → Decodes w (.andReg (fieldX w) (fieldY w))) ∧
    (w &&& 0xF00F = 0x8003 → Decodes w (.xorReg (fieldX w) (fieldY w))) ∧
    (w &&& 0xF00F = 0x8004 → Decodes w (.addReg (fieldX w) (fieldY w))) ∧
    (w &&& 0xF00F = 0x8005 → Decodes w (.subReg (fieldX w) (fieldY w))) ∧
    (w &&& 0xF00F = 0x8006 → Decodes w (.shr (fieldX w) (fieldY w))) ∧
    (w &&& 0xF00F = 0x8007 → Decodes w (.subnReg (fieldX w) (fieldY w))) ∧
    (w &&& 0xF00F = 0x800E → Decodes w (.shl (fieldX w) (fieldY w))) ∧
    (w &&& 0xF00F = 0x9000 → Decodes w (.sneReg (fieldX w) (fieldY w))) ∧
    (w &&& 0xF000 = 0xA000 → Decodes w (.ldI (fieldNNN w))) ∧ (w &&& 0xF000 = 0xB000 → Decodes w (.jpV0 (fieldNNN w))) ∧
    (w &&& 0xF000 = 0xC000 → Decodes w (.rnd (fieldX w) (fieldNN w))) ∧
    (w &&& 0xF000 = 0xD000 → Decodes w (.drw (fieldX w) (fieldY w) (fieldN w))) ∧
    (w &&& 0xF0FF = 0xE09E → Decodes w (.skp (fieldX w))) ∧ (w &&& 0xF0FF = 0xE0A1 → Decodes w (.sknp (fieldX w))) ∧
    (w &&& 0xF0FF = 0xF007 → Decodes w (.ldVxDT (fieldX w))) ∧ (w &&& 0xF0FF = 0xF00A → Decodes w (.ldVxK (fieldX w))) ∧
    (w &&& 0xF0FF = 0xF015 → Decodes w (.ldDT (fieldX w))) ∧ (w &&& 0xF0FF = 0xF018 → Decodes w (.ldST (fieldX w))) ∧
    (w &&& 0xF0FF = 0xF01E → Decodes w (.addI (fieldX w))) ∧ (w &&& 0xF0FF = 0xF029 → Decodes w (.ldF (fieldX w))) ∧
    (w &&& 0xF0FF = 0xF033 → Decodes w (.ldB (fieldX w))) ∧ (w &&& 0xF0FF = 0xF055 → Decodes w (.store (fieldX w))) ∧
    (w &&& 0xF0FF = 0xF065 → Decodes w (.load (fieldX w)))

/-- 30_encoding R95, R96: a word that is legal by the table of illegal words decodes, and every other one is refused with that
exact word; the table's counts of illegal words by family, and "The total is 21582 illegal words" (which the
spec marks as derived). -/
def Obligations.IllegalWordsAreUnknown : Prop :=
  (∀ w : Word, (w.wellFormed = true → ∃ i, decodeWord w = .ok i) ∧
    (w.wellFormed = false → decodeWord w = .error (.unknownInstruction w))) ∧
  illegalIn 0x0 = 4094 ∧ illegalIn 0x5 = 3840 ∧ illegalIn 0x8 = 1792 ∧ illegalIn 0x9 = 3840 ∧ illegalIn 0xE = 4064 ∧
    illegalIn 0xF = 3952 ∧ ((List.range 16).map illegalIn).sum = 21582

/-- Decoding an encoded instruction gives it back, from a word and from bytes with others behind them. -/
def Obligations.DecodeOfEncode : Prop :=
  ∀ (i : Instr) (rest : List Byte),
    decodeWord (encode i) = .ok i ∧ decodeBytes (encodeBytes i ++ rest) = .ok (i, rest)

/-- Each legal word has one meaning: encoding what it decodes to gives the word back, so no bit of it is dropped. -/
def Obligations.EncodeOfDecode : Prop :=
  ∀ (w : Word) (i : Instr), decodeWord w = .ok i → encode i = w

/-- The four words the source confirms (30_encoding R94), one more of each family, and bytes in big-endian order. -/
def Obligations.SampleWordsDecode : Prop :=
  decodeWord 0x6005 = .ok (.ldImm 0 5) ∧ decodeWord 0xA2F0 = .ok (.ldI 0x2F0) ∧ decodeWord 0x2300 = .ok (.call 0x300) ∧
    decodeWord 0x00EE = .ok .ret ∧ decodeWord 0xD015 = .ok (.drw 0 1 5) ∧ decodeWord 0x8F15 = .ok (.subReg 15 1) ∧
    decodeWord 0xF265 = .ok (.load 2) ∧ decodeWord 0xE19E = .ok (.skp 1) ∧ decodeWord 0xF30A = .ok (.ldVxK 3) ∧
    decodeBytes [0x12, 0x34, 0x56] = .ok (.jp 0x234, [0x56]) ∧ decodeBytes [0x12] = .error .truncated

/-! The step cycle. -/

/-- 30_encoding R91: the fetch reads the word at `[pc, pc+1]`, or reports the first of the two addresses out of range; it is a
function of the state and changes none of it. -/
def Obligations.FetchReadsOrReportsAddress : Prop :=
  ∀ s : State,
    (s.pc.toNat ≤ 4094 →
      s.fetch = .ok (BitVec.ofNat 16 ((s.mem.read s.pc.toNat).toNat * 256 + (s.mem.read (s.pc.toNat + 1)).toNat))) ∧
    (s.pc.toNat = 4095 → s.fetch = .error (.outOfRange .mem 4096)) ∧
    (s.pc.toNat > 4095 → s.fetch = .error (.outOfRange .mem s.pc.toNat))

/-- 30_encoding R100, 60_exceptions R241, R248: in Running mode a word that decodes is executed; the timer gate follows an
instruction that reports no error, and the step ends as it is after one that reports an error. The time input is a value
nothing constrains, or the one given (log 3), and the host's `step(now)` is that step with `now` in the gate, returning the
error if one was reported (R241); that an error is a next state is log 1. -/
def Obligations.StepRunsDecodedInstruction : Prop :=
  ∀ (s : State) (w : Word) (i : Instr), s.mode = .running → s.fetch = .ok w → decodeWord w = .ok i →
    ∀ t, exec i { s with report := none } = .next t →
      step s = .next (if t.report = none then gated t else { t with clock := t.clock.next }) ∧
      ∀ now, s.transact (.step now) = .next (afterStep s (if t.report = none then gateAt now t else t)) ∧
        s.returned (.step now) = t.report.map ErrorRecord.error

/-- 30_encoding R91, R95, 60_exceptions R234: a step in Running mode whose fetch fails ends with that error; one at an unknown
word ends with that error and that exact word. Neither changes anything but the record. -/
def Obligations.StepReportsFetchAndDecodeErrors : Prop :=
  ∀ s : State, s.mode = .running →
    (∀ e, s.fetch = .error e → step s = .next { errored s e with clock := s.clock.next }) ∧
    (∀ w, s.fetch = .ok w → w.wellFormed = false →
      step s = .next { errored s (.unknownInstruction w) with clock := s.clock.next })

/-- 30_encoding R101: a waiting step fetches nothing. With no key pressed only the timer gate runs; with one pressed, the
selected key's index goes to the register waited for, `pc` advances and the mode is Running. It reports no error. -/
def Obligations.WaitingStepScansKeys : Prop :=
  ∀ (s : State) (t : RegIdx), s.mode = .waitingForKey t →
    ((∀ k : KeyIdx, s.key[k] = false) → step s = .next (gated { s with report := none })) ∧
    ((∃ k : KeyIdx, s.key[k] = true) → ∃ (k : KeyIdx) (u : State), s.key[k] = true ∧ s.selectedKey = some k ∧
      step s = .next (gated u) ∧ u.reg t = BitVec.ofNat 8 k.val ∧ (∀ j, j ≠ t → u.reg j = s.reg j) ∧
      u.pc = s.pc + 2 ∧ u.mode = .running ∧
      u = { s with regs := u.regs, pc := u.pc, mode := u.mode, report := none, keyPick := s.keyPick.next })

/-- That a step which reports an error answers `next` and does not stop is the model's choice (log 1): 60_exceptions R234 gives
the state after it, and R238 lets the host step again. That no word is refused is 00_scope R12's. -/
def Obligations.EveryStepAnswers : Prop := ∀ s : State, ∃ t, step s = .next t

/-- 60_exceptions R234: a step that reports an error commits nothing but the fault record; its `pc` is the faulting word's. -/
def Obligations.FaultingStepCommitsNothing : Prop :=
  ∀ (s t : State) (r : ErrorRecord), step s = .next t → t.report = some r →
    r.pc = s.pc ∧ t = { errored s r.error with clock := s.clock.next }

/-- 60_exceptions R232: the first fault is kept; a step without error and every host operation but `reset` leave the record;
`reset` clears it. -/
def Obligations.FirstFaultIsKept : Prop :=
  ∀ s t : State, (step s = .next t → t.fault = s.fault.or t.report) ∧
    (∀ bytes, (s.after (.load bytes)).fault = s.fault) ∧ (∀ k, (s.after (.setKeyDown k)).fault = s.fault) ∧
    (∀ k, (s.after (.setKeyUp k)).fault = s.fault) ∧ (s.after .clearDrawPending).fault = s.fault ∧
    (∀ now, (s.after (.reset now)).fault = none)

/-- 60_exceptions R238: after an error, a repeated step re-executes the same word from the same state and raises the same
error again. -/
def Obligations.RepeatedStepRaisesSameError : Prop :=
  ∀ (s t : State) (r : ErrorRecord), step s = .next t → t.report = some r →
    ∃ u, step t = .next u ∧ u.report = some r ∧ u.fault = t.fault

/-- 60_exceptions R248, R241: the gate at the end of a step; and every `step(now)` of the host, in either mode, records its own
`now` exactly if it reports no error and TIMER_PERIOD has passed since the last decay. -/
def Obligations.TimerGateAtEndOfStep : Prop :=
  ∀ s : State,
    (s.report = none → s.now - s.lastUpdate ≥ s.params.timerPeriod →
      s.endStep.dt.toNat = s.dt.toNat - 1 ∧ s.endStep.st.toNat = s.st.toNat - 1 ∧ s.endStep.lastUpdate = s.now) ∧
    (s.report = none → s.now - s.lastUpdate < s.params.timerPeriod →
      s.endStep.dt = s.dt ∧ s.endStep.st = s.st ∧ s.endStep.lastUpdate = s.lastUpdate) ∧
    (s.report ≠ none → s.endStep.dt = s.dt ∧ s.endStep.st = s.st ∧ s.endStep.lastUpdate = s.lastUpdate) ∧
    s.endStep = { s with dt := s.endStep.dt, st := s.endStep.st, lastUpdate := s.endStep.lastUpdate,
                         clock := s.clock.next } ∧
    (∀ now, let s' := { s with clock := ⟨now :: s.clock.queue, s.clock.drawn⟩ }
      s.transact (.step now) = step s' ∧ s'.now = now) ∧
    ∀ now, ∃ t, s.transact (.step now) = .next t ∧ t.clock = ⟨s.clock.queue, s.clock.drawn + 1⟩ ∧
      t.lastUpdate = if t.report = none ∧ now - s.lastUpdate ≥ s.params.timerPeriod then now else s.lastUpdate

/-- 60_exceptions R249 (which the spec marks as derived): unless the step runs LD DT or LD ST, one step
decrements each timer by at most 1, and both or neither. -/
def Obligations.TimersDecayTogether : Prop :=
  ∀ s t : State, step s = .next t →
    (∀ x, s.mode = .running → s.fetchInstr ≠ .ok (.ldDT x) ∧ s.fetchInstr ≠ .ok (.ldST x)) →
    (t.dt.toNat = s.dt.toNat - 1 ∧ t.st.toNat = s.st.toNat - 1) ∨ (t.dt = s.dt ∧ t.st = s.st)

/-! Display. -/

/-- 40_display R121: CLS. -/
def Obligations.ClsBlanksAndMarksDirty : Prop :=
  ∀ s : State, Decodes 0x00E0 .cls ∧ ∃ t, exec .cls s = .next t ∧ (∀ r c, pixelGet t.fb r c = false) ∧ t.dirty = true ∧
    t.pc = s.pc + 2 ∧ SameBytes s t ∧ t = { s with fb := t.fb, dirty := t.dirty, pc := t.pc }

/-- 40_display R122 to R127 under the latched reading (R127, by which the flag is over the pixels before the draw, the spec
marks as derived): exactly the covered pixels flip, the flag register ends as 1 exactly if
some covered pixel was set, dirty is set, `I` stays. -/
def Obligations.DrwXorsTheWrappedSprite : Prop :=
  ∀ (s : State) (x y : RegIdx) (n : Nibble), s.params.operandRead = .latched → InRange s n.toNat →
    Decodes (hex4 0xD x.val y.val n.toNat) (.drw x y n) ∧ ∃ t, exec (.drw x y n) s = .next t ∧
      (∀ r c, Covered s x y n r c → pixelGet t.fb r c = !pixelGet s.fb r c) ∧
      (∀ r c, ¬ Covered s x y n r c → pixelGet t.fb r c = pixelGet s.fb r c) ∧
      ((∃ r c, Covered s x y n r c ∧ pixelGet s.fb r c = true) → t.reg 15 = 1) ∧
      ((∀ r c, Covered s x y n r c → pixelGet s.fb r c = false) → t.reg 15 = 0) ∧
      (∀ j, j ≠ 15 → t.reg j = s.reg j) ∧ t.dirty = true ∧ t.I = s.I ∧ t.pc = s.pc + 2 ∧ SameBytes s t ∧
      t = { s with fb := t.fb, regs := t.regs, dirty := t.dirty, pc := t.pc }

/-- 40_display R122: DRW completes under both readings whenever its sprite bytes exist, and under each of them changes only
pixels, `x[15]`, dirty and `pc`. Under the sequential reading the pixels and `x[15]` are those the pseudocode reaches when a
coordinate register that is `x[15]` is read as the flag at each pixel (which also covers X = 15 or Y = 15); while no pixel it
covers is set, that flag stays 0, so the sprite lies as if `x[15]` were 0 before; and with neither coordinate register `x[15]`
the two readings give the same pixels and registers. -/
def Obligations.DrwReadingsAgreeOffTheFlag : Prop :=
  ∀ (s : State) (x y : RegIdx) (n : Nibble), InRange s n.toNat →
    ∃ t u, exec (.drw x y n) (withRead s .latched) = .next t ∧ exec (.drw x y n) (withRead s .sequential) = .next u ∧
      (∀ r c, pixelGet u.fb r c = (sequentialDrawing s x y n).pixel r c) ∧
      (u.reg 15).toNat = (sequentialDrawing s x y n).flag ∧
      ((∀ r c, Covered (s.setReg 15 0) x y n r c → pixelGet s.fb r c = false) →
        (∀ r c, Covered (s.setReg 15 0) x y n r c → pixelGet u.fb r c = true) ∧
        (∀ r c, ¬ Covered (s.setReg 15 0) x y n r c → pixelGet u.fb r c = pixelGet s.fb r c) ∧ u.reg 15 = 0) ∧
      (x ≠ 15 → y ≠ 15 → u.fb = t.fb ∧ u.regs = t.regs) ∧
      DrawsOnly (withRead s .latched) t ∧ DrawsOnly (withRead s .sequential) u

/-- 40_display R122, R235: the lowest sprite row out of range is reported, and nothing is written. -/
def Obligations.DrwReportsLowestRowOutOfRange : Prop :=
  ∀ (s : State) (x y : RegIdx) (n : Nibble) (r : Nat), r < n.toNat → s.I.toNat + r > 4095 →
    (∀ r' < r, s.I.toNat + r' ≤ 4095) → exec (.drw x y n) s = .next (errored s (.outOfRange .mem (s.I.toNat + r)))

/-- 40_display R125, §8: drawing the same sprite twice restores the framebuffer; on a blank one the first draw never sets the
flag, and the second sets it if the sprite has a 1 bit. -/
def Obligations.DrawingTwiceErases : Prop :=
  ∀ (s : State) (x y : RegIdx) (n : Nibble), s.params.operandRead = .latched → InRange s n.toNat → x ≠ 15 → y ≠ 15 →
    ∃ t u, exec (.drw x y n) s = .next t ∧ exec (.drw x y n) t = .next u ∧ u.fb = s.fb ∧
      (s.fb = blankFramebuffer → t.reg 15 = 0) ∧
      (s.fb = blankFramebuffer → (∃ r c, Covered s x y n r c) → u.reg 15 = 1)

/-! Control transfer. -/

/-- 41_control_flow R140: RET, on a non-empty and on an empty stack. -/
def Obligations.RetPopsOrUnderflows : Prop :=
  ∀ s : State, Decodes 0x00EE .ret ∧
    (∀ h : 0 < s.sp.val, ∃ t, exec .ret s = .next t ∧ t.pc = s.stack[s.sp.val - 1] ∧ t.sp.val = s.sp.val - 1 ∧
      SameBytes s t ∧ t = { s with pc := t.pc, sp := t.sp }) ∧
    (s.sp.val = 0 → exec .ret s = .next (errored s (.stackUnderflow s.pc)))

/-- 41_control_flow R142: CALL, on a stack with room and on a full one. -/
def Obligations.CallPushesOrOverflows : Prop :=
  ∀ (s : State) (nnn : Addr12), Decodes (hexNNN 2 nnn) (.call nnn) ∧
    (∀ h : s.sp.val < 16, ∃ t, exec (.call nnn) s = .next t ∧ t.stack[s.sp.val].toNat = (s.pc.toNat + 2) % 65536 ∧
      (∀ k : Fin 16, k.val ≠ s.sp.val → t.stack[k] = s.stack[k]) ∧ t.sp.val = s.sp.val + 1 ∧
      t.pc.toNat = nnn.toNat ∧ SameBytes s t ∧ t = { s with pc := t.pc, sp := t.sp, stack := t.stack }) ∧
    (s.sp.val = 16 → exec (.call nnn) s = .next (errored s (.stackOverflow s.pc)))

/-- §8 (41_control_flow R142): CALL then RET goes to the instruction after the CALL and leaves everything but `pc` and the dead
stack entry, the one the CALL wrote, as it was: `sp` and the other stack entries too. -/
def Obligations.CallThenRetReturns : Prop :=
  ∀ (s : State) (nnn : Addr12), s.sp.val < 16 → ∃ t u, exec (.call nnn) s = .next t ∧ exec .ret t = .next u ∧
    u.pc = s.pc + 2 ∧ (∀ k : Fin 16, k.val ≠ s.sp.val → u.stack[k] = s.stack[k]) ∧
    u = { s with pc := u.pc, stack := t.stack }

/-- 41_control_flow R141, R143 to R147: the two jumps, whose JP V0 does not reduce its sum modulo 4096, and the four register
skips. -/
def Obligations.JumpsAndRegisterSkips : Prop :=
  ∀ (s : State) (x y : RegIdx) (nn : Byte) (nnn : Addr12),
    (Decodes (hexNNN 1 nnn) (.jp nnn) ∧ GoesTo (.jp nnn) s (BitVec.ofNat 16 nnn.toNat)) ∧
    (Decodes (hexNNN 0xB nnn) (.jpV0 nnn) ∧
      GoesTo (.jpV0 nnn) s (BitVec.ofNat 16 ((nnn.toNat + (s.reg 0).toNat) % 65536))) ∧
    (Decodes (hexXNN 3 x nn) (.seImm x nn) ∧ GoesTo (.seImm x nn) s (skipTarget s (s.reg x = nn))) ∧
    (Decodes (hexXNN 4 x nn) (.sneImm x nn) ∧ GoesTo (.sneImm x nn) s (skipTarget s (s.reg x ≠ nn))) ∧
    (Decodes (hex4 5 x.val y.val 0) (.seReg x y) ∧ GoesTo (.seReg x y) s (skipTarget s (s.reg x = s.reg y))) ∧
    (Decodes (hex4 9 x.val y.val 0) (.sneReg x y) ∧ GoesTo (.sneReg x y) s (skipTarget s (s.reg x ≠ s.reg y)))

/-! Register load, ALU and random. -/

/-- 42_alu R160 to R165: loads, ADD with an immediate and the bitwise operations; none writes a flag. -/
def Obligations.LoadsAndLogicWriteOneRegister : Prop :=
  ∀ (s : State) (x y : RegIdx) (nn : Byte),
    (Decodes (hexXNN 6 x nn) (.ldImm x nn) ∧ Writes (.ldImm x nn) s x nn) ∧
    (Decodes (hexXNN 7 x nn) (.addImm x nn) ∧
      Writes (.addImm x nn) s x (BitVec.ofNat 8 (((s.reg x).toNat + nn.toNat) % 256))) ∧
    (Decodes (hex4 8 x.val y.val 0) (.ldReg x y) ∧ Writes (.ldReg x y) s x (s.reg y)) ∧
    (Decodes (hex4 8 x.val y.val 1) (.orReg x y) ∧ Writes (.orReg x y) s x (s.reg x ||| s.reg y)) ∧
    (Decodes (hex4 8 x.val y.val 2) (.andReg x y) ∧ Writes (.andReg x y) s x (s.reg x &&& s.reg y)) ∧
    (Decodes (hex4 8 x.val y.val 3) (.xorReg x y) ∧ Writes (.xorReg x y) s x (s.reg x ^^^ s.reg y))

/-- 42_alu R166: ADD Vx,Vy, under both readings: the sum modulo 256 in all cases, the flag if X is not 15. -/
def Obligations.AddRegWritesSumAndCarry : Prop :=
  ∀ (s : State) (x y : RegIdx), Decodes (hex4 8 x.val y.val 4) (.addReg x y) ∧
    WritesFlagged (.addReg x y) s x (BitVec.ofNat 8 (((s.reg x).toNat + (s.reg y).toNat) % 256))
      (bit ((s.reg x).toNat + (s.reg y).toNat > 255))

/-- 42_alu R167, R169, R173 under the latched reading: the differences modulo 256, the flag by the strict comparison. -/
def Obligations.SubAndSubnWriteDifferenceAndNoBorrow : Prop :=
  ∀ (s : State) (x y : RegIdx), s.params.operandRead = .latched →
    (Decodes (hex4 8 x.val y.val 5) (.subReg x y) ∧
      WritesFlagged (.subReg x y) s x (BitVec.ofNat 8 ((256 + (s.reg x).toNat - (s.reg y).toNat) % 256))
        (bit ((s.reg x).toNat > (s.reg y).toNat))) ∧
    (Decodes (hex4 8 x.val y.val 7) (.subnReg x y) ∧
      WritesFlagged (.subnReg x y) s x (BitVec.ofNat 8 ((256 + (s.reg y).toNat - (s.reg x).toNat) % 256))
        (bit ((s.reg y).toNat > (s.reg x).toNat)))

/-- 42_alu R168, R170 under the latched reading, for both shift sources: the logical shifts, the flag is the bit shifted out. -/
def Obligations.ShiftsWriteShiftedAndBitOut : Prop :=
  ∀ (s : State) (x y : RegIdx), s.params.operandRead = .latched →
    (Decodes (hex4 8 x.val y.val 6) (.shr x y) ∧
      WritesFlagged (.shr x y) s x (BitVec.ofNat 8 ((shifted s x y).toNat / 2)) ((shifted s x y).toNat % 2)) ∧
    (Decodes (hex4 8 x.val y.val 0xE) (.shl x y) ∧
      WritesFlagged (.shl x y) s x (BitVec.ofNat 8 ((shifted s x y).toNat * 2 % 256)) ((shifted s x y).toNat / 128))

/-- 42_alu R176: the results under the sequential reading, case by case of its table, with the shifts' source x. -/
def Obligations.SequentialReadingResults : Prop :=
  ∀ (s : State) (x y : RegIdx), s.params.operandRead = .sequential →
    let a := (s.reg x).toNat; let b := (s.reg y).toNat; let f := bit (a > b); let g := bit (b > a)
    (x = 15 → y ≠ 15 → WritesFlagged (.subReg x y) s 15 (BitVec.ofNat 8 ((256 + f - b) % 256)) f ∧
      WritesFlagged (.subnReg x y) s 15 (BitVec.ofNat 8 ((256 + b - g) % 256)) g) ∧
    (y = 15 → x ≠ 15 → WritesFlagged (.subReg x y) s x (BitVec.ofNat 8 ((256 + a - f) % 256)) f ∧
      WritesFlagged (.subnReg x y) s x (BitVec.ofNat 8 ((256 + g - a) % 256)) g) ∧
    (x = 15 → y = 15 → WritesFlagged (.subReg x y) s 15 0 0 ∧ WritesFlagged (.subnReg x y) s 15 0 0) ∧
    (x ≠ 15 → y ≠ 15 → WritesFlagged (.subReg x y) s x (BitVec.ofNat 8 ((256 + a - b) % 256)) f ∧
      WritesFlagged (.subnReg x y) s x (BitVec.ofNat 8 ((256 + b - a) % 256)) g) ∧
    (s.params.shiftSource = .x →
      (x = 15 → WritesFlagged (.shr x y) s 15 0 (a % 2) ∧
        WritesFlagged (.shl x y) s 15 (BitVec.ofNat 8 (a / 128 * 2 % 256)) (a / 128)) ∧
      (x ≠ 15 → WritesFlagged (.shr x y) s x (BitVec.ofNat 8 (a / 2)) (a % 2) ∧
        WritesFlagged (.shl x y) s x (BitVec.ofNat 8 (a * 2 % 256)) (a / 128))) ∧
    WritesFlagged (.addReg x y) s x (BitVec.ofNat 8 ((a + b) % 256)) (bit (a + b > 255))

/-- The model's reading, which no rule states (log 7): under the sequential reading with the shifts' source `y`, the shifted
register is read again after the flag write, so the result changes only when Y = 15. -/
def Obligations.SequentialShiftsOfY : Prop :=
  ∀ (s : State) (x y : RegIdx), s.params.operandRead = .sequential → s.params.shiftSource = .y →
    let b := (s.reg y).toNat
    (y ≠ 15 → WritesFlagged (.shr x y) s x (BitVec.ofNat 8 (b / 2)) (b % 2) ∧
      WritesFlagged (.shl x y) s x (BitVec.ofNat 8 (b * 2 % 256)) (b / 128)) ∧
    (y = 15 → WritesFlagged (.shr x y) s x 0 (b % 2) ∧
      WritesFlagged (.shl x y) s x (BitVec.ofNat 8 (b / 128 * 2 % 256)) (b / 128))

/-- 42_alu R171: RND masks one drawn byte; `s.randomByte` is the byte given, or a value nothing constrains (log 4), so this
holds whatever it is. Exactly one byte is drawn, and with NN = 0 the result is 0. -/
def Obligations.RndMasksOneDrawnByte : Prop :=
  ∀ (s : State) (x : RegIdx) (nn : Byte), Decodes (hexXNN 0xC x nn) (.rnd x nn) ∧
    ∃ t, exec (.rnd x nn) s = .next t ∧ t.reg x = s.randomByte &&& nn ∧ (nn = 0 → t.reg x = 0) ∧
      (∀ r rest, s.random.queue = r :: rest → t.reg x = r &&& nn ∧ t.random.queue = rest) ∧
      t.random.drawn = s.random.drawn + 1 ∧ (∀ j, j ≠ x → t.reg j = s.reg j) ∧ t.pc = s.pc + 2 ∧ SameBytes s t ∧
      t = { s with regs := t.regs, pc := t.pc, random := t.random }

/-! Index register and memory. -/

/-- 43_index_memory R190 to R192: the three writers of `I`. -/
def Obligations.IndexInstructions : Prop :=
  ∀ (s : State) (x : RegIdx) (nnn : Addr12),
    (Decodes (hexNNN 0xA nnn) (.ldI nnn) ∧
      exec (.ldI nnn) s = .next { s with I := BitVec.ofNat 16 nnn.toNat, pc := s.pc + 2 }) ∧
    (Decodes (hex4 0xF x.val 1 0xE) (.addI x) ∧ ∃ t, exec (.addI x) s = .next t ∧
      t.I.toNat = (s.I.toNat + (s.reg x).toNat) % 65536 ∧
      (t.reg 15).toNat = bit (s.I.toNat + (s.reg x).toNat > 0xFFF) ∧ (∀ j, j ≠ 15 → t.reg j = s.reg j) ∧
      t.pc = s.pc + 2 ∧ SameBytes s t ∧ t = { s with I := t.I, regs := t.regs, pc := t.pc }) ∧
    (Decodes (hex4 0xF x.val 2 9) (.ldF x) ∧ ∃ t, exec (.ldF x) s = .next t ∧ t.I.toNat = 5 * (s.reg x).toNat ∧
      t.pc = s.pc + 2 ∧ SameBytes s t ∧ t = { s with I := t.I, pc := t.pc })

/-- 43_index_memory R193: LD B, in range and out of it. The bytes stored to are those at `I`, `I + 1` and `I + 2`. -/
def Obligations.LdBStoresDecimalDigits : Prop :=
  ∀ (s : State) (x : RegIdx), let a := (s.reg x).toNat; let base := s.I.toNat
    Decodes (hex4 0xF x.val 3 3) (.ldB x) ∧
    (base + 2 ≤ 4095 → ∃ t, exec (.ldB x) s = .next t ∧ (t.mem.read base).toNat = a / 100 ∧
      (t.mem.read (base + 1)).toNat = a / 10 % 10 ∧ (t.mem.read (base + 2)).toNat = a % 10 ∧
      (∀ b, (b < base ∨ base + 2 < b) → t.mem.read b = s.mem.read b) ∧ t = { s with mem := t.mem, pc := s.pc + 2 }) ∧
    (base + 2 > 4095 → exec (.ldB x) s = .next (errored s (.outOfRange .mem (max base 4096))))

/-- 43_index_memory R194: LD [I],Vx, in range and out of it. The bytes stored to are those at `I` to `I + X`. -/
def Obligations.StoreWritesRegistersToMemory : Prop :=
  ∀ (s : State) (x : RegIdx), let base := s.I.toNat
    Decodes (hex4 0xF x.val 5 5) (.store x) ∧
    (base + x.val ≤ 4095 → ∃ t, exec (.store x) s = .next t ∧
      (∀ k : RegIdx, k.val ≤ x.val → t.mem.read (base + k.val) = s.reg k) ∧
      (∀ b, (b < base ∨ base + x.val < b) → t.mem.read b = s.mem.read b) ∧ t = { s with mem := t.mem, pc := s.pc + 2 }) ∧
    (base + x.val > 4095 → exec (.store x) s = .next (errored s (.outOfRange .mem (max base 4096))))

/-- 43_index_memory R195: LD Vx,[I], in range and out of it. -/
def Obligations.LoadReadsRegistersFromMemory : Prop :=
  ∀ (s : State) (x : RegIdx), let base := s.I.toNat
    Decodes (hex4 0xF x.val 6 5) (.load x) ∧
    (base + x.val ≤ 4095 → ∃ t, exec (.load x) s = .next t ∧
      (∀ k : RegIdx, k.val ≤ x.val → t.reg k = s.mem.read (base + k.val)) ∧
      (∀ k : RegIdx, x.val < k.val → t.reg k = s.reg k) ∧ SameBytes s t ∧
      t = { s with regs := t.regs, pc := s.pc + 2 }) ∧
    (base + x.val > 4095 → exec (.load x) s = .next (errored s (.outOfRange .mem (max base 4096))))

/-- 43_index_memory R194, R195: what LD [I],Vx stored, LD Vx,[I] brings back, whatever the registers held in between. -/
def Obligations.LoadRestoresWhatStoreSaved : Prop :=
  ∀ (s : State) (x : RegIdx) (between : Vector Byte 16), s.I.toNat + x.val ≤ 4095 →
    ∃ t u, exec (.store x) s = .next t ∧ exec (.load x) { t with regs := between } = .next u ∧
      (∀ k : RegIdx, k.val ≤ x.val → u.reg k = s.reg k) ∧ u.mem = t.mem

/-- 20_memory R67: after LD [I],Vx or LD B, a fetch at any address, in every later state that still holds that memory, reads
the stored bytes where it covers them and the bytes from before elsewhere, the lower address as the high byte (R62, R63; that
a fetch over stored bytes mixes so, and that a store does not change its own word, the spec marks as derived). So a fetch at
`I + k` with `k < X` reads `x[k]` and `x[k+1]`, and one at `I` or `I + 1` after LD B reads two digits. -/
def Obligations.StoredBytesAreFetched : Prop :=
  ∀ (s t u : State) (x : RegIdx), u.mem = t.mem →
    (s.I.toNat + x.val ≤ 4095 → exec (.store x) s = .next t →
      let after := storedByte s s.I.toNat (s.regs.toList.take (x.val + 1))
      (u.pc.toNat ≤ 4094 →
        u.fetch = .ok (BitVec.ofNat 16 ((after u.pc.toNat).toNat * 256 + (after (u.pc.toNat + 1)).toNat))) ∧
      ∀ k : RegIdx, (h : k.val < x.val) → u.pc.toNat = s.I.toNat + k.val →
        u.fetch = .ok (BitVec.ofNat 16 ((s.reg k).toNat * 256 + (s.reg ⟨k.val + 1, by omega⟩).toNat))) ∧
    (s.I.toNat + 2 ≤ 4095 → exec (.ldB x) s = .next t →
      let a := (s.reg x).toNat
      let digits : List Byte := [BitVec.ofNat 8 (a / 100), BitVec.ofNat 8 (a / 10 % 10), BitVec.ofNat 8 (a % 10)]
      let after := storedByte s s.I.toNat digits
      (u.pc.toNat ≤ 4094 →
        u.fetch = .ok (BitVec.ofNat 16 ((after u.pc.toNat).toNat * 256 + (after (u.pc.toNat + 1)).toNat))) ∧
      (u.pc.toNat = s.I.toNat → u.fetch = .ok (BitVec.ofNat 16 (a / 100 * 256 + a / 10 % 10))) ∧
      (u.pc.toNat = s.I.toNat + 1 → u.fetch = .ok (BitVec.ofNat 16 (a / 10 % 10 * 256 + a % 10))))

/-! Keys and timers. -/

/-- 44_keys_timers R210 to R212: the key skips, in range and out of it. -/
def Obligations.KeySkips : Prop :=
  ∀ (s : State) (x : RegIdx), let k := (s.reg x).toNat
    Decodes (hex4 0xE x.val 9 0xE) (.skp x) ∧ Decodes (hex4 0xE x.val 0xA 1) (.sknp x) ∧
    (∀ h : k < 16, GoesTo (.skp x) s (skipTarget s (s.key[k] = true)) ∧ GoesTo (.sknp x) s (skipTarget s (s.key[k] = false))) ∧
    (15 < k → exec (.skp x) s = .next (errored s (.outOfRange .key k)) ∧
      exec (.sknp x) s = .next (errored s (.outOfRange .key k)))

/-- 44_keys_timers R213, R217, R218: the timer transfers, and in a step (which the spec marks as derived):
the value read is the one before the step's decay, and the value written may be decremented by the same step's gate. -/
def Obligations.TimerTransfers : Prop :=
  ∀ (s : State) (x : RegIdx),
    (Decodes (hex4 0xF x.val 0 7) (.ldVxDT x) ∧ Writes (.ldVxDT x) s x s.dt) ∧
    (Decodes (hex4 0xF x.val 1 5) (.ldDT x) ∧ exec (.ldDT x) s = .next { s with dt := s.reg x, pc := s.pc + 2 }) ∧
    (Decodes (hex4 0xF x.val 1 8) (.ldST x) ∧ exec (.ldST x) s = .next { s with st := s.reg x, pc := s.pc + 2 }) ∧
    (s.mode = .running → ∀ t, step s = .next t → let fires := s.now - s.lastUpdate ≥ s.params.timerPeriod
      (s.fetchInstr = .ok (.ldVxDT x) → t.reg x = s.dt) ∧
      (s.fetchInstr = .ok (.ldDT x) → t.dt.toNat = (s.reg x).toNat - if fires then 1 else 0) ∧
      (s.fetchInstr = .ok (.ldST x) → t.st.toNat = (s.reg x).toNat - if fires then 1 else 0))

/-- 44_keys_timers R216: LD Vx,K takes a pressed key, or waits with `pc` unchanged and the register unwritten. -/
def Obligations.LdVxKTakesAKeyOrWaits : Prop :=
  ∀ (s : State) (x : RegIdx), Decodes (hex4 0xF x.val 0 0xA) (.ldVxK x) ∧
    ((∀ k : KeyIdx, s.key[k] = false) → exec (.ldVxK x) s = .next { s with mode := .waitingForKey x }) ∧
    ((∃ k : KeyIdx, s.key[k] = true) → ∃ (k : KeyIdx) (t : State), s.key[k] = true ∧ s.selectedKey = some k ∧
      exec (.ldVxK x) s = .next t ∧
      (s.params.keySelect = .lowest → ∀ j : KeyIdx, s.key[j] = true → k ≤ j) ∧
      t.reg x = BitVec.ofNat 8 k.val ∧ (∀ j, j ≠ x → t.reg j = s.reg j) ∧ t.pc = s.pc + 2 ∧ SameBytes s t ∧
      t = { s with regs := t.regs, pc := t.pc, keyPick := s.keyPick.next })

/-- 44_keys_timers R214: the key selected is a pressed one; the lowest under the reference choice; any of the pressed keys can
be drawn under the safe one; and with one key pressed it is that key. -/
def Obligations.KeySelectPicksAPressedKey : Prop :=
  ∀ (s : State) (k : KeyIdx), s.key[k] = true →
    (∃ j, s.selectedKey = some j ∧ s.key[j] = true) ∧
    (s.params.keySelect = .lowest → (∀ j : KeyIdx, s.key[j] = true → k ≤ j) → s.selectedKey = some k) ∧
    (s.params.keySelect = .drawn → ∃ pick, { s with keyPick := ⟨[pick], 0⟩ }.selectedKey = some k) ∧
    ((∀ j : KeyIdx, s.key[j] = true → j = k) → s.selectedKey = some k)

/-! Whole-machine rules. -/

/-- Every step keeps the invariant, from every state that meets it: canonical memory, return addresses on the stack, `pc` at
most 0x10FE (10_state R25, which the spec marks as derived), a waiting step's word fetchable. The canonical form is the
model's (log 12). -/
def Obligations.StepKeepsInvariant : Prop :=
  ∀ s t : State, s.Inv → step s = .next t → t.Inv

/-- Every sequence of host transactions (60_exceptions R240, log 14) keeps the invariant. -/
def Obligations.EveryHostRunKeepsInvariant : Prop :=
  ∀ (s : State) (ops : List HostOp), s.Inv → (s.afterAll ops).Inv

/-- 30_encoding R101: while waiting, `pc` "still addresses the FX0A word": every step keeps it so. -/
def Obligations.WaitingKeepsItsWord : Prop :=
  ∀ s t : State, s.WaitsAtItsWord → step s = .next t → t.WaitsAtItsWord

/-- 10_state R24: the new `pc` of every instruction that raises no error, modulo 65536, and of one that raises an error. -/
def Obligations.NewPcOfEveryInstruction : Prop :=
  ∀ (i : Instr) (s t : State), s.report = none → exec i s = .next t →
    (t.report = none → t.pc.toNat = newPc i s % 65536) ∧ (t.report ≠ none → t.pc = s.pc)

/-- 10_state R23 (which the spec marks as derived): the registers an instruction changes are among those its table gives it. -/
def Obligations.OnlyTabledRegistersChange : Prop :=
  ∀ (i : Instr) (s t : State) (j : RegIdx), exec i s = .next t → t.reg j ≠ s.reg j → j ∈ writtenRegs i

/-- 10_state R32, R33: a step never clears dirty; only CLS and DRW change the framebuffer or dirty, and the framebuffer never
changes without dirty ending set. -/
def Obligations.OnlyClsAndDrwTouchTheDisplay : Prop :=
  ∀ s t : State, step s = .next t → (s.dirty = true → t.dirty = true) ∧ (t.fb ≠ s.fb → t.dirty = true) ∧
    (t.fb ≠ s.fb ∨ t.dirty ≠ s.dirty →
      s.mode = .running ∧ (s.fetchInstr = .ok .cls ∨ ∃ x y n, s.fetchInstr = .ok (.drw x y n)))

/-- 10_state R34: no step changes the input latch; only the key setters and reset do. -/
def Obligations.OnlyTheHostWritesTheLatch : Prop :=
  ∀ (s : State) (op : HostOp), (s.after op).key ≠ s.key →
    (∃ k, op = .setKeyDown k ∨ op = .setKeyUp k) ∨ ∃ now, op = .reset now

/-- 10_state R27: only LD I, ADD I and LD F change the index register. -/
def Obligations.OnlyIndexInstructionsWriteI : Prop :=
  ∀ s t : State, step s = .next t → t.I ≠ s.I →
    s.mode = .running ∧ ∃ i, s.fetchInstr = .ok i ∧ ((∃ nnn, i = .ldI nnn) ∨ ∃ x, i = .addI x ∨ i = .ldF x)

/-- 10_state R29: only CALL and RET reach the call stack; one step moves `sp` by at most one, and an entry below both stack
pointers never changes. -/
def Obligations.OnlyCallAndRetReachTheStack : Prop :=
  ∀ s t : State, step s = .next t →
    (t.sp ≠ s.sp ∨ t.stack ≠ s.stack → s.mode = .running ∧ (s.fetchInstr = .ok .ret ∨ ∃ nnn, s.fetchInstr = .ok (.call nnn))) ∧
    (t.sp.val ≤ s.sp.val + 1 ∧ s.sp.val ≤ t.sp.val + 1) ∧ ∀ k : Fin 16, k.val < s.sp.val → t.stack[k] = s.stack[k]

/-- 10_state R35: only LD Vx,K enters the wait, with its own register as the target; only a step that finds a key pressed
leaves it, for Running. -/
def Obligations.ModeTransitions : Prop :=
  ∀ s t : State, step s = .next t →
    (∀ x, s.mode = .running → t.mode = .waitingForKey x →
      s.fetchInstr = .ok (.ldVxK x) ∧ ∀ k : KeyIdx, s.key[k] = false) ∧
    (∀ x, s.mode = .waitingForKey x →
      if (∃ k : KeyIdx, s.key[k] = true) then t.mode = .running else t.mode = .waitingForKey x ∧ t.pc = s.pc ∧ t.regs = s.regs)

/-- 20_memory R60: of the instructions only LD B and LD [I],Vx write memory, and only at `I` to `I + 15`. -/
def Obligations.OnlyStoresWriteMemory : Prop :=
  ∀ s t : State, step s = .next t → ∀ a, t.mem.read a ≠ s.mem.read a →
    s.mode = .running ∧ (∃ x, s.fetchInstr = .ok (.ldB x) ∨ s.fetchInstr = .ok (.store x)) ∧
      s.I.toNat ≤ a ∧ a ≤ s.I.toNat + 15 ∧ a < 4096

/-- 10_state R30: "No instruction reads `st`": a step from a state that differs in the sound timer alone gives a state that
differs in the sound timer alone. -/
def Obligations.SoundTimerIsNeverRead : Prop :=
  ∀ (s t : State) (v : Byte), step s = .next t → ∃ v', step { s with st := v } = .next { t with st := v' }

/-- 10_state R29, D27: a popped stack entry stays, and no instruction can observe it: states that differ in such entries alone
step to states that differ in such entries alone. -/
def Obligations.PoppedEntriesAreNeverObserved : Prop :=
  ∀ s s' t : State, SameButDeadEntries s s' → step s = .next t → ∃ t', step s' = .next t' ∧ SameButDeadEntries t t'

/-- 60_exceptions R253 (which the spec marks as derived): every later step leaves a halted state
unchanged, except that the timer gate may decay `dt` and `st` (and record the time). -/
def Obligations.HaltedStateStays : Prop :=
  ∀ (s : State) (a : Addr12), s.haltedAt a → ∃ t, step s = .next t ∧ t.haltedAt a ∧ t.report = none ∧
    t = { s with dt := t.dt, st := t.st, lastUpdate := t.lastUpdate, clock := s.clock.next, report := t.report }
end

