-- ==== Sys2Proof/Laws/Decode.lean ====
section
/-!
SUPPORT. The laws of the opcode map: its rows do not overlap (30_encoding R94), so a word that selects a row decodes to that
row's instruction; what the four masks compare; and where the encoder puts each field.
-/
namespace Sys2Proof

/-- Two rows clash when no word can select both: some bit fixed by both is fixed to different values. -/
def rowsClash (r q : OpRow) : Bool := (r.mask &&& q.mask) &&& (r.pattern ^^^ q.pattern) != 0

/-- "No two rows overlap" (30_encoding R94). -/
theorem opRows_clash : opRows.Pairwise (fun r q => rowsClash r q = true) := by decide

theorem not_both_match {r q : OpRow} (h : rowsClash r q = true) {w : Word} (hr : rowMatches r w = true) :
    rowMatches q w = false := by
  by_contra hq
  simp only [rowMatches, beq_iff_eq, Bool.not_eq_false] at hr hq
  apply (bne_iff_ne.mp h)
  rw [← hr, ← hq]
  ext i
  simp only [BitVec.getElem_and, BitVec.getElem_xor]
  cases w[i] <;> cases r.mask[i] <;> cases q.mask[i] <;> simp

theorem find_row {rows : List OpRow} (hp : rows.Pairwise (fun r q => rowsClash r q = true)) {r : OpRow} {w : Word}
    (hr : r ∈ rows) (hm : rowMatches r w = true) : rows.find? (fun q => rowMatches q w) = some r := by
  induction rows with
  | nil => cases hr
  | cons q rest ih =>
    rw [List.pairwise_cons] at hp
    rcases List.mem_cons.mp hr with rfl | hr
    · simp [hm]
    · have : rowMatches q w = false := by
        by_contra hq
        have := not_both_match (hp.1 r hr) (Bool.not_eq_false _ ▸ hq)
        simp [hm] at this
      simp [this, ih hp.2 hr]

/-- A word that selects a row decodes to that row's instruction. -/
theorem decodeWord_of_matches {r : OpRow} {w : Word} (hr : r ∈ opRows) (hm : rowMatches r w = true) :
    decodeWord w = .ok (r.build w) := by
  simp [decodeWord, find_row opRows_clash hr hm]

/-- A word that decodes selects a row, which builds its instruction. -/
theorem row_of_decodeWord {w : Word} {i : Instr} (h : decodeWord w = .ok i) :
    ∃ r ∈ opRows, rowMatches r w = true ∧ i = r.build w := by
  unfold decodeWord at h
  split at h
  · rename_i r hf
    cases h
    exact ⟨r, List.mem_of_find?_eq_some hf, by simpa using List.find?_some hf, rfl⟩
  · cases h

/-- A word that selects no row is refused with that exact word (30_encoding R95). -/
theorem decodeWord_of_no_match {w : Word} (h : ∀ r ∈ opRows, rowMatches r w = false) :
    decodeWord w = .error (.unknownInstruction w) := by
  have : opRows.find? (fun r => rowMatches r w) = none := List.find?_eq_none.mpr fun r hr => by simp [h r hr]
  simp [decodeWord, this]

/-! What the masks of the map keep of a word. -/

theorem toNat_and_F000 (w : Word) : (w &&& 0xF000).toNat = w.toNat / 4096 * 4096 := by
  have : w &&& (0xF000 : Word) = (w >>> 12) <<< 12 := by
    ext i hi
    interval_cases i <;> simp
  rw [this, BitVec.toNat_shiftLeft, BitVec.toNat_ushiftRight, Nat.shiftRight_eq_div_pow, Nat.shiftLeft_eq]
  have := w.isLt
  omega

theorem toNat_and_F00F (w : Word) : (w &&& 0xF00F).toNat = w.toNat / 4096 * 4096 + w.toNat % 16 := by
  have h : w &&& 0xF00F = (w &&& 0xF000) + (w.setWidth 4).setWidth 16 := by
    rw [BitVec.add_eq_or_of_and_eq_zero]
    · ext i hi; interval_cases i <;> simp
    · ext i hi; interval_cases i <;> simp
  rw [h, BitVec.toNat_add, toNat_and_F000, BitVec.toNat_setWidth, BitVec.toNat_setWidth]
  have := w.isLt
  omega

theorem toNat_and_F0FF (w : Word) : (w &&& 0xF0FF).toNat = w.toNat / 4096 * 4096 + w.toNat % 256 := by
  have h : w &&& 0xF0FF = (w &&& 0xF000) + (w.setWidth 8).setWidth 16 := by
    rw [BitVec.add_eq_or_of_and_eq_zero]
    · ext i hi; interval_cases i <;> simp
    · ext i hi; interval_cases i <;> simp
  rw [h, BitVec.toNat_add, toNat_and_F000, BitVec.toNat_setWidth, BitVec.toNat_setWidth]
  have := w.isLt
  omega

/-! Where the encoder puts the fields. -/

theorem placeX_fieldX (w : Word) : placeX (fieldX w) = w &&& 0x0F00 := by
  have : w &&& (0x0F00 : Word) = ((w >>> 8).setWidth 4).setWidth 16 <<< 8 := by
    ext i hi
    interval_cases i <;> simp
  rw [this]
  apply BitVec.eq_of_toNat_eq
  simp [placeX, fieldX, Nat.shiftRight_eq_div_pow, Nat.shiftLeft_eq]

theorem placeY_fieldY (w : Word) : placeY (fieldY w) = w &&& 0x00F0 := by
  have : w &&& (0x00F0 : Word) = ((w >>> 4).setWidth 4).setWidth 16 <<< 4 := by
    ext i hi
    interval_cases i <;> simp
  rw [this]
  apply BitVec.eq_of_toNat_eq
  simp [placeY, fieldY, Nat.shiftRight_eq_div_pow, Nat.shiftLeft_eq]

theorem wordOfBytes_split (w : Word) : wordOfBytes (highByte w) (lowByte w) = w := by
  apply BitVec.eq_of_toNat_eq
  have := w.isLt
  simp only [wordOfBytes, highByte, lowByte, BitVec.toNat_ofNat]
  omega

/-! Each field of a word put together by the encoder. -/

theorem fieldX_or (a b : Word) : (fieldX (a ||| b)).val = (fieldX a).val ||| (fieldX b).val := by
  simp only [fieldX, BitVec.toNat_or, show 256 = 2 ^ 8 from rfl, show 16 = 2 ^ 4 from rfl,
    ← Nat.shiftRight_eq_div_pow, Nat.shiftRight_or_distrib, Nat.or_mod_two_pow]

theorem fieldY_or (a b : Word) : (fieldY (a ||| b)).val = (fieldY a).val ||| (fieldY b).val := by
  simp only [fieldY, BitVec.toNat_or, show 16 = 2 ^ 4 from rfl, ← Nat.shiftRight_eq_div_pow,
    Nat.shiftRight_or_distrib, Nat.or_mod_two_pow]

theorem fieldN_or (a b : Word) : fieldN (a ||| b) = fieldN a ||| fieldN b := BitVec.setWidth_or

theorem fieldNN_or (a b : Word) : fieldNN (a ||| b) = fieldNN a ||| fieldNN b := BitVec.setWidth_or

theorem fieldNNN_or (a b : Word) : fieldNNN (a ||| b) = fieldNNN a ||| fieldNNN b := BitVec.setWidth_or

theorem fields_placeX (x : RegIdx) :
    fieldX (placeX x) = x ∧ fieldY (placeX x) = 0 ∧ fieldN (placeX x) = 0 ∧ fieldNN (placeX x) = 0 ∧
      placeX x &&& 0xF000 = 0 ∧ placeX x &&& 0xF00F = 0 ∧ placeX x &&& 0xF0FF = 0 := by
  revert x; decide

theorem fields_placeY (y : RegIdx) :
    fieldX (placeY y) = 0 ∧ fieldY (placeY y) = y ∧ fieldN (placeY y) = 0 ∧
      placeY y &&& 0xF000 = 0 ∧ placeY y &&& 0xF00F = 0 := by
  revert y; decide

theorem fields_nibble (n : Nibble) :
    fieldX (n.setWidth 16) = 0 ∧ fieldY (n.setWidth 16) = 0 ∧ fieldN (n.setWidth 16) = n ∧
      n.setWidth 16 &&& (0xF000 : Word) = 0 := by
  revert n; decide

theorem fields_byte (v : Byte) :
    fieldX (v.setWidth 16) = 0 ∧ fieldNN (v.setWidth 16) = v ∧ v.setWidth 16 &&& (0xF000 : Word) = 0 := by
  have hv := v.isLt
  refine ⟨?_, ?_, ?_⟩
  · apply Fin.ext
    simp only [fieldX, BitVec.toNat_setWidth, Nat.reducePow, Fin.val_zero]
    omega
  · simp [fieldNN]
  · ext i hi; interval_cases i <;> simp

theorem fields_addr (v : Addr12) :
    fieldNNN (v.setWidth 16) = v ∧ v.setWidth 16 &&& (0xF000 : Word) = 0 := by
  refine ⟨?_, ?_⟩
  · simp [fieldNNN]
  · ext i hi; interval_cases i <;> simp

end Sys2Proof
end

