-- ==== Sys2Proof/Laws/State.lean ====
section
/-!
SUPPORT. One lemma per field per update of the state, so that no proof unfolds a record update.
-/
namespace Sys2Proof.Machine

/-! Writing a general register. -/

@[simp] theorem State.setReg_mem (s : State) (i : RegIdx) (v : Byte) : (s.setReg i v).mem = s.mem := rfl
@[simp] theorem State.setReg_regs (s : State) (i : RegIdx) (v : Byte) : (s.setReg i v).regs = s.regs.set i v := rfl
@[simp] theorem State.setReg_I (s : State) (i : RegIdx) (v : Byte) : (s.setReg i v).I = s.I := rfl
@[simp] theorem State.setReg_pc (s : State) (i : RegIdx) (v : Byte) : (s.setReg i v).pc = s.pc := rfl
@[simp] theorem State.setReg_stack (s : State) (i : RegIdx) (v : Byte) : (s.setReg i v).stack = s.stack := rfl
@[simp] theorem State.setReg_sp (s : State) (i : RegIdx) (v : Byte) : (s.setReg i v).sp = s.sp := rfl
@[simp] theorem State.setReg_fb (s : State) (i : RegIdx) (v : Byte) : (s.setReg i v).fb = s.fb := rfl
@[simp] theorem State.setReg_dirty (s : State) (i : RegIdx) (v : Byte) : (s.setReg i v).dirty = s.dirty := rfl
@[simp] theorem State.setReg_key (s : State) (i : RegIdx) (v : Byte) : (s.setReg i v).key = s.key := rfl
@[simp] theorem State.setReg_dt (s : State) (i : RegIdx) (v : Byte) : (s.setReg i v).dt = s.dt := rfl
@[simp] theorem State.setReg_st (s : State) (i : RegIdx) (v : Byte) : (s.setReg i v).st = s.st := rfl
@[simp] theorem State.setReg_mode (s : State) (i : RegIdx) (v : Byte) : (s.setReg i v).mode = s.mode := rfl
@[simp] theorem State.setReg_lastUpdate (s : State) (i : RegIdx) (v : Byte) : (s.setReg i v).lastUpdate = s.lastUpdate := rfl
@[simp] theorem State.setReg_fault (s : State) (i : RegIdx) (v : Byte) : (s.setReg i v).fault = s.fault := rfl
@[simp] theorem State.setReg_report (s : State) (i : RegIdx) (v : Byte) : (s.setReg i v).report = s.report := rfl
@[simp] theorem State.setReg_clock (s : State) (i : RegIdx) (v : Byte) : (s.setReg i v).clock = s.clock := rfl
@[simp] theorem State.setReg_random (s : State) (i : RegIdx) (v : Byte) : (s.setReg i v).random = s.random := rfl
@[simp] theorem State.setReg_keyPick (s : State) (i : RegIdx) (v : Byte) : (s.setReg i v).keyPick = s.keyPick := rfl
@[simp] theorem State.setReg_params (s : State) (i : RegIdx) (v : Byte) : (s.setReg i v).params = s.params := rfl

/-! Writing the flag register. -/

@[simp] theorem State.setFlag_mem (s : State) (c : Bool) : (s.setFlag c).mem = s.mem := rfl
@[simp] theorem State.setFlag_regs (s : State) (c : Bool) : (s.setFlag c).regs = s.regs.set flagReg (flagByte c) := rfl
@[simp] theorem State.setFlag_I (s : State) (c : Bool) : (s.setFlag c).I = s.I := rfl
@[simp] theorem State.setFlag_pc (s : State) (c : Bool) : (s.setFlag c).pc = s.pc := rfl
@[simp] theorem State.setFlag_stack (s : State) (c : Bool) : (s.setFlag c).stack = s.stack := rfl
@[simp] theorem State.setFlag_sp (s : State) (c : Bool) : (s.setFlag c).sp = s.sp := rfl
@[simp] theorem State.setFlag_fb (s : State) (c : Bool) : (s.setFlag c).fb = s.fb := rfl
@[simp] theorem State.setFlag_dirty (s : State) (c : Bool) : (s.setFlag c).dirty = s.dirty := rfl
@[simp] theorem State.setFlag_key (s : State) (c : Bool) : (s.setFlag c).key = s.key := rfl
@[simp] theorem State.setFlag_dt (s : State) (c : Bool) : (s.setFlag c).dt = s.dt := rfl
@[simp] theorem State.setFlag_st (s : State) (c : Bool) : (s.setFlag c).st = s.st := rfl
@[simp] theorem State.setFlag_mode (s : State) (c : Bool) : (s.setFlag c).mode = s.mode := rfl
@[simp] theorem State.setFlag_lastUpdate (s : State) (c : Bool) : (s.setFlag c).lastUpdate = s.lastUpdate := rfl
@[simp] theorem State.setFlag_fault (s : State) (c : Bool) : (s.setFlag c).fault = s.fault := rfl
@[simp] theorem State.setFlag_report (s : State) (c : Bool) : (s.setFlag c).report = s.report := rfl
@[simp] theorem State.setFlag_clock (s : State) (c : Bool) : (s.setFlag c).clock = s.clock := rfl
@[simp] theorem State.setFlag_random (s : State) (c : Bool) : (s.setFlag c).random = s.random := rfl
@[simp] theorem State.setFlag_keyPick (s : State) (c : Bool) : (s.setFlag c).keyPick = s.keyPick := rfl
@[simp] theorem State.setFlag_params (s : State) (c : Bool) : (s.setFlag c).params = s.params := rfl

/-! The engine's advance. -/

@[simp] theorem State.advance_mem (s : State) : (s.advance).mem = s.mem := rfl
@[simp] theorem State.advance_regs (s : State) : (s.advance).regs = s.regs := rfl
@[simp] theorem State.advance_I (s : State) : (s.advance).I = s.I := rfl
@[simp] theorem State.advance_pc (s : State) : (s.advance).pc = s.pc + 2 := rfl
@[simp] theorem State.advance_stack (s : State) : (s.advance).stack = s.stack := rfl
@[simp] theorem State.advance_sp (s : State) : (s.advance).sp = s.sp := rfl
@[simp] theorem State.advance_fb (s : State) : (s.advance).fb = s.fb := rfl
@[simp] theorem State.advance_dirty (s : State) : (s.advance).dirty = s.dirty := rfl
@[simp] theorem State.advance_key (s : State) : (s.advance).key = s.key := rfl
@[simp] theorem State.advance_dt (s : State) : (s.advance).dt = s.dt := rfl
@[simp] theorem State.advance_st (s : State) : (s.advance).st = s.st := rfl
@[simp] theorem State.advance_mode (s : State) : (s.advance).mode = s.mode := rfl
@[simp] theorem State.advance_lastUpdate (s : State) : (s.advance).lastUpdate = s.lastUpdate := rfl
@[simp] theorem State.advance_fault (s : State) : (s.advance).fault = s.fault := rfl
@[simp] theorem State.advance_report (s : State) : (s.advance).report = s.report := rfl
@[simp] theorem State.advance_clock (s : State) : (s.advance).clock = s.clock := rfl
@[simp] theorem State.advance_random (s : State) : (s.advance).random = s.random := rfl
@[simp] theorem State.advance_keyPick (s : State) : (s.advance).keyPick = s.keyPick := rfl
@[simp] theorem State.advance_params (s : State) : (s.advance).params = s.params := rfl

/-! A jump. -/

@[simp] theorem State.jump_mem (s : State) (a : Word) : (s.jump a).mem = s.mem := rfl
@[simp] theorem State.jump_regs (s : State) (a : Word) : (s.jump a).regs = s.regs := rfl
@[simp] theorem State.jump_I (s : State) (a : Word) : (s.jump a).I = s.I := rfl
@[simp] theorem State.jump_pc (s : State) (a : Word) : (s.jump a).pc = a := rfl
@[simp] theorem State.jump_stack (s : State) (a : Word) : (s.jump a).stack = s.stack := rfl
@[simp] theorem State.jump_sp (s : State) (a : Word) : (s.jump a).sp = s.sp := rfl
@[simp] theorem State.jump_fb (s : State) (a : Word) : (s.jump a).fb = s.fb := rfl
@[simp] theorem State.jump_dirty (s : State) (a : Word) : (s.jump a).dirty = s.dirty := rfl
@[simp] theorem State.jump_key (s : State) (a : Word) : (s.jump a).key = s.key := rfl
@[simp] theorem State.jump_dt (s : State) (a : Word) : (s.jump a).dt = s.dt := rfl
@[simp] theorem State.jump_st (s : State) (a : Word) : (s.jump a).st = s.st := rfl
@[simp] theorem State.jump_mode (s : State) (a : Word) : (s.jump a).mode = s.mode := rfl
@[simp] theorem State.jump_lastUpdate (s : State) (a : Word) : (s.jump a).lastUpdate = s.lastUpdate := rfl
@[simp] theorem State.jump_fault (s : State) (a : Word) : (s.jump a).fault = s.fault := rfl
@[simp] theorem State.jump_report (s : State) (a : Word) : (s.jump a).report = s.report := rfl
@[simp] theorem State.jump_clock (s : State) (a : Word) : (s.jump a).clock = s.clock := rfl
@[simp] theorem State.jump_random (s : State) (a : Word) : (s.jump a).random = s.random := rfl
@[simp] theorem State.jump_keyPick (s : State) (a : Word) : (s.jump a).keyPick = s.keyPick := rfl
@[simp] theorem State.jump_params (s : State) (a : Word) : (s.jump a).params = s.params := rfl

/-! A skip. -/

@[simp] theorem State.skipIf_mem (s : State) (c : Bool) : (s.skipIf c).mem = s.mem := rfl
@[simp] theorem State.skipIf_regs (s : State) (c : Bool) : (s.skipIf c).regs = s.regs := rfl
@[simp] theorem State.skipIf_I (s : State) (c : Bool) : (s.skipIf c).I = s.I := rfl
@[simp] theorem State.skipIf_pc (s : State) (c : Bool) : (s.skipIf c).pc = if c then s.pc + 4 else s.pc + 2 := rfl
@[simp] theorem State.skipIf_stack (s : State) (c : Bool) : (s.skipIf c).stack = s.stack := rfl
@[simp] theorem State.skipIf_sp (s : State) (c : Bool) : (s.skipIf c).sp = s.sp := rfl
@[simp] theorem State.skipIf_fb (s : State) (c : Bool) : (s.skipIf c).fb = s.fb := rfl
@[simp] theorem State.skipIf_dirty (s : State) (c : Bool) : (s.skipIf c).dirty = s.dirty := rfl
@[simp] theorem State.skipIf_key (s : State) (c : Bool) : (s.skipIf c).key = s.key := rfl
@[simp] theorem State.skipIf_dt (s : State) (c : Bool) : (s.skipIf c).dt = s.dt := rfl
@[simp] theorem State.skipIf_st (s : State) (c : Bool) : (s.skipIf c).st = s.st := rfl
@[simp] theorem State.skipIf_mode (s : State) (c : Bool) : (s.skipIf c).mode = s.mode := rfl
@[simp] theorem State.skipIf_lastUpdate (s : State) (c : Bool) : (s.skipIf c).lastUpdate = s.lastUpdate := rfl
@[simp] theorem State.skipIf_fault (s : State) (c : Bool) : (s.skipIf c).fault = s.fault := rfl
@[simp] theorem State.skipIf_report (s : State) (c : Bool) : (s.skipIf c).report = s.report := rfl
@[simp] theorem State.skipIf_clock (s : State) (c : Bool) : (s.skipIf c).clock = s.clock := rfl
@[simp] theorem State.skipIf_random (s : State) (c : Bool) : (s.skipIf c).random = s.random := rfl
@[simp] theorem State.skipIf_keyPick (s : State) (c : Bool) : (s.skipIf c).keyPick = s.keyPick := rfl
@[simp] theorem State.skipIf_params (s : State) (c : Bool) : (s.skipIf c).params = s.params := rfl

/-! The start of a step. -/

@[simp] theorem State.beginStep_mem (s : State) : (s.beginStep).mem = s.mem := rfl
@[simp] theorem State.beginStep_regs (s : State) : (s.beginStep).regs = s.regs := rfl
@[simp] theorem State.beginStep_I (s : State) : (s.beginStep).I = s.I := rfl
@[simp] theorem State.beginStep_pc (s : State) : (s.beginStep).pc = s.pc := rfl
@[simp] theorem State.beginStep_stack (s : State) : (s.beginStep).stack = s.stack := rfl
@[simp] theorem State.beginStep_sp (s : State) : (s.beginStep).sp = s.sp := rfl
@[simp] theorem State.beginStep_fb (s : State) : (s.beginStep).fb = s.fb := rfl
@[simp] theorem State.beginStep_dirty (s : State) : (s.beginStep).dirty = s.dirty := rfl
@[simp] theorem State.beginStep_key (s : State) : (s.beginStep).key = s.key := rfl
@[simp] theorem State.beginStep_dt (s : State) : (s.beginStep).dt = s.dt := rfl
@[simp] theorem State.beginStep_st (s : State) : (s.beginStep).st = s.st := rfl
@[simp] theorem State.beginStep_mode (s : State) : (s.beginStep).mode = s.mode := rfl
@[simp] theorem State.beginStep_lastUpdate (s : State) : (s.beginStep).lastUpdate = s.lastUpdate := rfl
@[simp] theorem State.beginStep_fault (s : State) : (s.beginStep).fault = s.fault := rfl
@[simp] theorem State.beginStep_report (s : State) : (s.beginStep).report = none := rfl
@[simp] theorem State.beginStep_clock (s : State) : (s.beginStep).clock = s.clock := rfl
@[simp] theorem State.beginStep_random (s : State) : (s.beginStep).random = s.random := rfl
@[simp] theorem State.beginStep_keyPick (s : State) : (s.beginStep).keyPick = s.keyPick := rfl
@[simp] theorem State.beginStep_params (s : State) : (s.beginStep).params = s.params := rfl

/-! Reporting an error. -/

@[simp] theorem State.raise_mem (s : State) (e : Error) : (s.raise e).mem = s.mem := rfl
@[simp] theorem State.raise_regs (s : State) (e : Error) : (s.raise e).regs = s.regs := rfl
@[simp] theorem State.raise_I (s : State) (e : Error) : (s.raise e).I = s.I := rfl
@[simp] theorem State.raise_pc (s : State) (e : Error) : (s.raise e).pc = s.pc := rfl
@[simp] theorem State.raise_stack (s : State) (e : Error) : (s.raise e).stack = s.stack := rfl
@[simp] theorem State.raise_sp (s : State) (e : Error) : (s.raise e).sp = s.sp := rfl
@[simp] theorem State.raise_fb (s : State) (e : Error) : (s.raise e).fb = s.fb := rfl
@[simp] theorem State.raise_dirty (s : State) (e : Error) : (s.raise e).dirty = s.dirty := rfl
@[simp] theorem State.raise_key (s : State) (e : Error) : (s.raise e).key = s.key := rfl
@[simp] theorem State.raise_dt (s : State) (e : Error) : (s.raise e).dt = s.dt := rfl
@[simp] theorem State.raise_st (s : State) (e : Error) : (s.raise e).st = s.st := rfl
@[simp] theorem State.raise_mode (s : State) (e : Error) : (s.raise e).mode = s.mode := rfl
@[simp] theorem State.raise_lastUpdate (s : State) (e : Error) : (s.raise e).lastUpdate = s.lastUpdate := rfl
@[simp] theorem State.raise_fault (s : State) (e : Error) : (s.raise e).fault = (match s.fault with | none => some ⟨e, s.pc⟩ | some first => some first) := rfl
@[simp] theorem State.raise_report (s : State) (e : Error) : (s.raise e).report = some ⟨e, s.pc⟩ := rfl
@[simp] theorem State.raise_clock (s : State) (e : Error) : (s.raise e).clock = s.clock := rfl
@[simp] theorem State.raise_random (s : State) (e : Error) : (s.raise e).random = s.random := rfl
@[simp] theorem State.raise_keyPick (s : State) (e : Error) : (s.raise e).keyPick = s.keyPick := rfl
@[simp] theorem State.raise_params (s : State) (e : Error) : (s.raise e).params = s.params := rfl

/-! The timer gate. -/

@[simp] theorem State.timerGate_mem (s : State) (now : Int) : (s.timerGate now).mem = s.mem := rfl
@[simp] theorem State.timerGate_regs (s : State) (now : Int) : (s.timerGate now).regs = s.regs := rfl
@[simp] theorem State.timerGate_I (s : State) (now : Int) : (s.timerGate now).I = s.I := rfl
@[simp] theorem State.timerGate_pc (s : State) (now : Int) : (s.timerGate now).pc = s.pc := rfl
@[simp] theorem State.timerGate_stack (s : State) (now : Int) : (s.timerGate now).stack = s.stack := rfl
@[simp] theorem State.timerGate_sp (s : State) (now : Int) : (s.timerGate now).sp = s.sp := rfl
@[simp] theorem State.timerGate_fb (s : State) (now : Int) : (s.timerGate now).fb = s.fb := rfl
@[simp] theorem State.timerGate_dirty (s : State) (now : Int) : (s.timerGate now).dirty = s.dirty := rfl
@[simp] theorem State.timerGate_key (s : State) (now : Int) : (s.timerGate now).key = s.key := rfl
@[simp] theorem State.timerGate_dt (s : State) (now : Int) : (s.timerGate now).dt = if s.gateFires now then decay s.dt else s.dt := rfl
@[simp] theorem State.timerGate_st (s : State) (now : Int) : (s.timerGate now).st = if s.gateFires now then decay s.st else s.st := rfl
@[simp] theorem State.timerGate_mode (s : State) (now : Int) : (s.timerGate now).mode = s.mode := rfl
@[simp] theorem State.timerGate_lastUpdate (s : State) (now : Int) : (s.timerGate now).lastUpdate = if s.gateFires now then now else s.lastUpdate := rfl
@[simp] theorem State.timerGate_fault (s : State) (now : Int) : (s.timerGate now).fault = s.fault := rfl
@[simp] theorem State.timerGate_report (s : State) (now : Int) : (s.timerGate now).report = s.report := rfl
@[simp] theorem State.timerGate_clock (s : State) (now : Int) : (s.timerGate now).clock = s.clock := rfl
@[simp] theorem State.timerGate_random (s : State) (now : Int) : (s.timerGate now).random = s.random := rfl
@[simp] theorem State.timerGate_keyPick (s : State) (now : Int) : (s.timerGate now).keyPick = s.keyPick := rfl
@[simp] theorem State.timerGate_params (s : State) (now : Int) : (s.timerGate now).params = s.params := rfl

/-! Clearing the dirty flag. -/

@[simp] theorem State.clearDrawPending_mem (s : State) : (s.clearDrawPending).mem = s.mem := rfl
@[simp] theorem State.clearDrawPending_regs (s : State) : (s.clearDrawPending).regs = s.regs := rfl
@[simp] theorem State.clearDrawPending_I (s : State) : (s.clearDrawPending).I = s.I := rfl
@[simp] theorem State.clearDrawPending_pc (s : State) : (s.clearDrawPending).pc = s.pc := rfl
@[simp] theorem State.clearDrawPending_stack (s : State) : (s.clearDrawPending).stack = s.stack := rfl
@[simp] theorem State.clearDrawPending_sp (s : State) : (s.clearDrawPending).sp = s.sp := rfl
@[simp] theorem State.clearDrawPending_fb (s : State) : (s.clearDrawPending).fb = s.fb := rfl
@[simp] theorem State.clearDrawPending_dirty (s : State) : (s.clearDrawPending).dirty = false := rfl
@[simp] theorem State.clearDrawPending_key (s : State) : (s.clearDrawPending).key = s.key := rfl
@[simp] theorem State.clearDrawPending_dt (s : State) : (s.clearDrawPending).dt = s.dt := rfl
@[simp] theorem State.clearDrawPending_st (s : State) : (s.clearDrawPending).st = s.st := rfl
@[simp] theorem State.clearDrawPending_mode (s : State) : (s.clearDrawPending).mode = s.mode := rfl
@[simp] theorem State.clearDrawPending_lastUpdate (s : State) : (s.clearDrawPending).lastUpdate = s.lastUpdate := rfl
@[simp] theorem State.clearDrawPending_fault (s : State) : (s.clearDrawPending).fault = s.fault := rfl
@[simp] theorem State.clearDrawPending_report (s : State) : (s.clearDrawPending).report = s.report := rfl
@[simp] theorem State.clearDrawPending_clock (s : State) : (s.clearDrawPending).clock = s.clock := rfl
@[simp] theorem State.clearDrawPending_random (s : State) : (s.clearDrawPending).random = s.random := rfl
@[simp] theorem State.clearDrawPending_keyPick (s : State) : (s.clearDrawPending).keyPick = s.keyPick := rfl
@[simp] theorem State.clearDrawPending_params (s : State) : (s.clearDrawPending).params = s.params := rfl

end Sys2Proof.Machine
end

