-- ==== Sys2Proof/Laws/Registers.lean ====
section
/-!
SUPPORT. The laws of the general registers: what a read gives after each update, and what the register lists of LD [I],Vx and
LD Vx,[I] hold.
-/
namespace Sys2Proof.Machine

/-- Reading a register depends on the register file alone. -/
theorem State.reg_of_regs {s t : State} (h : s.regs = t.regs) (i : RegIdx) : s.reg i = t.reg i := by
  unfold State.reg; rw [h]

@[simp] theorem State.reg_setReg_same (s : State) (i : RegIdx) (v : Byte) : (s.setReg i v).reg i = v := by
  simp [State.reg]

theorem State.reg_setReg_other (s : State) {i j : RegIdx} (v : Byte) (h : j ≠ i) : (s.setReg i v).reg j = s.reg j := by
  have : i.val ≠ j.val := fun e => h (Fin.ext e.symm)
  simp [State.reg, this]

theorem State.reg_setReg (s : State) (i j : RegIdx) (v : Byte) :
    (s.setReg i v).reg j = if j = i then v else s.reg j := by
  split
  · subst_vars; simp
  · exact State.reg_setReg_other s v ‹_›

theorem State.reg_setFlag (s : State) (j : RegIdx) (c : Bool) :
    (s.setFlag c).reg j = if j = flagReg then flagByte c else s.reg j := State.reg_setReg s flagReg j _

@[simp] theorem State.reg_advance (s : State) (j : RegIdx) : s.advance.reg j = s.reg j := rfl
@[simp] theorem State.reg_jump (s : State) (a : Word) (j : RegIdx) : (s.jump a).reg j = s.reg j := rfl
@[simp] theorem State.reg_skipIf (s : State) (c : Bool) (j : RegIdx) : (s.skipIf c).reg j = s.reg j := rfl
@[simp] theorem State.reg_raise (s : State) (e : Error) (j : RegIdx) : (s.raise e).reg j = s.reg j := rfl
@[simp] theorem State.reg_beginStep (s : State) (j : RegIdx) : s.beginStep.reg j = s.reg j := rfl
@[simp] theorem State.reg_timerGate (s : State) (now : Int) (j : RegIdx) : (s.timerGate now).reg j = s.reg j := rfl

@[simp] theorem flagByte_toNat (c : Bool) : (flagByte c).toNat = if c then 1 else 0 := by cases c <;> rfl

/-- Everything the flag-writing ALU instructions do to a register under the latched reading (42_alu R175). -/
theorem State.reg_flagThenResult_latched (s : State) (x : RegIdx) (flag : Bool) (result : State → Byte)
    (h : s.params.operandRead = .latched) (j : RegIdx) :
    (s.flagThenResult x flag result).reg j =
      if j = x then result s else if j = flagReg then flagByte flag else s.reg j := by
  simp [State.flagThenResult, operandState, h, State.reg_setReg, State.reg_setFlag]

/-- Everything they do under the sequential reading (42_alu R176). -/
theorem State.reg_flagThenResult_sequential (s : State) (x : RegIdx) (flag : Bool) (result : State → Byte)
    (h : s.params.operandRead = .sequential) (j : RegIdx) :
    (s.flagThenResult x flag result).reg j =
      if j = x then result (s.setFlag flag) else if j = flagReg then flagByte flag else s.reg j := by
  simp [State.flagThenResult, operandState, h, State.reg_setReg, State.reg_setFlag]

/-- What a list of bytes written from register `k` upward leaves in each register (43_index_memory R195). -/
theorem getElem_setRegsFrom (k : Nat) (regs : Vector Byte 16) (bs : List Byte) (j : Nat) (hj : j < 16) :
    (setRegsFrom k regs bs)[j] = if k ≤ j then bs.getD (j - k) regs[j] else regs[j] := by
  induction bs generalizing k regs with
  | nil => simp [setRegsFrom]
  | cons b bs ih =>
    rw [setRegsFrom, ih]
    rcases Nat.lt_trichotomy j k with h | rfl | h
    · simp [show ¬ k + 1 ≤ j by omega, show ¬ k ≤ j by omega, show ¬ k = j by omega]
    · simp
    · obtain ⟨d, rfl⟩ : ∃ d, j = k + 1 + d := ⟨j - k - 1, by omega⟩
      simp [show k ≤ k + 1 + d by omega, show k ≠ k + 1 + d by omega, show k + 1 + d - k = d + 1 by omega]

@[simp] theorem registersUpTo_length (s : State) (x : RegIdx) : (registersUpTo s x).length = x.val + 1 := by
  simp [registersUpTo]

/-- The byte LD [I],Vx stores at offset `k` is `x[k]` (43_index_memory R194). -/
theorem registersUpTo_getElem (s : State) (x : RegIdx) (k : RegIdx) (h : k.val ≤ x.val) :
    (registersUpTo s x)[k.val]'(by simp; omega) = s.reg k := by
  simp [registersUpTo, State.reg]

end Sys2Proof.Machine
end

