-- ==== Sys2Proof/Laws/Display.lean ====
section
/-!
SUPPORT. The laws of the pixel engine (40_display R120) and of one sprite bit of DRW.
-/
namespace Sys2Proof.Machine

theorem pixelGet_pixelSet (fb : Framebuffer) (r r' : Fin 32) (c c' : Fin 64) (v : Bool) :
    pixelGet (pixelSet fb r c v) r' c' = if r' = r ∧ c' = c then v else pixelGet fb r' c' := by
  unfold pixelGet pixelSet
  by_cases hr : r' = r
  · subst hr
    by_cases hc : c' = c
    · subst hc; simp
    · have : c.val ≠ c'.val := fun e => hc (Fin.ext e.symm)
      simp [this, hc]
  · have : r.val ≠ r'.val := fun e => hr (Fin.ext e.symm)
    simp [this, hr]

/-- Two framebuffers with the same pixels are equal. -/
theorem Framebuffer.ext_pixels {f g : Framebuffer} (h : ∀ r c, pixelGet f r c = pixelGet g r c) : f = g := by
  apply Vector.ext
  intro r hr
  apply Vector.ext
  intro c hc
  exact h ⟨r, hr⟩ ⟨c, hc⟩

/-- Every pixel's coordinates, row by row. -/
def allPixels : List (Fin 32 × Fin 64) :=
  (List.finRange 32).flatMap fun r => (List.finRange 64).map fun c => (r, c)

theorem mem_allPixels (p : Fin 32 × Fin 64) : p ∈ allPixels := by
  simp only [allPixels, List.mem_flatMap, List.mem_map, List.mem_finRange, true_and]
  exact ⟨p.1, p.2, rfl⟩

theorem pixelGet_foldl_clear (ps : List (Fin 32 × Fin 64)) (fb : Framebuffer) (r : Fin 32) (c : Fin 64) :
    pixelGet (ps.foldl (fun f p => pixelClear f p.1 p.2) fb) r c = if (r, c) ∈ ps then false else pixelGet fb r c := by
  induction ps generalizing fb with
  | nil => rfl
  | cons p ps ih =>
    rw [List.foldl_cons, ih, pixelClear, pixelGet_pixelSet]
    by_cases hps : (r, c) ∈ ps
    · simp [hps]
    · by_cases hp : r = p.1 ∧ c = p.2 <;> simp [hps, hp, Prod.ext_iff]

/-- Clearing every pixel, one by one, leaves the blank framebuffer, which is what CLS writes (40_display R121). -/
theorem clear_every_pixel (fb : Framebuffer) :
    allPixels.foldl (fun f p => pixelClear f p.1 p.2) fb = blankFramebuffer := by
  apply Framebuffer.ext_pixels
  intro r c
  rw [pixelGet_foldl_clear, if_pos (mem_allPixels _)]
  simp [pixelGet, blankFramebuffer]

/-- Everything DRW does for one 1 bit of the sprite: the wrapped pixel is flipped, and the flag register gets 1 exactly if
the pixel was set (40_display R125); nothing else changes. -/
theorem drawBit_eq (before : State) (x y : RegIdx) (s : State) (rc : Nat × Nat) :
    drawBit before x y s rc =
      let r := wrapRow ((operandState before s).reg y) rc.1
      let c := wrapColumn ((operandState before s).reg x) rc.2
      { s with
        fb := pixelSet s.fb r c (!pixelGet s.fb r c)
        regs := if pixelGet s.fb r c then s.regs.set flagReg 1 else s.regs } := by
  cases h : pixelGet s.fb (wrapRow ((operandState before s).reg y) rc.1) (wrapColumn ((operandState before s).reg x) rc.2) <;>
    simp only [drawBit, pixelFlip, h] <;> rfl

/-- The registers after one 1 bit: the flag register holds 1 if the pixel was set, and no other register changes. -/
theorem reg_drawBit (before : State) (x y : RegIdx) (s : State) (rc : Nat × Nat) (j : RegIdx) :
    (drawBit before x y s rc).reg j =
      if j = flagReg ∧ pixelGet s.fb (wrapRow ((operandState before s).reg y) rc.1)
        (wrapColumn ((operandState before s).reg x) rc.2) = true then 1 else s.reg j := by
  rw [drawBit_eq]
  dsimp only
  generalize pixelGet s.fb _ _ = v
  cases v
  · simp [State.reg]
  · simp only [and_true]; exact State.reg_setReg s flagReg j 1

/-- The 1 bits of a sprite: the pairs (row, column) whose bit `7 - column` is 1 (40_display R124). -/
theorem mem_litBits (bs : List Byte) (r0 r c : Nat) :
    (r, c) ∈ litBits r0 bs ↔ r0 ≤ r ∧ c < 8 ∧ ∃ h : r - r0 < bs.length, bs[r - r0].getLsbD (7 - c) = true := by
  induction bs generalizing r0 with
  | nil => simp [litBits]
  | cons b bs ih =>
    simp only [litBits, List.mem_append, List.mem_map, litColumns, List.mem_filter, List.mem_range, ih, Prod.mk.injEq]
    constructor
    · rintro (⟨c', ⟨hc, hb⟩, rfl, rfl⟩ | ⟨hr, hc, h, hb⟩)
      · exact ⟨Nat.le_refl _, hc, by simp, by simpa using hb⟩
      · obtain ⟨d, rfl⟩ : ∃ d, r = r0 + 1 + d := ⟨r - r0 - 1, by omega⟩
        simp only [show r0 + 1 + d - (r0 + 1) = d by omega] at h hb
        refine ⟨by omega, hc, by simp only [List.length_cons]; omega, ?_⟩
        simpa [show r0 + 1 + d - r0 = d + 1 by omega] using hb
    · rintro ⟨hr, hc, h, hb⟩
      rcases Nat.eq_or_lt_of_le hr with rfl | hr
      · exact Or.inl ⟨c, ⟨hc, by simpa using hb⟩, rfl, rfl⟩
      · obtain ⟨d, rfl⟩ : ∃ d, r = r0 + 1 + d := ⟨r - r0 - 1, by omega⟩
        simp only [List.length_cons] at h
        simp only [show r0 + 1 + d - r0 = d + 1 by omega, List.getElem_cons_succ] at hb
        exact Or.inr ⟨by omega, hc, by omega, by simpa [show r0 + 1 + d - (r0 + 1) = d by omega] using hb⟩

/-- Taking a sprite's 1 bits one by one is going over its rows, and over the eight columns of each, in the pseudocode's order
(40_display R122). -/
theorem foldl_litBits {α : Type} (f : α → Nat × Nat → α) (bs : List Byte) (r0 : Nat) (a : α) :
    (litBits r0 bs).foldl f a = (List.range bs.length).foldl
      (fun d r => (List.range 8).foldl (fun d c => if (bs.getD r 0).getLsbD (7 - c) then f d (r0 + r, c) else d) d) a := by
  induction bs generalizing r0 a with
  | nil => rfl
  | cons b bs ih =>
    rw [litBits, List.foldl_append, List.foldl_map, litColumns, List.foldl_filter, ih, List.length_cons,
      List.range_succ_eq_map (n := bs.length), List.foldl_cons, List.foldl_map]
    simp only [List.getD_cons_zero, List.getD_cons_succ, Nat.add_zero, Nat.succ_eq_add_one, Nat.add_assoc, Nat.add_comm 1]

end Sys2Proof.Machine
end

