-- ==== Sys2Proof/Laws/Memory.lean ====
section
/-!
SUPPORT. The laws of memory: what a read gives after a write, that every memory operation keeps the canonical form, and what
the multi-byte accesses can do.
-/
namespace Sys2Proof.Machine

theorem Memory.read_erase_other (m : Memory) {a b : Nat} (h : b ≠ a) : (m.erase a).read b = m.read b := by
  induction m with
  | nil => rfl
  | cons c rest ih =>
    obtain ⟨k, v⟩ := c
    by_cases hk : k = a
    · subst hk
      have : k ≠ b := fun e => h e.symm
      simpa [Memory.erase, Memory.read, this] using ih
    · by_cases hb : k = b
      · simp [Memory.erase, Memory.read, hb]
        simp [hb ▸ hk, Memory.read]
      · simpa [Memory.erase, Memory.read, hk, hb] using ih

theorem Memory.read_of_unlisted (m : Memory) (a : Nat) (h : ∀ c ∈ m, c.1 ≠ a) : m.read a = Config.resetByte a := by
  induction m with
  | nil => rfl
  | cons c rest ih =>
    have hc : c.1 ≠ a := h c (by simp)
    simp only [Memory.read, if_neg hc]
    exact ih fun d hd => h d (by simp [hd])

theorem Memory.mem_erase {m : Memory} {a : Nat} {c : Host.Cell} : c ∈ m.erase a ↔ c ∈ m ∧ c.1 ≠ a := by
  simp [Memory.erase]

theorem Memory.mem_insert {m : Memory} {a : Nat} {b : Byte} {c : Host.Cell} :
    c ∈ Memory.insert a b m ↔ c = (a, b) ∨ c ∈ m := by
  induction m with
  | nil => simp [Memory.insert]
  | cons d rest ih =>
    simp only [Memory.insert]
    split
    · simp
    · simp only [List.mem_cons, ih]
      tauto

theorem Memory.read_insert_same (m : Memory) (a : Nat) (b : Byte) (h : ∀ c ∈ m, c.1 ≠ a) :
    (Memory.insert a b m).read a = b := by
  induction m with
  | nil => simp [Memory.insert, Memory.read]
  | cons c rest ih =>
    have hc : c.1 ≠ a := h c (by simp)
    simp only [Memory.insert]
    split
    · simp [Memory.read]
    · simp only [Memory.read, if_neg hc]
      exact ih fun d hd => h d (by simp [hd])

theorem Memory.read_insert_other (m : Memory) {a a' : Nat} (b : Byte) (h : a' ≠ a) :
    (Memory.insert a b m).read a' = m.read a' := by
  induction m with
  | nil => simp [Memory.insert, Memory.read, h.symm]
  | cons c rest ih =>
    simp only [Memory.insert]
    split
    · simp [Memory.read, h.symm]
    · simp only [Memory.read, ih]

/-- A read after a write to the same address gives the value written, in every memory, canonical or not. -/
@[simp] theorem Memory.read_write_same (m : Memory) (a : Nat) (b : Byte) : (m.write a b).read a = b := by
  unfold Memory.write
  split
  · rename_i h
    rw [Memory.read_of_unlisted _ _ fun c hc => (Memory.mem_erase.mp hc).2, h]
  · exact Memory.read_insert_same _ _ _ fun c hc => (Memory.mem_erase.mp hc).2

/-- A write leaves every other address alone. -/
theorem Memory.read_write_other (m : Memory) {a a' : Nat} (b : Byte) (h : a' ≠ a) :
    (m.write a b).read a' = m.read a' := by
  unfold Memory.write
  split
  · exact Memory.read_erase_other m h
  · rw [Memory.read_insert_other _ _ h, Memory.read_erase_other m h]

theorem Memory.read_write (m : Memory) (a a' : Nat) (b : Byte) :
    (m.write a b).read a' = if a' = a then b else m.read a' := by
  split
  · subst_vars; simp
  · exact Memory.read_write_other m b ‹_›

theorem Memory.erase_wf {m : Memory} (h : m.wf) (a : Nat) : (m.erase a).wf :=
  ⟨h.1.filter _, fun c hc => h.2 c (Memory.mem_erase.mp hc).1⟩

theorem Memory.insert_wf {m : Memory} (h : m.wf) {a : Nat} {b : Byte} (ha : a < Config.memSize)
    (hb : b ≠ Config.resetByte a) (hu : ∀ c ∈ m, c.1 ≠ a) : (Memory.insert a b m).wf := by
  refine ⟨?_, fun c hc => ?_⟩
  · induction m with
    | nil => simp [Memory.insert]
    | cons c rest ih =>
      have hrest : Memory.wf rest := ⟨h.1.tail, fun d hd => h.2 d (by simp [hd])⟩
      have hlt := (List.pairwise_cons.mp h.1).1
      have hc : c.1 ≠ a := hu c (by simp)
      simp only [Memory.insert]
      split
      · rename_i hac
        refine List.pairwise_cons.mpr ⟨fun d hd => ?_, h.1⟩
        rcases List.mem_cons.mp hd with rfl | hd
        · exact hac
        · exact Nat.lt_trans hac (hlt d hd)
      · rename_i hac
        refine List.pairwise_cons.mpr ⟨fun d hd => ?_, ih hrest fun d hd => hu d (by simp [hd])⟩
        rcases Memory.mem_insert.mp hd with rfl | hd
        · simp only at hac hc ⊢; omega
        · exact hlt d hd
  · rcases Memory.mem_insert.mp hc with rfl | hc
    · exact ⟨ha, hb⟩
    · exact h.2 c hc

/-- A write inside the address space keeps the canonical form. -/
theorem Memory.write_wf {m : Memory} (h : m.wf) {a : Nat} (b : Byte) (ha : a < Config.memSize) : (m.write a b).wf := by
  unfold Memory.write
  split
  · exact Memory.erase_wf h a
  · exact Memory.insert_wf (Memory.erase_wf h a) ha ‹_› fun c hc => (Memory.mem_erase.mp hc).2

theorem Memory.writeAll_wf {m : Memory} (h : m.wf) {a : Nat} (bs : List Byte) (ha : a + bs.length ≤ Config.memSize) :
    (m.writeAll a bs).wf := by
  induction bs generalizing m a with
  | nil => exact h
  | cons b bs ih =>
    simp only [List.length_cons] at ha
    exact ih (Memory.write_wf h b (by omega)) (by omega)

theorem Memory.reset_wf : State.reset.mem.wf := by decide

/-- What unchecked writes leave at each address: the bytes of the list from `a` on, and nothing else changed. -/
theorem Memory.read_writeAll (m : Memory) (a : Nat) (bs : List Byte) (a' : Nat) :
    (m.writeAll a bs).read a' = if a ≤ a' then bs.getD (a' - a) (m.read a') else m.read a' := by
  induction bs generalizing m a with
  | nil => simp [Memory.writeAll]
  | cons b bs ih =>
    simp only [Memory.writeAll, ih, Memory.read_write]
    rcases Nat.lt_trichotomy a' a with h | rfl | h
    · simp [show ¬ a + 1 ≤ a' by omega, show ¬ a ≤ a' by omega, show a' ≠ a by omega]
    · simp
    · obtain ⟨d, rfl⟩ : ∃ d, a' = a + 1 + d := ⟨a' - a - 1, by omega⟩
      simp [show a ≤ a + 1 + d by omega, show a + 1 + d ≠ a by omega, show a + 1 + d - a = d + 1 by omega]

theorem memRead_eq (m : Memory) (a : Nat) :
    memRead m a = if a < 4096 then .ok (m.read a) else .error (.outOfRange .mem a) := rfl

theorem memWrite_eq (m : Memory) (a : Nat) (v : Byte) :
    memWrite m a v = if a < 4096 then .ok (m.write a v) else .error (.outOfRange .mem a) := rfl

/-- Everything a multi-byte read can do: all bytes, or the lowest address out of range. -/
theorem memReadBytes_eq (m : Memory) (a n : Nat) :
    memReadBytes m a n =
      if n = 0 ∨ a + n ≤ 4096 then .ok ((List.range n).map fun k => m.read (a + k))
      else .error (.outOfRange .mem (max a 4096)) := by
  induction n generalizing a with
  | zero => rfl
  | succ n ih =>
    simp only [memReadBytes, memRead_eq]
    by_cases ha : a < 4096
    · rw [if_pos ha, ih]
      by_cases hn : n = 0 ∨ a + 1 + n ≤ 4096
      · rw [if_pos hn, if_pos (by omega)]
        simp [List.range_succ_eq_map, Function.comp_def, Nat.add_assoc, Nat.add_comm 1]
      · rw [if_neg hn, if_neg (by omega), show max (a + 1) 4096 = max a 4096 by omega]
    · rw [if_neg ha, if_neg (by omega), show max a 4096 = a by omega]

/-- Everything a multi-byte write can do: all bytes, or the lowest address out of range. -/
theorem memWriteBytes_eq (m : Memory) (a : Nat) (bs : List Byte) :
    memWriteBytes m a bs =
      if bs = [] ∨ a + bs.length ≤ 4096 then .ok (m.writeAll a bs)
      else .error (.outOfRange .mem (max a 4096)) := by
  induction bs generalizing m a with
  | nil => rfl
  | cons b bs ih =>
    simp only [memWriteBytes, memWrite_eq, List.length_cons, reduceCtorEq, false_or]
    by_cases ha : a < 4096
    · simp only [if_pos ha, ih]
      by_cases hn : bs = [] ∨ a + 1 + bs.length ≤ 4096
      · have : a + (bs.length + 1) ≤ 4096 := by
          rcases hn with rfl | hn
          · simp only [List.length_nil]; omega
          · omega
        simp [hn, this, Memory.writeAll]
      · have : ¬ a + (bs.length + 1) ≤ 4096 := by omega
        rw [if_neg hn, if_neg this, show max (a + 1) 4096 = max a 4096 by omega]
    · rw [if_neg ha, if_neg (by omega), show max a 4096 = a by omega]

/-- A multi-byte write that succeeds keeps the canonical form. -/
theorem memWriteBytes_wf {m m' : Memory} (h : m.wf) {a : Nat} {bs : List Byte} (hw : memWriteBytes m a bs = .ok m') :
    m'.wf := by
  rw [memWriteBytes_eq] at hw
  split at hw
  · rename_i hb
    cases hw
    rcases hb with rfl | hb
    · exact h
    · exact Memory.writeAll_wf h bs hb
  · cases hw

end Sys2Proof.Machine
end

