-- ==== Sys2Proof/Laws/Step.lean ====
section
/-!
SUPPORT. What the shared operations of the step cycle can do: how an instruction ends, the key scan, and the end of a step.
-/
namespace Sys2Proof.Machine

/-- An instruction that can fail ends in the state it commits or in the error it reports. -/
theorem settle_cases {s t : State} {r : Except Error State} (h : s.settle r = .next t) :
    r = .ok t ∨ ∃ e, r = .error e ∧ t = s.raise e := by
  cases r with
  | ok u => cases h; exact .inl rfl
  | error e => cases h; exact .inr ⟨e, rfl, rfl⟩

@[simp] theorem settle_ok (s t : State) : s.settle (.ok t) = .next t := rfl
@[simp] theorem settle_error (s : State) (e : Error) : s.settle (.error e) = .next (s.raise e) := rfl
@[simp] theorem closeStep_next (s : State) : closeStep (.next s) = .next s.endStep := rfl

/-- What the key scan can do: nothing is pressed, or a pressed key's index is in the register and `pc` has advanced. -/
theorem takeKey_cases (s : State) (t : RegIdx) :
    (s.takeKey t = none ∧ s.selectedKey = none) ∨
      ∃ k, s.selectedKey = some k ∧
        s.takeKey t = some ({ s with keyPick := s.keyPick.next }.setReg t (BitVec.ofNat 8 k.val)).advance := by
  unfold State.takeKey
  cases h : s.selectedKey with
  | none => exact .inl ⟨rfl, rfl⟩
  | some k => exact .inr ⟨k, rfl, rfl⟩

theorem mem_pressedKeys (key : Vector Bool 16) (k : KeyIdx) : k ∈ pressedKeys key ↔ key[k] = true := by
  simp [pressedKeys]

/-- The selected key is a pressed one, under every policy. -/
theorem selectedKey_pressed {s : State} {k : KeyIdx} (h : s.selectedKey = some k) : s.key[k] = true := by
  rw [← mem_pressedKeys]
  unfold State.selectedKey at h
  cases hp : pressedKeys s.key with
  | nil => simp [keySelect, hp] at h
  | cons k0 rest =>
    rw [hp] at h
    cases hk : s.params.keySelect <;> simp only [keySelect, hk, Option.some.injEq] at h
    · simp [h]
    · rw [← h, List.getD_eq_getElem _ _ (by simpa using Nat.mod_lt _ (Nat.succ_pos _))]
      exact List.getElem_mem _

/-- No key is selected exactly when none is pressed. -/
theorem selectedKey_none {s : State} : s.selectedKey = none ↔ ∀ k : KeyIdx, s.key[k] = false := by
  unfold State.selectedKey
  cases hp : pressedKeys s.key with
  | nil =>
    refine ⟨fun _ k => ?_, fun _ => rfl⟩
    have := mem_pressedKeys s.key k
    simp [hp] at this
    simpa using this
  | cons k0 rest =>
    refine ⟨fun h => ?_, fun h => ?_⟩
    · cases hk : s.params.keySelect <;> simp [keySelect, hk] at h
    · have := (mem_pressedKeys s.key k0).mp (by simp [hp])
      rw [h k0] at this
      cases this

/-- A step that reported an error ends with no timer decay. -/
theorem endStep_reported {s : State} (h : s.report.isSome = true) : s.endStep = { s with clock := s.clock.next } := by
  simp [State.endStep, h]

/-- A step that reported no error ends with the timer gate. -/
theorem endStep_completed {s : State} (h : s.report = none) :
    s.endStep = { s.timerGate s.now with clock := s.clock.next } := by
  simp [State.endStep, h]

/-- The end of a step changes at most the timers, the time of the last decay and the clock input. -/
theorem endStep_frame (s : State) :
    s.endStep = { s with dt := s.endStep.dt, st := s.endStep.st, lastUpdate := s.endStep.lastUpdate,
                         clock := s.clock.next } := by
  unfold State.endStep
  split <;> rfl

/-- A running step at a word that decodes is `exec` of its instruction, then the end of the step. -/
theorem step_running {s : State} {i : Instr} (hm : s.mode = .running) (hf : s.fetchInstr = .ok i) :
    step s = closeStep (exec i s.beginStep) := by
  simp only [step, State.cycle]
  split
  · rename_i h; rw [hm] at h; cases h
  · rw [hf]

/-- A step while waiting for a key is the re-scan, then the end of the step. -/
theorem step_waiting {s : State} {x : RegIdx} (hm : s.mode = .waitingForKey x) :
    step s = .next (s.beginStep.rescan x).endStep := by
  simp only [step, State.cycle]
  split
  · rename_i h; rw [hm] at h; cases h; rfl
  · rename_i h; rw [hm] at h; cases h

theorem decay_toNat (t : Byte) : (decay t).toNat = t.toNat - 1 := by
  revert t; decide

end Sys2Proof.Machine
end

