-- ==== Sys2Proof/Laws/Exec.lean ====
section
/-!
SUPPORT. Everything an instruction can do (`exec_cases`) and everything a step can do (`step_cases`), each said once, so that
rules about the whole machine need not unfold a meaning or the step cycle.
-/
namespace Sys2Proof.Machine

/-- What an instruction that completes at `t` may have changed: every component not named is as before. -/
def Effect (i : Instr) (s t : State) : Prop :=
  match i with
  | .cls => t = { s with fb := blankFramebuffer, dirty := true, pc := s.pc + 2 }
  | .ret => ∃ h : 0 < s.sp.val, t = { s with pc := s.stack[s.sp.val - 1], sp := ⟨s.sp.val - 1, by omega⟩ }
  | .jp nnn => t = { s with pc := addressOf nnn }
  | .jpV0 nnn => t = { s with pc := offsetTarget s nnn }
  | .call nnn => ∃ h : s.sp.val < 16,
      t = { s with pc := addressOf nnn, stack := s.stack.set s.sp.val (s.pc + 2), sp := ⟨s.sp.val + 1, by omega⟩ }
  | .seImm x nn => t = { s with pc := if s.reg x = nn then s.pc + 4 else s.pc + 2 }
  | .sneImm x nn => t = { s with pc := if s.reg x = nn then s.pc + 2 else s.pc + 4 }
  | .seReg x y => t = { s with pc := if s.reg x = s.reg y then s.pc + 4 else s.pc + 2 }
  | .sneReg x y => t = { s with pc := if s.reg x = s.reg y then s.pc + 2 else s.pc + 4 }
  | .skp x => ∃ h : (s.reg x).toNat < 16, t = { s with pc := if s.key[(s.reg x).toNat] then s.pc + 4 else s.pc + 2 }
  | .sknp x => ∃ h : (s.reg x).toNat < 16, t = { s with pc := if s.key[(s.reg x).toNat] then s.pc + 2 else s.pc + 4 }
  | .ldImm x _ | .addImm x _ | .ldReg x _ | .orReg x _ | .andReg x _ | .xorReg x _ | .ldVxDT x =>
    ∃ v, t = { s with regs := s.regs.set x v, pc := s.pc + 2 }
  | .rnd x _ => ∃ v, t = { s with regs := s.regs.set x v, pc := s.pc + 2, random := s.random.next }
  | .addReg x _ | .subReg x _ | .subnReg x _ | .shr x _ | .shl x _ =>
    ∃ f v, t = { s with regs := (s.regs.set flagReg f).set x v, pc := s.pc + 2 }
  | .ldI nnn => t = { s with I := addressOf nnn, pc := s.pc + 2 }
  | .addI x => ∃ f,
      t = { s with I := BitVec.ofNat 16 (s.I.toNat + (s.reg x).toNat), regs := s.regs.set flagReg f, pc := s.pc + 2 }
  | .ldF x => t = { s with I := BitVec.ofNat 16 (5 * (s.reg x).toNat), pc := s.pc + 2 }
  | .ldB x => s.I.toNat + 2 ≤ 4095 ∧
      t = { s with mem := s.mem.writeAll s.I.toNat (bcdDigits (s.reg x)), pc := s.pc + 2 }
  | .store x => s.I.toNat + x.val ≤ 4095 ∧
      t = { s with mem := s.mem.writeAll s.I.toNat (registersUpTo s x), pc := s.pc + 2 }
  | .load x => ∃ bs : List Byte, bs.length = x.val + 1 ∧ t = { s with regs := setRegsFrom 0 s.regs bs, pc := s.pc + 2 }
  | .ldDT x => t = { s with dt := s.reg x, pc := s.pc + 2 }
  | .ldST x => t = { s with st := s.reg x, pc := s.pc + 2 }
  | .ldVxK x =>
    (s.selectedKey = none ∧ t = { s with mode := .waitingForKey x }) ∨
      ∃ k, s.selectedKey = some k ∧
        t = { s with keyPick := s.keyPick.next, regs := s.regs.set x (BitVec.ofNat 8 k.val), pc := s.pc + 2 }
  | .drw _ _ _ =>
    (∀ j, j ≠ flagReg → t.reg j = s.reg j) ∧ t = { s with regs := t.regs, fb := t.fb, dirty := true, pc := s.pc + 2 }

/-- DRW's second phase changes no register but the flag register, and no component but registers and framebuffer. -/
theorem drawBits_frame (before : State) (x y : RegIdx) (bits : List (Nat × Nat)) (s : State) :
    (∀ j, j ≠ flagReg → (bits.foldl (drawBit before x y) s).reg j = s.reg j) ∧
      bits.foldl (drawBit before x y) s =
        { s with regs := (bits.foldl (drawBit before x y) s).regs, fb := (bits.foldl (drawBit before x y) s).fb } := by
  induction bits generalizing s with
  | nil => exact ⟨fun _ _ => rfl, rfl⟩
  | cons b bits ih =>
    rw [List.foldl_cons]
    obtain ⟨h1, h2⟩ := ih (drawBit before x y s b)
    refine ⟨fun j hj => ?_, ?_⟩
    · rw [h1 j hj, drawBit_eq]
      simp only
      split
      · exact State.reg_setReg_other _ _ hj
      · rfl
    · conv_lhs => rw [h2]
      rw [drawBit_eq]

/-- An instruction completes with its effect, or reports an error and commits nothing of it (60_exceptions R234). -/
theorem exec_cases {i : Instr} {s t : State} (h : exec i s = .next t) : Effect i s t ∨ ∃ e, t = s.raise e := by
  cases i
  case ret =>
    simp only [exec, execRet] at h
    rcases settle_cases h with h | ⟨e, _, h⟩
    · left
      unfold State.pop at h
      split at h <;> simp at h
      subst h
      rename_i hp
      split at hp <;> simp at hp
      obtain ⟨rfl, rfl⟩ := hp
      exact ⟨by assumption, rfl⟩
    · exact .inr ⟨e, h⟩
  case call nnn =>
    simp only [exec, execCall] at h
    rcases settle_cases h with h | ⟨e, _, h⟩
    · left
      unfold State.push at h
      split at h <;> simp at h
      subst h
      rename_i hp
      split at hp <;> simp at hp
      subst hp
      exact ⟨by assumption, rfl⟩
    · exact .inr ⟨e, h⟩
  case drw x y n =>
    simp only [exec, execDrw] at h
    rcases settle_cases h with h | ⟨e, _, h⟩
    · left
      split at h <;> simp at h
      subst h
      rename_i rows _
      obtain ⟨h1, h2⟩ := drawBits_frame s x y (litBits 0 rows) (s.setFlag false)
      refine ⟨fun j hj => (h1 j hj).trans (by rw [State.reg_setFlag, if_neg hj]), ?_⟩
      simp only [drawSprite]
      rw [h2]
      rfl
    · exact .inr ⟨e, h⟩
  case skp x =>
    simp only [exec, execSkp] at h
    rcases settle_cases h with h | ⟨e, _, h⟩
    · left
      unfold keyPressed at h
      split at h <;> simp at h
      subst h
      rename_i hk
      split at hk <;> simp at hk
      subst hk
      exact ⟨by assumption, rfl⟩
    · exact .inr ⟨e, h⟩
  case sknp x =>
    simp only [exec, execSknp] at h
    rcases settle_cases h with h | ⟨e, _, h⟩
    · left
      unfold keyPressed at h
      split at h <;> simp at h
      subst h
      rename_i hk
      split at hk <;> simp at hk
      subst hk
      refine ⟨by assumption, ?_⟩
      unfold State.skipIf
      cases s.key[(s.reg x).toNat] <;> rfl
    · exact .inr ⟨e, h⟩
  case ldB x =>
    simp only [exec, execLdB] at h
    rcases settle_cases h with h | ⟨e, _, h⟩
    · left
      split at h <;> simp at h
      subst h
      rename_i hw
      rw [memWriteBytes_eq] at hw
      split at hw <;> simp at hw
      subst hw
      rename_i hb
      simp [bcdDigits, effectiveAddress] at hb
      exact ⟨by omega, rfl⟩
    · exact .inr ⟨e, h⟩
  case store x =>
    simp only [exec, execStore] at h
    rcases settle_cases h with h | ⟨e, _, h⟩
    · left
      split at h <;> simp at h
      subst h
      rename_i hw
      rw [memWriteBytes_eq] at hw
      split at hw <;> simp at hw
      subst hw
      rename_i hb
      have hl := registersUpTo_length s x
      have hne : registersUpTo s x ≠ [] := fun hn => by simp [hn] at hl
      simp [hne, effectiveAddress] at hb
      exact ⟨by omega, rfl⟩
    · exact .inr ⟨e, h⟩
  case load x =>
    simp only [exec, execLoad] at h
    rcases settle_cases h with h | ⟨e, _, h⟩
    · left
      split at h <;> simp at h
      subst h
      rename_i hr
      rw [memReadBytes_eq] at hr
      split at hr <;> simp at hr
      subst hr
      exact ⟨_, by simp, rfl⟩
    · exact .inr ⟨e, h⟩
  case ldVxK x =>
    left
    simp only [exec, execLdVxK] at h
    rcases takeKey_cases s x with hk | ⟨k, hs, hk⟩
    · rw [hk.1] at h
      cases h
      exact .inl ⟨hk.2, rfl⟩
    · rw [hk] at h
      cases h
      exact .inr ⟨k, hs, rfl⟩
  case cls =>
    left
    unfold exec execCls State.advance at h
    have h := Host.Outcome.next.inj h
    unfold Effect
    rw [← h]
  case sneImm x nn =>
    left
    cases h
    simp only [Effect, State.skipIf]
    split <;> simp_all
  case sneReg x y =>
    left
    cases h
    simp only [Effect, State.skipIf]
    split <;> simp_all
  case seImm x nn => left; cases h; simp only [Effect, State.skipIf, beq_iff_eq]
  case seReg x y => left; cases h; simp only [Effect, State.skipIf, beq_iff_eq]
  all_goals
    left
    cases h
    simp only [Effect]
    first | rfl | exact ⟨_, rfl⟩ | exact ⟨_, _, rfl⟩

/-- Every instruction answers a next state (00_scope R12). -/
theorem exec_answers (i : Instr) (s : State) : ∃ t, exec i s = .next t := by
  have hs : ∀ r : Except Error State, ∃ t, s.settle r = .next t := fun r => by cases r <;> exact ⟨_, rfl⟩
  cases i
  case ldVxK x => simp only [exec, execLdVxK]; split <;> exact ⟨_, rfl⟩
  all_goals first | exact ⟨_, rfl⟩ | exact hs _

/-- An instruction that completes leaves what the host sees of errors as it was. -/
theorem Effect.report {i : Instr} {s t : State} (h : Effect i s t) : t.report = s.report ∧ t.fault = s.fault := by
  cases i <;> simp only [Effect] at h
  case drw => rw [h.2]; exact ⟨rfl, rfl⟩
  case ldVxK => rcases h with ⟨_, rfl⟩ | ⟨_, _, rfl⟩ <;> exact ⟨rfl, rfl⟩
  all_goals first
    | (subst h; exact ⟨rfl, rfl⟩)
    | (obtain ⟨_, rfl⟩ := h; exact ⟨rfl, rfl⟩)
    | (obtain ⟨_, _, rfl⟩ := h; exact ⟨rfl, rfl⟩)

/-- A step that reports an error commits only the record and uses up its time input (60_exceptions R234, R248). -/
theorem endStep_raise (s : State) (e : Error) :
    (s.beginStep.raise e).endStep =
      { s with report := (s.raise e).report, fault := (s.raise e).fault, clock := s.clock.next } := by
  rw [endStep_reported (by rfl)]
  rfl

/-- Everything a step can do: a waiting step scans the keys; a running one executes the instruction fetched, which takes
effect; or it reports an error. Only then does the timer gate not run. -/
theorem step_cases {s t : State} (h : step s = .next t) :
    (∃ x, s.mode = .waitingForKey x ∧ t = (s.beginStep.rescan x).endStep ∧ (s.beginStep.rescan x).report = none) ∨
    (∃ i u, s.mode = .running ∧ s.fetchInstr = .ok i ∧ exec i s.beginStep = .next u ∧ Effect i s.beginStep u ∧
      u.report = none ∧ t = u.endStep) ∨
    ∃ e, s.mode = .running ∧
      (s.fetchInstr = .error e ∨ ∃ i, s.fetchInstr = .ok i ∧ exec i s.beginStep = .next (s.beginStep.raise e)) ∧
      t = { s with report := (s.raise e).report, fault := (s.raise e).fault, clock := s.clock.next } := by
  unfold step State.cycle at h
  split at h
  · rename_i x hm
    cases h
    refine .inl ⟨x, hm, rfl, ?_⟩
    unfold State.rescan
    rcases takeKey_cases s.beginStep x with hk | ⟨k, _, hk⟩
    · rw [hk.1]; rfl
    · rw [hk]; rfl
  · rename_i hm
    split at h
    · rename_i e he
      cases h
      exact .inr (.inr ⟨e, hm, .inl he, endStep_raise s e⟩)
    · rename_i i hi
      obtain ⟨u, hu⟩ := exec_answers i s.beginStep
      rw [hu] at h
      cases h
      rcases exec_cases hu with he | ⟨e, rfl⟩
      · exact .inr (.inl ⟨i, u, hm, hi, hu, he, he.report.1, rfl⟩)
      · exact .inr (.inr ⟨e, hm, .inr ⟨i, hi, hu⟩, endStep_raise s e⟩)

/-! The clock input, which only the timer gate reads (60_exceptions R248). -/

/-- The state with another clock input. -/
def State.withClock (s : State) (c : Source Int) : State := { s with clock := c }

@[simp] theorem State.withClock_mem (s : State) (c : Source Int) : (s.withClock c).mem = s.mem := rfl
@[simp] theorem State.withClock_sp (s : State) (c : Source Int) : (s.withClock c).sp = s.sp := rfl
@[simp] theorem State.reg_withClock (s : State) (c : Source Int) (j : RegIdx) : (s.withClock c).reg j = s.reg j := rfl
@[simp] theorem effectiveAddress_withClock (s : State) (c : Source Int) (k : Nat) :
    effectiveAddress (s.withClock c) k = effectiveAddress s k := rfl

theorem settle_withClock {s t : State} {r : Except Error State} (c : Source Int) (h : s.settle r = .next t) :
    (s.withClock c).settle (r.map (·.withClock c)) = .next (t.withClock c) := by
  cases r <;> cases h <;> rfl

theorem drawBits_withClock (before : State) (x y : RegIdx) (c : Source Int) (bits : List (Nat × Nat)) (s : State) :
    bits.foldl (drawBit (before.withClock c) x y) (s.withClock c) = (bits.foldl (drawBit before x y) s).withClock c := by
  induction bits generalizing s with
  | nil => rfl
  | cons b bits ih =>
    have ho : ∀ i, (operandState (before.withClock c) (s.withClock c)).reg i = (operandState before s).reg i := by
      intro i
      unfold operandState
      rw [show (before.withClock c).params = before.params from rfl]
      cases before.params.operandRead <;> rfl
    have hb : drawBit (before.withClock c) x y (s.withClock c) b = (drawBit before x y s b).withClock c := by
      rw [drawBit_eq, drawBit_eq]
      simp only [ho]
      rfl
    rw [List.foldl_cons, List.foldl_cons, hb, ih]

theorem flagThenResult_withClock (s : State) (x : RegIdx) (flag : Bool) (result : State → Byte) (c : Source Int)
    (hr : ∀ u : State, result (u.withClock c) = result u) :
    (s.withClock c).flagThenResult x flag result = (s.flagThenResult x flag result).withClock c := by
  have ho : result (operandState (s.withClock c) ((s.setFlag flag).withClock c)) =
      result (operandState s (s.setFlag flag)) := by
    unfold operandState
    rw [show (s.withClock c).params = s.params from rfl]
    cases s.params.operandRead <;> exact hr _
  unfold State.flagThenResult
  rw [show (s.withClock c).setFlag flag = (s.setFlag flag).withClock c from rfl, ho]
  rfl

/-- No instruction reads or writes the clock input: with another one it does the same. -/
theorem exec_withClock {i : Instr} {s t : State} (c : Source Int) (h : exec i s = .next t) :
    exec i (s.withClock c) = .next (t.withClock c) := by
  cases i
  case drw x y n =>
    refine Eq.trans ?_ (settle_withClock c h)
    simp only [exec, execDrw]
    congr 1
    rw [State.withClock_mem, effectiveAddress_withClock]
    cases memReadBytes s.mem (effectiveAddress s 0) n.toNat with
    | error e => rfl
    | ok rows =>
      simp only [Except.map, drawSprite]
      rw [show (s.withClock c).setFlag false = (s.setFlag false).withClock c from rfl, drawBits_withClock]
      rfl
  case ldVxK x =>
    simp only [exec, execLdVxK, State.takeKey] at h ⊢
    rw [show (s.withClock c).selectedKey = s.selectedKey from rfl]
    cases hk : s.selectedKey <;> rw [hk] at h <;> cases h <;> rfl
  case ret =>
    refine Eq.trans ?_ (settle_withClock c h)
    simp only [exec, execRet]
    congr 1
    by_cases hs : 0 < s.sp.val
    · simp [State.pop, State.withClock_sp, hs]; rfl
    · simp [State.pop, State.withClock_sp, hs]; rfl
  case call nnn =>
    refine Eq.trans ?_ (settle_withClock c h)
    simp only [exec, execCall]
    congr 1
    by_cases hs : s.sp.val < 16
    · simp [State.push, State.withClock_sp, hs]; rfl
    · simp [State.push, State.withClock_sp, hs]; rfl
  case ldB x =>
    refine Eq.trans ?_ (settle_withClock c h)
    simp only [exec, execLdB]
    congr 1
    rw [State.withClock_mem, effectiveAddress_withClock, State.reg_withClock]
    cases memWriteBytes s.mem (effectiveAddress s 0) (bcdDigits (s.reg x)) <;> rfl
  case store x =>
    refine Eq.trans ?_ (settle_withClock c h)
    simp only [exec, execStore]
    congr 1
    rw [State.withClock_mem, effectiveAddress_withClock, show registersUpTo (s.withClock c) x = registersUpTo s x from rfl]
    cases memWriteBytes s.mem (effectiveAddress s 0) (registersUpTo s x) <;> rfl
  case load x =>
    refine Eq.trans ?_ (settle_withClock c h)
    simp only [exec, execLoad]
    congr 1
    rw [State.withClock_mem, effectiveAddress_withClock]
    cases memReadBytes s.mem (effectiveAddress s 0) (x.val + 1) <;> rfl
  case skp x =>
    refine Eq.trans ?_ (settle_withClock c h)
    simp only [exec, execSkp]
    congr 1
    rw [show keyPressed (s.withClock c) x = keyPressed s x from rfl]
    cases keyPressed s x <;> rfl
  case sknp x =>
    refine Eq.trans ?_ (settle_withClock c h)
    simp only [exec, execSknp]
    congr 1
    rw [show keyPressed (s.withClock c) x = keyPressed s x from rfl]
    cases keyPressed s x <;> rfl
  case subReg x y => cases h; exact congrArg _ (flagThenResult_withClock s x _ _ c fun _ => rfl)
  case subnReg x y => cases h; exact congrArg _ (flagThenResult_withClock s x _ _ c fun _ => rfl)
  case shr x y => cases h; exact congrArg _ (flagThenResult_withClock s x _ _ c fun _ => rfl)
  case shl x y => cases h; exact congrArg _ (flagThenResult_withClock s x _ _ c fun _ => rfl)
  case addReg x y => cases h; exact congrArg _ (flagThenResult_withClock s x _ _ c fun _ => rfl)
  all_goals
    cases h
    rfl

end Sys2Proof.Machine
end

