-- ==== Sys2Proof/Laws/PerInstr.lean ====
section
/-!
SUPPORT. The per-instruction family `EncodesLegal`: the word of every instruction is legal by the table of 30_encoding R96,
which is written without looking at the encoder.
-/
namespace Sys2Proof.Laws.EncodesLegal

/-- The instruction's word is one of the legal words of 30_encoding R96. -/
def Statement (i : Instr) : Prop := (encode i).wellFormed = true

theorem family_or (a b : Word) : (a ||| b).family = a.family ||| b.family := by
  simp only [Word.family, BitVec.toNat_or, show 4096 = 2 ^ 12 from rfl, ← Nat.shiftRight_eq_div_pow,
    Nat.shiftRight_or_distrib]

theorem family_placeX (x : RegIdx) : (placeX x).family = 0 := by revert x; decide

theorem family_placeY (y : RegIdx) : (placeY y).family = 0 := by revert y; decide

theorem family_setWidth {k : Nat} (v : BitVec k) (h : 2 ^ k ≤ 4096) : Word.family (v.setWidth 16) = 0 := by
  have hv := v.isLt
  simp only [Word.family, BitVec.toNat_setWidth]
  rw [Nat.mod_eq_of_lt (by omega)]
  omega

theorem family_addr (v : Addr12) : Word.family (v.setWidth 16) = 0 := family_setWidth v (by decide)

theorem family_byte (v : Byte) : Word.family (v.setWidth 16) = 0 := family_setWidth v (by decide)

theorem family_nibble (v : Nibble) : Word.family (v.setWidth 16) = 0 := family_setWidth v (by decide)

/-- A word of a family with no illegal word is legal (30_encoding R96). -/
theorem wellFormed_of_family {w : Word} {f : Nat} (h : w.family = f)
    (hf : f ∈ [1, 2, 3, 4, 6, 7, 0xA, 0xB, 0xC, 0xD]) : w.wellFormed = true := by
  fin_cases hf <;> simp only [Word.wellFormed, h]

set_option maxRecDepth 20000 in
theorem cls : Statement .cls := by
  unfold Statement; decide

set_option maxRecDepth 20000 in
theorem ret : Statement .ret := by
  unfold Statement; decide

theorem jp (nnn : Addr12) : Statement (.jp nnn) := by
  refine wellFormed_of_family (f := 1) ?_ (by decide)
  simp only [encode, family_or, family_addr]
  decide

theorem call (nnn : Addr12) : Statement (.call nnn) := by
  refine wellFormed_of_family (f := 2) ?_ (by decide)
  simp only [encode, family_or, family_addr]
  decide

theorem seImm (x : RegIdx) (nn : Byte) : Statement (.seImm x nn) := by
  refine wellFormed_of_family (f := 3) ?_ (by decide)
  simp only [encode, family_or, family_placeX, family_byte]
  decide

theorem sneImm (x : RegIdx) (nn : Byte) : Statement (.sneImm x nn) := by
  refine wellFormed_of_family (f := 4) ?_ (by decide)
  simp only [encode, family_or, family_placeX, family_byte]
  decide

set_option maxRecDepth 20000 in
theorem seReg (x y : RegIdx) : Statement (.seReg x y) := by
  revert x y; unfold Statement; decide

theorem ldImm (x : RegIdx) (nn : Byte) : Statement (.ldImm x nn) := by
  refine wellFormed_of_family (f := 6) ?_ (by decide)
  simp only [encode, family_or, family_placeX, family_byte]
  decide

theorem addImm (x : RegIdx) (nn : Byte) : Statement (.addImm x nn) := by
  refine wellFormed_of_family (f := 7) ?_ (by decide)
  simp only [encode, family_or, family_placeX, family_byte]
  decide

set_option maxRecDepth 20000 in
theorem ldReg (x y : RegIdx) : Statement (.ldReg x y) := by
  revert x y; unfold Statement; decide

set_option maxRecDepth 20000 in
theorem orReg (x y : RegIdx) : Statement (.orReg x y) := by
  revert x y; unfold Statement; decide

set_option maxRecDepth 20000 in
theorem andReg (x y : RegIdx) : Statement (.andReg x y) := by
  revert x y; unfold Statement; decide

set_option maxRecDepth 20000 in
theorem xorReg (x y : RegIdx) : Statement (.xorReg x y) := by
  revert x y; unfold Statement; decide

set_option maxRecDepth 20000 in
theorem addReg (x y : RegIdx) : Statement (.addReg x y) := by
  revert x y; unfold Statement; decide

set_option maxRecDepth 20000 in
theorem subReg (x y : RegIdx) : Statement (.subReg x y) := by
  revert x y; unfold Statement; decide

set_option maxRecDepth 20000 in
theorem shr (x y : RegIdx) : Statement (.shr x y) := by
  revert x y; unfold Statement; decide

set_option maxRecDepth 20000 in
theorem subnReg (x y : RegIdx) : Statement (.subnReg x y) := by
  revert x y; unfold Statement; decide

set_option maxRecDepth 20000 in
theorem shl (x y : RegIdx) : Statement (.shl x y) := by
  revert x y; unfold Statement; decide

set_option maxRecDepth 20000 in
theorem sneReg (x y : RegIdx) : Statement (.sneReg x y) := by
  revert x y; unfold Statement; decide

theorem ldI (nnn : Addr12) : Statement (.ldI nnn) := by
  refine wellFormed_of_family (f := 10) ?_ (by decide)
  simp only [encode, family_or, family_addr]
  decide

theorem jpV0 (nnn : Addr12) : Statement (.jpV0 nnn) := by
  refine wellFormed_of_family (f := 11) ?_ (by decide)
  simp only [encode, family_or, family_addr]
  decide

theorem rnd (x : RegIdx) (nn : Byte) : Statement (.rnd x nn) := by
  refine wellFormed_of_family (f := 12) ?_ (by decide)
  simp only [encode, family_or, family_placeX, family_byte]
  decide

theorem drw (x y : RegIdx) (n : Nibble) : Statement (.drw x y n) := by
  refine wellFormed_of_family (f := 13) ?_ (by decide)
  simp only [encode, family_or, family_placeX, family_placeY, family_nibble]
  decide

set_option maxRecDepth 20000 in
theorem skp (x : RegIdx) : Statement (.skp x) := by
  revert x; unfold Statement; decide

set_option maxRecDepth 20000 in
theorem sknp (x : RegIdx) : Statement (.sknp x) := by
  revert x; unfold Statement; decide

set_option maxRecDepth 20000 in
theorem ldVxDT (x : RegIdx) : Statement (.ldVxDT x) := by
  revert x; unfold Statement; decide

set_option maxRecDepth 20000 in
theorem ldVxK (x : RegIdx) : Statement (.ldVxK x) := by
  revert x; unfold Statement; decide

set_option maxRecDepth 20000 in
theorem ldDT (x : RegIdx) : Statement (.ldDT x) := by
  revert x; unfold Statement; decide

set_option maxRecDepth 20000 in
theorem ldST (x : RegIdx) : Statement (.ldST x) := by
  revert x; unfold Statement; decide

set_option maxRecDepth 20000 in
theorem addI (x : RegIdx) : Statement (.addI x) := by
  revert x; unfold Statement; decide

set_option maxRecDepth 20000 in
theorem ldF (x : RegIdx) : Statement (.ldF x) := by
  revert x; unfold Statement; decide

set_option maxRecDepth 20000 in
theorem ldB (x : RegIdx) : Statement (.ldB x) := by
  revert x; unfold Statement; decide

set_option maxRecDepth 20000 in
theorem store (x : RegIdx) : Statement (.store x) := by
  revert x; unfold Statement; decide

set_option maxRecDepth 20000 in
theorem load (x : RegIdx) : Statement (.load x) := by
  revert x; unfold Statement; decide

end Sys2Proof.Laws.EncodesLegal
end

