-- ==== Sys2Proof/Tests/Slice0.lean ====
section
/-!
SUPPORT. Tests and witnesses. The tests are the vectors of 95_test_vectors, named in the docstrings, and words written out
from the encodings of 30_encoding R94. Each obligation with hypotheses has a theorem `witness_<its name>` that meets them, at
the boundary values of each clause.
-/
open Sys2Proof Sys2Proof.Machine Sys2Proof.Claims

namespace Sys2Proof.Tests

set_option Elab.async false

/-- The start state of 95_test_vectors "Conventions" with a word to run and the time of its step. -/
def startAt (w : Nat) (now : Int) : State := { State.reset.withFetchWord 16 w with clock := ⟨[now], 0⟩ }

/-- The start state with `step(1)`. -/
def start (w : Nat) : State := startAt w 1

/-- The state with register values set. -/
def State.withRegs (s : State) (l : List (RegIdx × Byte)) : State := l.foldl (fun t p => t.setReg p.1 p.2) s

/-- The state with bytes of memory set. -/
def State.withBytes (s : State) (a : Nat) (bs : List Byte) : State := { s with mem := Memory.writeAll s.mem a bs }

/-- The state with keys pressed. -/
def State.withKeys (s : State) (ks : List Nat) : State := { s with key := Vector.ofFn fun k => ks.contains k.val }

/-- The state an outcome leads to. -/
def State.of (s : State) : Host.Outcome State Fault Refusal → State
  | .next t => t
  | .fault _ => s
  | .refused _ => s

/-- The state after one step. -/
def ran (s : State) : State := State.of s (step s)

/-- The state after one instruction. -/
def execed (i : Instr) (s : State) : State := State.of s (exec i s)

/-! Well-formed words: each check refuses a word (30_encoding R96, vectors V30.4 to V30.14). -/

theorem test_wf_family0 : Word.wellFormed 0x00E0 = true ∧ Word.wellFormed 0x00E1 = false ∧
    decodeWord 0x00E1 = .error (.unknownInstruction 0x00E1) := by decide

theorem test_wf_family5 : Word.wellFormed 0x5120 = true ∧ Word.wellFormed 0x5121 = false ∧
    decodeWord 0x5121 = .error (.unknownInstruction 0x5121) := by decide

theorem test_wf_family8 : Word.wellFormed 0x801E = true ∧ Word.wellFormed 0x8008 = false ∧
    decodeWord 0x800F = .error (.unknownInstruction 0x800F) := by decide

theorem test_wf_family9 : Word.wellFormed 0x9120 = true ∧ Word.wellFormed 0x9121 = false ∧
    decodeWord 0x9121 = .error (.unknownInstruction 0x9121) := by decide

theorem test_wf_familyE : Word.wellFormed 0xE09E = true ∧ Word.wellFormed 0xE09F = false ∧
    decodeWord 0xE000 = .error (.unknownInstruction 0xE000) := by decide

theorem test_wf_familyF : Word.wellFormed 0xF00A = true ∧ Word.wellFormed 0xFFFF = false ∧
    decodeWord 0xF000 = .error (.unknownInstruction 0xF000) := by decide

/-! Decoding: one word per constructor, written out from R94 with X = A, Y = B, N = C, NN = BC, NNN = ABC. -/

theorem test_decode_family0 : decodeWord 0x00E0 = .ok .cls ∧ decodeWord 0x00EE = .ok .ret := by decide

theorem test_decode_address : decodeWord 0x1ABC = .ok (.jp 0xABC) ∧ decodeWord 0x2ABC = .ok (.call 0xABC) ∧
    decodeWord 0xAABC = .ok (.ldI 0xABC) ∧ decodeWord 0xBABC = .ok (.jpV0 0xABC) := by decide

theorem test_decode_immediate : decodeWord 0x3ABC = .ok (.seImm 10 0xBC) ∧ decodeWord 0x4ABC = .ok (.sneImm 10 0xBC) ∧
    decodeWord 0x6ABC = .ok (.ldImm 10 0xBC) ∧ decodeWord 0x7ABC = .ok (.addImm 10 0xBC) ∧
    decodeWord 0xCABC = .ok (.rnd 10 0xBC) := by decide

theorem test_decode_compare : decodeWord 0x5AB0 = .ok (.seReg 10 11) ∧ decodeWord 0x9AB0 = .ok (.sneReg 10 11) := by decide

theorem test_decode_logic : decodeWord 0x8AB0 = .ok (.ldReg 10 11) ∧ decodeWord 0x8AB1 = .ok (.orReg 10 11) ∧
    decodeWord 0x8AB2 = .ok (.andReg 10 11) ∧ decodeWord 0x8AB3 = .ok (.xorReg 10 11) := by decide

theorem test_decode_arithmetic : decodeWord 0x8AB4 = .ok (.addReg 10 11) ∧ decodeWord 0x8AB5 = .ok (.subReg 10 11) ∧
    decodeWord 0x8AB6 = .ok (.shr 10 11) ∧ decodeWord 0x8AB7 = .ok (.subnReg 10 11) ∧
    decodeWord 0x8ABE = .ok (.shl 10 11) := by decide

theorem test_decode_draw : decodeWord 0xDABC = .ok (.drw 10 11 0xC) := by decide

theorem test_decode_keys : decodeWord 0xEA9E = .ok (.skp 10) ∧ decodeWord 0xEAA1 = .ok (.sknp 10) ∧
    decodeWord 0xFA0A = .ok (.ldVxK 10) := by decide

theorem test_decode_timers : decodeWord 0xFA07 = .ok (.ldVxDT 10) ∧ decodeWord 0xFA15 = .ok (.ldDT 10) ∧
    decodeWord 0xFA18 = .ok (.ldST 10) := by decide

theorem test_decode_index : decodeWord 0xFA1E = .ok (.addI 10) ∧ decodeWord 0xFA29 = .ok (.ldF 10) ∧
    decodeWord 0xFA33 = .ok (.ldB 10) ∧ decodeWord 0xFA55 = .ok (.store 10) ∧ decodeWord 0xFA65 = .ok (.load 10) := by decide

theorem test_decodeTableWord : decodeTableWord 16 0x6005 = some (.ldImm 0 5) ∧ decodeTableWord 16 0x0000 = none := by decide

/-! The step cycle. -/

/-- V30.15, and the big-endian fetch of 20_memory R62 at an odd address (R64). -/
theorem test_fetch_odd : let t := ran { State.withBytes (start 0) 0x201 [0x60, 0x2A] with pc := 0x201 }
    t.reg 0 = 0x2A ∧ t.pc = 0x203 ∧ t.report = none := by decide +kernel

/-- V30.1, V30.2, V30.3. -/
theorem test_fetch_out_of_range :
    (ran { start 0 with pc := 0xFFF }).report = some ⟨.outOfRange .mem 0x1000, 0xFFF⟩ ∧
    (ran { start 0 with pc := 0x1000 }).fault = some ⟨.outOfRange .mem 0x1000, 0x1000⟩ ∧
    (ran { start 0 with pc := 0x10FE }).fault = some ⟨.outOfRange .mem 0x10FE, 0x10FE⟩ := by decide +kernel

/-- V30.16: no decay on a faulting step. -/
theorem test_no_decay_on_fault : let t := ran { startAt 0x0123 100 with dt := 5, st := 1 }
    t.fault = some ⟨.unknownInstruction 0x0123, 0x200⟩ ∧ t.dt = 5 ∧ t.st = 1 ∧ t.lastUpdate = 0 ∧ t.pc = 0x200 := by
  decide +kernel

/-- V30.17: the first fault is kept; the step still reports its own error. -/
theorem test_first_fault_kept : let t := ran { start 0x0123 with fault := some ⟨.stackUnderflow 0x200, 0x200⟩ }
    t.fault = some ⟨.stackUnderflow 0x200, 0x200⟩ ∧ t.report = some ⟨.unknownInstruction 0x0123, 0x200⟩ := by decide +kernel

/-- V60.1, V60.2. -/
theorem test_gate_boundary :
    (ran { startAt 0x6000 16 with dt := 5, st := 1 }).dt = 5 ∧ (ran { startAt 0x6000 17 with dt := 5, st := 1 }).dt = 4 ∧
    (ran { startAt 0x6000 17 with dt := 5, st := 1 }).st = 0 ∧ (ran { startAt 0x6000 17 with dt := 5 }).lastUpdate = 17 := by
  decide +kernel

/-- V60.1, V60.2 as the host's transactions: `step(16)` and `step(17)` from a state with no time given, whose `now` is the one
the gate compares and records. -/
theorem test_step_now : let s := { start 0x6000 with dt := 5, st := 1, clock := ⟨[], 0⟩ }
    (s.after (.step 16)).dt = 5 ∧ (s.after (.step 16)).lastUpdate = 0 ∧ (s.after (.step 17)).dt = 4 ∧
    (s.after (.step 17)).st = 0 ∧ (s.after (.step 17)).lastUpdate = 17 ∧ (s.after (.step 17)).clock = ⟨[], 1⟩ := by
  decide +kernel

/-- V60.3, V60.4: one decrement however late, never below 0. -/
theorem test_gate_once : let t := ran { startAt 0x6000 100 with dt := 5, st := 0 }
    t.dt = 4 ∧ t.st = 0 ∧ t.lastUpdate = 100 := by decide +kernel

/-- V60.7: the clock went back. -/
theorem test_gate_clock_back : let t := ran { startAt 0x6000 40 with dt := 5, lastUpdate := 50 }
    t.dt = 5 ∧ t.lastUpdate = 50 := by decide +kernel

/-! Display. -/

/-- V40.1: every pixel cleared, dirty set, VF untouched. -/
theorem test_cls :
    let t := ran { (start 0x00E0).setReg 15 7 with fb := Vector.replicate 32 (Vector.replicate 64 true) }
    t.fb = blankFramebuffer ∧ t.dirty = true ∧ t.reg 15 = 7 ∧ t.pc = 0x202 := by decide +kernel

/-- S4, row 1 of glyph 0: bits 7 and 4 of 90 are columns 0 and 3. -/
theorem test_drw_glyph0 : let t := ran (State.withRegs (start 0xD015) [(0, 0), (1, 0)])
    (List.range 8).map (fun c => pixelGet t.fb 1 (Fin.ofNat 64 c)) = [true, false, false, true, false, false, false, false] ∧
      pixelGet t.fb 5 0 = false ∧ t.reg 15 = 0 ∧ t.dirty = true ∧ t.pc = 0x202 := by decide +kernel

/-- V40.4: columns and rows wrap. -/
theorem test_drw_wraps : let t := ran (State.withRegs (start 0xD011) [(0, 0x3F), (1, 0x1F)])
    pixelGet t.fb 31 63 = true ∧ pixelGet t.fb 31 2 = true ∧ pixelGet t.fb 31 3 = false ∧ pixelGet t.fb 0 0 = false ∧
      t.reg 15 = 0 := by decide +kernel

/-- V40.6, V40.7: the flag is 1 only when a set pixel becomes unset. -/
theorem test_drw_erasure :
    let s := { start 0xD011 with I := 0x300, fb := pixelSet blankFramebuffer 0 0 true }
    (ran (State.withBytes s 0x300 [0x80])).reg 15 = 1 ∧ pixelGet (ran (State.withBytes s 0x300 [0x80])).fb 0 0 = false ∧
    (ran (State.withBytes s 0x300 [0x40])).reg 15 = 0 ∧ pixelGet (ran (State.withBytes s 0x300 [0x40])).fb 0 0 = true := by
  decide +kernel

/-- V40.9: the bounds are checked before anything is written. -/
theorem test_drw_out_of_range : let t := ran { start 0xD013 with I := 0xFFE }
    t.fault = some ⟨.outOfRange .mem 0x1000, 0x200⟩ ∧ t.fb = blankFramebuffer ∧ t.dirty = false := by decide +kernel

/-- V40.10, V40.11: the column is the old VF, or the VF that the instruction has cleared. -/
theorem test_drw_operand_read : let s := (start 0xDF01).setReg 15 5
    pixelGet (ran s).fb 0 5 = true ∧ pixelGet (ran s).fb 0 0 = false ∧
    pixelGet (ran (withRead s .sequential)).fb 0 0 = true ∧
    pixelGet (ran (withRead s .sequential)).fb 0 5 = false := by decide +kernel

/-- 40_display R122 under the sequential reading with X = 15, by hand: the sprite byte C0 over a set pixel (0,0) clears it and
writes x[15] = 1, so that the second bit lies at column 1 + 1. -/
theorem test_drw_sequential_flag :
    let s := withRead (State.withBytes { (start 0xDF01).setReg 15 5 with
      I := 0x300, fb := pixelSet blankFramebuffer 0 0 true } 0x300 [0xC0]) .sequential
    pixelGet (ran s).fb 0 0 = false ∧ pixelGet (ran s).fb 0 1 = false ∧ pixelGet (ran s).fb 0 2 = true ∧
    (ran s).reg 15 = 1 ∧ (sequentialDrawing s 15 0 1).pixel 0 2 = true ∧ (sequentialDrawing s 15 0 1).flag = 1 := by
  decide +kernel

/-! Control transfer. -/

/-- S3's second step: `sp` falls, the entry stays. V41.1. -/
theorem test_ret : let t := ran { start 0x00EE with sp := 1, stack := State.reset.stack.set 0 0x202 }
    t.pc = 0x202 ∧ t.sp = 0 ∧ t.stack[0] = 0x202 ∧ (ran (start 0x00EE)).fault = some ⟨.stackUnderflow 0x200, 0x200⟩ := by
  decide +kernel

/-- V41.3, V41.2. -/
theorem test_call : let t := ran { start 0x2400 with sp := 15 }
    t.stack[15] = 0x202 ∧ t.sp = 16 ∧ t.pc = 0x400 ∧
      (ran { start 0x2400 with sp := 16 }).fault = some ⟨.stackOverflow 0x200, 0x200⟩ := by decide +kernel

/-- V41.4, V41.5. -/
theorem test_jp : (ran (start 0x1FFF)).pc = 0xFFF ∧ (ran (start 0x1200)).pc = 0x200 := by decide +kernel

/-- V41.14, V41.15. -/
theorem test_jpV0 : (ran ((start 0xB300).setReg 0 0x10)).pc = 0x310 ∧
    (ran ((start 0xBFFF).setReg 0 0xFF)).pc = 0x10FE := by decide +kernel

/-- V41.6, V41.7. -/
theorem test_seImm : (ran ((start 0x3342).setReg 3 0x42)).pc = 0x204 ∧
    (ran ((start 0x3343).setReg 3 0x42)).pc = 0x202 := by decide +kernel

/-- V41.8, V41.9. -/
theorem test_sneImm : (ran ((start 0x4342).setReg 3 0x42)).pc = 0x202 ∧
    (ran ((start 0x4300).setReg 3 0x42)).pc = 0x204 := by decide +kernel

/-- V41.10. -/
theorem test_seReg : (ran (State.withRegs (start 0x5120) [(1, 7), (2, 7)])).pc = 0x204 ∧
    (ran (State.withRegs (start 0x5120) [(1, 7), (2, 8)])).pc = 0x202 := by decide +kernel

/-- V41.12, V41.13. -/
theorem test_sneReg : (ran (State.withRegs (start 0x9120) [(1, 7), (2, 8)])).pc = 0x204 ∧
    (ran (start 0x9110)).pc = 0x202 := by decide +kernel

/-- V41.17: the word skipped over is never decoded. -/
theorem test_skip_over_illegal : let t := ran (State.withBytes (start 0x3000) 0x202 [0xFF, 0xFF])
    t.pc = 0x204 ∧ t.fault = none := by decide +kernel

/-! Register load and ALU. -/

/-- V42.1. -/
theorem test_ldImm : (ran (start 0x6AFF)).reg 10 = 0xFF ∧ (ran (start 0x6AFF)).pc = 0x202 := by decide +kernel

/-- V42.2, V42.3. -/
theorem test_addImm : (ran ((start 0x7203).setReg 2 0xFE)).reg 2 = 1 ∧ (ran ((start 0x7203).setReg 2 0xFE)).reg 15 = 0 ∧
    (ran ((start 0x7F01).setReg 15 0xFF)).reg 15 = 0 := by decide +kernel

/-- 42_alu R162: a copy, no flag. -/
theorem test_ldReg : let t := ran (State.withRegs (start 0x8010) [(0, 1), (1, 9), (15, 3)])
    t.reg 0 = 9 ∧ t.reg 1 = 9 ∧ t.reg 15 = 3 := by decide +kernel

/-- V42.4. -/
theorem test_orReg : let t := ran (State.withRegs (start 0x8011) [(0, 0x0F), (1, 0xF0), (15, 1)])
    t.reg 0 = 0xFF ∧ t.reg 15 = 1 := by decide +kernel

/-- 42_alu R164. -/
theorem test_andReg : (ran (State.withRegs (start 0x8012) [(0, 0x3C), (1, 0x0F)])).reg 0 = 0x0C := by decide +kernel

/-- V42.5. -/
theorem test_xorReg : (ran (State.withRegs (start 0x8013) [(0, 0xFF), (1, 0x0F)])).reg 0 = 0xF0 := by decide +kernel

/-- V42.6, V42.7. -/
theorem test_addReg :
    let t := ran (State.withRegs (start 0x8014) [(0, 0xFF), (1, 1)])
    let u := ran (State.withRegs (start 0x8014) [(0, 0x80), (1, 0x7F)])
    t.reg 0 = 0 ∧ t.reg 15 = 1 ∧ u.reg 0 = 0xFF ∧ u.reg 15 = 0 := by decide +kernel

/-- V42.9, V42.10: VF as destination and as source. -/
theorem test_addReg_flag :
    (ran (State.withRegs (start 0x8F14) [(15, 0x10), (1, 0xFF)])).reg 15 = 0x0F ∧
    (ran (State.withRegs (start 0x80F4) [(0, 5), (15, 9)])).reg 0 = 0x0E := by decide +kernel

/-- V42.12, V42.13: equal operands give flag 0. -/
theorem test_subReg :
    let t := ran (State.withRegs (start 0x8015) [(0, 5), (1, 5)])
    let u := ran (State.withRegs (start 0x8015) [(0, 0), (1, 1)])
    t.reg 0 = 0 ∧ t.reg 15 = 0 ∧ u.reg 0 = 0xFF ∧ u.reg 15 = 0 := by decide +kernel

/-- V42.14, V42.15, V42.28, V42.29: VF as an operand under both readings. -/
theorem test_subReg_operand_read :
    let s := State.withRegs (start 0x8F15) [(15, 5), (1, 3)]
    let r := State.withRegs (start 0x80F5) [(0, 5), (15, 3)]
    (ran s).reg 15 = 2 ∧ (ran (withRead s .sequential)).reg 15 = 0xFE ∧
    (ran r).reg 0 = 2 ∧ (ran (withRead r .sequential)).reg 0 = 4 ∧
      (ran (withRead r .sequential)).reg 15 = 1 := by decide +kernel

/-- V42.16, V42.24. -/
theorem test_shr : (ran ((start 0x8006).setReg 0 1)).reg 0 = 0 ∧ (ran ((start 0x8006).setReg 0 1)).reg 15 = 1 ∧
    (ran ((start 0x8F06).setReg 15 4)).reg 15 = 2 := by decide +kernel

/-- V42.19, V42.20: the shift source. -/
theorem test_shr_source :
    let s := State.withRegs (start 0x8016) [(0, 2), (1, 1)]
    let r := ran { s with params := { s.params with shiftSource := .y } }
    (ran s).reg 0 = 1 ∧ (ran s).reg 15 = 0 ∧ r.reg 0 = 0 ∧ r.reg 15 = 1 := by decide +kernel

/-- V42.25, V42.27. -/
theorem test_subnReg :
    let t := ran (State.withRegs (start 0x8017) [(0, 3), (1, 5)])
    t.reg 0 = 2 ∧ t.reg 15 = 1 ∧ (ran (State.withRegs (start 0x8F17) [(15, 3), (1, 5)])).reg 15 = 2 := by decide +kernel

/-- V42.21, V42.23. -/
theorem test_shl : (ran ((start 0x800E).setReg 0 0x80)).reg 0 = 0 ∧ (ran ((start 0x800E).setReg 0 0x80)).reg 15 = 1 ∧
    (ran ((start 0x8F0E).setReg 15 0x81)).reg 15 = 2 := by decide +kernel

/-- V42.31: the byte given is masked and used up. -/
theorem test_rnd : let t := ran { start 0xC30F with random := ⟨[0xA7, 0x11], 0⟩ }
    t.reg 3 = 7 ∧ t.random = ⟨[0x11], 1⟩ ∧ t.reg 15 = 0 := by decide +kernel

/-! Index register and memory. -/

/-- V43.1. -/
theorem test_ldI : (ran (start 0xAFFF)).I = 0xFFF ∧ (ran (start 0xAFFF)).pc = 0x202 := by decide +kernel

/-- V43.3, V43.4, V43.5, V43.7. -/
theorem test_addI :
    let t := ran ({ start 0xF21E with I := 0xFFF }.setReg 2 1)
    let u := ran ({ start 0xF21E with I := 0xFFFF }.setReg 2 1)
    let v := ran ({ start 0xFF1E with I := 0x100 }.setReg 15 0x10)
    t.I = 0x1000 ∧ t.reg 15 = 1 ∧ u.I = 0 ∧ u.reg 15 = 1 ∧ v.I = 0x110 ∧ v.reg 15 = 0 ∧
      (ran ({ start 0xF21E with I := 0xF00 }.setReg 2 0xFF)).reg 15 = 0 := by decide +kernel

/-- V43.9, V43.10: not masked to a digit. -/
theorem test_ldF : (ran ((start 0xF029).setReg 0 0x10)).I = 0x50 ∧ (ran ((start 0xF029).setReg 0 0xFF)).I = 0x4FB := by
  decide +kernel

/-- V43.12. -/
theorem test_ldB : let t := ran ({ start 0xF033 with I := 0xFFD }.setReg 0 0xFF)
    t.mem.read 0xFFD = 2 ∧ t.mem.read 0xFFE = 5 ∧ t.mem.read 0xFFF = 5 ∧ t.I = 0xFFD := by decide +kernel

/-- V43.13, V43.14. -/
theorem test_ldB_out_of_range : let t := ran ({ start 0xF033 with I := 0xFFE }.setReg 0 7)
    t.fault = some ⟨.outOfRange .mem 0x1000, 0x200⟩ ∧ t.mem.read 0xFFE = 0 ∧
      (ran { start 0xF033 with I := 0x1000 }).fault = some ⟨.outOfRange .mem 0x1000, 0x200⟩ := by decide +kernel

/-- V43.15, V43.23: the registers in order; the glyph table can be overwritten (20_memory R68). -/
theorem test_store : let t := ran { State.withRegs (start 0xF255) [(0, 1), (1, 2), (2, 3), (3, 4)] with I := 0x400 }
    t.mem.read 0x400 = 1 ∧ t.mem.read 0x401 = 2 ∧ t.mem.read 0x402 = 3 ∧ t.mem.read 0x403 = 0 ∧ t.I = 0x400 ∧
      (ran (start 0xF055)).mem.read 0 = 0 := by decide +kernel

/-- V43.17, V43.18: no byte is written. -/
theorem test_store_out_of_range : let t := ran ({ start 0xFF55 with I := 0xFF1 }.setReg 0 9)
    t.fault = some ⟨.outOfRange .mem 0x1000, 0x200⟩ ∧ t.mem.read 0xFF1 = 0 ∧
      (ran { start 0xF055 with I := 0x2000 }).fault = some ⟨.outOfRange .mem 0x2000, 0x200⟩ := by decide +kernel

/-- V43.19. -/
theorem test_load : let t := ran { State.withBytes (start 0xF265) 0x300 [2, 5, 4, 9] with I := 0x300 }
    t.reg 0 = 2 ∧ t.reg 1 = 5 ∧ t.reg 2 = 4 ∧ t.reg 3 = 0 ∧ t.I = 0x300 ∧ t.pc = 0x202 := by decide +kernel

/-- V43.20, V43.21: no register is written. -/
theorem test_load_out_of_range : let t := ran ({ start 0xF265 with I := 0xFFE }.setReg 0 9)
    t.fault = some ⟨.outOfRange .mem 0x1000, 0x200⟩ ∧ t.reg 0 = 9 ∧
      (ran { start 0xF065 with I := 0x2000 }).fault = some ⟨.outOfRange .mem 0x2000, 0x200⟩ := by decide +kernel

/-! Keys and timers. -/

/-- V44.1, V44.2, V44.5. -/
theorem test_skp :
    (ran (State.withKeys ((start 0xE19E).setReg 1 5) [5])).pc = 0x204 ∧ (ran ((start 0xE19E).setReg 1 5)).pc = 0x202 ∧
    (ran ((start 0xE19E).setReg 1 16)).fault = some ⟨.outOfRange .key 16, 0x200⟩ := by decide +kernel

/-- V44.3, V44.4. -/
theorem test_sknp :
    (ran ((start 0xE1A1).setReg 1 5)).pc = 0x204 ∧ (ran (State.withKeys ((start 0xE1A1).setReg 1 5) [5])).pc = 0x202 := by
  decide +kernel

/-- V44.7: read before the decay of the same step. -/
theorem test_ldVxDT : let t := ran { startAt 0xF307 17 with dt := 0x3C }
    t.reg 3 = 0x3C ∧ t.dt = 0x3B ∧ t.lastUpdate = 17 := by decide +kernel

/-- V44.8, V44.11. -/
theorem test_ldVxK :
    let t := ran (start 0xF00A)
    let u := ran (State.withKeys (start 0xF40A) [2, 9])
    t.mode = .waitingForKey 0 ∧ t.pc = 0x200 ∧ t.reg 0 = 0 ∧ u.reg 4 = 2 ∧ u.pc = 0x202 ∧ u.mode = .running := by
  decide +kernel

/-- V44.9, V44.10: the wait, and the key that ends it. -/
theorem test_rescan :
    let w := { ran (start 0xF00A) with clock := ⟨[2], 1⟩ }
    (ran w).mode = .waitingForKey 0 ∧ (ran w).pc = 0x200 ∧
    (ran (State.withKeys w [7])).reg 0 = 7 ∧ (ran (State.withKeys w [7])).pc = 0x202 ∧
      (ran (State.withKeys w [7])).mode = .running := by decide +kernel

/-- V44.11's safe model: under `drawn` the pick decides. -/
theorem test_ldVxK_drawn :
    let s := State.withKeys (start 0xF40A) [2, 9]
    let d := { s with params := { s.params with keySelect := .drawn } }
    (ran { d with keyPick := ⟨[0], 0⟩ }).reg 4 = 2 ∧ (ran { d with keyPick := ⟨[3], 0⟩ }).reg 4 = 9 := by decide +kernel

/-- V44.14, V44.15: the value written can decay in the same step. -/
theorem test_ldDT : (ran ((startAt 0xF015 17).setReg 0 5)).dt = 4 ∧
    (ran { startAt 0xF015 17 with dt := 9 }).dt = 0 ∧ (ran ((start 0xF015).setReg 0 5)).dt = 5 := by decide +kernel

/-- V44.16. -/
theorem test_ldST : (ran ((start 0xF418).setReg 4 0x10)).st = 0x10 ∧ (ran ((start 0xF418).setReg 4 0x10)).dt = 0 := by
  decide +kernel

/-! Host operations. -/

/-- V60.12: a load changes memory only. -/
theorem test_load_image : let t := ({ start 0 with pc := 0x20A }.setReg 0 5).after (.load [0x12, 0x00])
    t.mem.read 0x200 = 0x12 ∧ t.mem.read 0x201 = 0 ∧ t.pc = 0x20A ∧ t.reg 0 = 5 := by decide +kernel

/-- V60.8, V60.9. -/
theorem test_set_key : let w := { start 0 with mode := .waitingForKey 3 }
    (w.after (.setKeyDown 4)).key[4] = true ∧ (w.after (.setKeyDown 4)).mode = .waitingForKey 3 ∧
      w.after (.setKeyDown 16) = w := by decide +kernel

/-- 60_exceptions R231: the kind and code of each error an operation returns, host operations among them. -/
theorem test_error_codes :
    (State.reset.returned (.load (List.replicate 3585 0)) = some (.outOfRange .load 3585) ∧
      errorCode (State.reset.returned (.load (List.replicate 3585 0))) = 1) ∧
    (State.reset.returned (.setKeyUp 16) = some (.outOfRange .key 16) ∧ errorCode (State.reset.returned (.setKeyUp 16)) = 1) ∧
    errorCode ((start 0x0123).returned (.step 1)) = 2 ∧ errorCode ({ start 0x2400 with sp := 16 }.returned (.step 1)) = 3 ∧
    errorCode ((start 0x00EE).returned (.step 1)) = 4 ∧ errorCode ((start 0x6005).returned (.step 1)) = 0 := by
  decide +kernel

/-- V60.10. -/
theorem test_clear_draw_pending : ({ start 0 with dirty := true }.after .clearDrawPending).dirty = false := by decide +kernel

/-- V60.13, V60.14. -/
theorem test_reset :
    let s := { start 0x1234 with mode := .waitingForKey 2, fault := some ⟨.stackUnderflow 1, 1⟩, dt := 9 }
    let t := s.after (.reset 500)
    t = { State.reset with lastUpdate := 500, clock := s.clock } ∧ t.after (.reset 500) = t := by decide +kernel

/-! Witnesses: the hypotheses of each obligation, met at the boundary of each clause. -/

/-- A sprite bit of `Covered`, at sprite row 0 and column 0. -/
theorem covered_origin {s : State} {x y : RegIdx} {n : Nibble} (hn : 0 < n.toNat) (hx : s.reg x = 0) (hy : s.reg y = 0)
    (hb : (s.mem.read s.I.toNat).getLsbD 7 = true) : Covered s x y n 0 0 :=
  ⟨0, 0, hn, by decide, by simp [hy], by simp [hx], by simpa using hb⟩

theorem reset_inv : State.reset.Inv :=
  ⟨Memory.reset_wf, by decide, by decide, fun _ h => by cases h⟩

theorem witness_LoadCopiesOrFails :
    0x200 + (List.replicate 3584 (0 : Byte)).length ≤ 4096 ∧ 0x200 + (List.replicate 3585 (0 : Byte)).length > 4096 ∧
    0x200 + ([] : List Byte).length ≤ 4096 ∧ 3582 + 1 < (List.replicate 3584 (0 : Byte)).length := by
  simp only [List.length_replicate, List.length_nil]; omega

theorem witness_KeySettersAndHostReads :
    15 < 16 ∧ (14 : KeyIdx).val ≠ 15 ∧ State.reset.key[15] = false ∧ (16 : Nat) ≤ 16 := by decide

theorem witness_LaunchStateHoldsTheProgram :
    (List.replicate 3584 (0 : Byte)).length ≤ 3584 ∧ ([] : List Byte).length ≤ 3584 ∧
    (80 ≤ 0x1FF ∧ 0x1FF < 0x200) ∧ (80 ≤ 0x200 ∧ 0x200 + ([] : List Byte).length ≤ 0x200) := by
  simp only [List.length_replicate, List.length_nil]; omega

theorem witness_OpcodeMapRows :
    (0x00E0 : Word) &&& 0xFFFF = 0x00E0 ∧ (0x00EE : Word) &&& 0xFFFF = 0x00EE ∧ (0x1FFF : Word) &&& 0xF000 = 0x1000 ∧
    (0x2FFF : Word) &&& 0xF000 = 0x2000 ∧ (0x3FFF : Word) &&& 0xF000 = 0x3000 ∧ (0x4FFF : Word) &&& 0xF000 = 0x4000 ∧
    (0x5FF0 : Word) &&& 0xF00F = 0x5000 ∧ (0x6FFF : Word) &&& 0xF000 = 0x6000 ∧ (0x7FFF : Word) &&& 0xF000 = 0x7000 ∧
    (0x8FF0 : Word) &&& 0xF00F = 0x8000 ∧ (0x8FF1 : Word) &&& 0xF00F = 0x8001 ∧ (0x8FF2 : Word) &&& 0xF00F = 0x8002 ∧
    (0x8FF3 : Word) &&& 0xF00F = 0x8003 ∧ (0x8FF4 : Word) &&& 0xF00F = 0x8004 ∧ (0x8FF5 : Word) &&& 0xF00F = 0x8005 ∧
    (0x8FF6 : Word) &&& 0xF00F = 0x8006 ∧ (0x8FF7 : Word) &&& 0xF00F = 0x8007 ∧ (0x8FFE : Word) &&& 0xF00F = 0x800E ∧
    (0x9FF0 : Word) &&& 0xF00F = 0x9000 ∧ (0xAFFF : Word) &&& 0xF000 = 0xA000 ∧ (0xBFFF : Word) &&& 0xF000 = 0xB000 ∧
    (0xCFFF : Word) &&& 0xF000 = 0xC000 ∧ (0xDFFF : Word) &&& 0xF000 = 0xD000 ∧ (0xEF9E : Word) &&& 0xF0FF = 0xE09E ∧
    (0xEFA1 : Word) &&& 0xF0FF = 0xE0A1 ∧ (0xFF07 : Word) &&& 0xF0FF = 0xF007 ∧ (0xFF0A : Word) &&& 0xF0FF = 0xF00A ∧
    (0xFF15 : Word) &&& 0xF0FF = 0xF015 ∧ (0xFF18 : Word) &&& 0xF0FF = 0xF018 ∧ (0xFF1E : Word) &&& 0xF0FF = 0xF01E ∧
    (0xFF29 : Word) &&& 0xF0FF = 0xF029 ∧ (0xFF33 : Word) &&& 0xF0FF = 0xF033 ∧ (0xFF55 : Word) &&& 0xF0FF = 0xF055 ∧
    (0xFF65 : Word) &&& 0xF0FF = 0xF065 := by decide

theorem witness_IllegalWordsAreUnknown : Word.wellFormed 0xFF65 = true ∧ Word.wellFormed 0xFF66 = false := by decide

theorem witness_EncodeOfDecode : decodeWord 0x8AB6 = .ok (.shr 10 11) := by decide

theorem witness_FetchReadsOrReportsAddress :
    ({ start 0 with pc := 4094 }.pc.toNat ≤ 4094) ∧ ({ start 0 with pc := 4095 }.pc.toNat = 4095) ∧
    ({ start 0 with pc := 4096 }.pc.toNat > 4095) := by decide +kernel

/-- Both endings: an instruction that reports no error and one that does. -/
theorem witness_StepRunsDecodedInstruction :
    ((start 0x6005).mode = .running ∧ (start 0x6005).fetch = .ok 0x6005 ∧ decodeWord 0x6005 = .ok (.ldImm 0 5) ∧
      (∃ t, exec (.ldImm 0 5) { start 0x6005 with report := none } = .next t ∧ t.report = none)) ∧
    ((start 0x00EE).fetch = .ok 0x00EE ∧ decodeWord 0x00EE = .ok .ret ∧
      (∃ t, exec .ret { start 0x00EE with report := none } = .next t ∧ t.report ≠ none)) :=
  ⟨⟨by decide +kernel, by decide +kernel, by decide, _, rfl, rfl⟩,
    ⟨by decide +kernel, by decide, _, rfl, by decide +kernel⟩⟩

theorem witness_StepReportsFetchAndDecodeErrors :
    ({ start 0 with pc := 4095 }.mode = .running ∧ { start 0 with pc := 4095 }.fetch = .error (.outOfRange .mem 4096)) ∧
    State.reset.mode = .running ∧ State.reset.fetch = .ok 0 ∧ Word.wellFormed 0 = false := by decide +kernel

theorem witness_WaitingStepScansKeys :
    let w := { start 0xF30A with mode := .waitingForKey 3 }
    w.mode = .waitingForKey 3 ∧ (∀ k : KeyIdx, w.key[k] = false) ∧ (State.withKeys w [15]).mode = .waitingForKey 3 ∧
      (State.withKeys w [15]).key[15] = true := by decide +kernel

/-- A step that reports an error. -/
theorem witness_FaultingStepCommitsNothing :
    step (start 0x00EE) = .next (ran (start 0x00EE)) ∧
      (ran (start 0x00EE)).report = some ⟨.stackUnderflow 0x200, 0x200⟩ := ⟨rfl, by decide +kernel⟩

theorem witness_FirstFaultIsKept : step (start 0x00EE) = .next (ran (start 0x00EE)) := rfl

theorem witness_RepeatedStepRaisesSameError :
    step (start 0x0123) = .next (ran (start 0x0123)) ∧
      (ran (start 0x0123)).report = some ⟨.unknownInstruction 0x0123, 0x200⟩ := ⟨rfl, by decide +kernel⟩

theorem witness_TimerGateAtEndOfStep :
    ((startAt 0 17).report = none ∧ (startAt 0 17).now - (startAt 0 17).lastUpdate ≥ (startAt 0 17).params.timerPeriod) ∧
    ((startAt 0 16).report = none ∧ (startAt 0 16).now - (startAt 0 16).lastUpdate < (startAt 0 16).params.timerPeriod) ∧
    ((start 0x00EE).raise (.stackUnderflow 0x200)).report ≠ none := by decide +kernel

/-- A running step that runs neither LD DT nor LD ST, and a waiting step at an LD DT word, which it does not fetch. -/
theorem witness_TimersDecayTogether :
    (step (startAt 0x6000 17) = .next (ran (startAt 0x6000 17)) ∧
      ∀ x, (startAt 0x6000 17).mode = .running →
        (startAt 0x6000 17).fetchInstr ≠ .ok (.ldDT x) ∧ (startAt 0x6000 17).fetchInstr ≠ .ok (.ldST x)) ∧
    (let w := { startAt 0xF015 17 with mode := .waitingForKey 0 }; step w = .next (ran w) ∧
        ∀ x, w.mode = .running → w.fetchInstr ≠ .ok (.ldDT x) ∧ w.fetchInstr ≠ .ok (.ldST x)) :=
  ⟨⟨rfl, by decide +kernel⟩, rfl, fun _ h => by cases h⟩

/-- Sprites that end at the last byte, with a covered pixel that is set and with none set; and a sprite of no rows anywhere. -/
theorem witness_DrwXorsTheWrappedSprite :
    ((start 0).params.operandRead = .latched ∧ InRange { start 0 with I := 4081 } (15 : Nibble).toNat) ∧
    InRange { start 0 with I := 0xFFFF } (0 : Nibble).toNat ∧
    (∃ r c, Covered { start 0 with fb := pixelSet blankFramebuffer 0 0 true } 0 1 1 r c ∧
      pixelGet (pixelSet blankFramebuffer 0 0 true) r c = true) ∧
    (Covered (start 0) 0 1 1 0 0 ∧ ∀ r c, Covered (start 0) 0 1 1 r c → pixelGet (start 0).fb r c = false) ∧
    ¬ Covered (start 0) 0 1 0 0 0 :=
  ⟨⟨rfl, .inr (by decide)⟩, .inl (by decide),
    ⟨0, 0, covered_origin (by decide) (by decide +kernel) (by decide +kernel) (by decide +kernel), by decide +kernel⟩,
    ⟨covered_origin (by decide) (by decide +kernel) (by decide +kernel) (by decide +kernel),
      fun r c _ => by
        have : (start 0).fb = blankFramebuffer := rfl
        simp [this, pixelGet, blankFramebuffer]⟩,
    fun ⟨k, _, hk, _⟩ => by simp at hk⟩

/-- Sprites that end at the last byte; X = 15 over pixels that are all unset, with a pixel it covers and one it does not. -/
theorem witness_DrwReadingsAgreeOffTheFlag :
    InRange { start 0 with I := 4081 } (15 : Nibble).toNat ∧ (0 : RegIdx) ≠ 15 ∧ (14 : RegIdx) ≠ 15 ∧
    (InRange ((start 0).setReg 15 5) (1 : Nibble).toNat ∧
      (∀ r c, Covered (((start 0).setReg 15 5).setReg 15 0) 15 0 1 r c → pixelGet ((start 0).setReg 15 5).fb r c = false) ∧
      Covered (((start 0).setReg 15 5).setReg 15 0) 15 0 1 0 0 ∧
      ¬ Covered (((start 0).setReg 15 5).setReg 15 0) 15 0 1 1 0) :=
  ⟨.inr (by decide), by decide, by decide, .inr (by decide),
    fun r c _ => by
      show pixelGet blankFramebuffer r c = false
      simp [pixelGet, blankFramebuffer],
    covered_origin (by decide) (by decide +kernel) (by decide +kernel) (by decide +kernel),
    fun ⟨k, _, hk, _, hr, _⟩ => by
      have h0 : (((start 0).setReg 15 5).setReg 15 0).reg 0 = 0 := by decide +kernel
      obtain rfl : k = 0 := by simpa using hk
      rw [h0] at hr
      exact absurd hr (by decide)⟩

/-- The first row out of range, and a later one. -/
theorem witness_DrwReportsLowestRowOutOfRange :
    (0 < (1 : Nibble).toNat ∧ { start 0 with I := 4096 }.I.toNat + 0 > 4095 ∧
      ∀ r' < 0, { start 0 with I := 4096 }.I.toNat + r' ≤ 4095) ∧
    (14 < (15 : Nibble).toNat ∧ { start 0 with I := 4082 }.I.toNat + 14 > 4095 ∧
      ∀ r' < 14, { start 0 with I := 4082 }.I.toNat + r' ≤ 4095) := by
  refine ⟨⟨by decide, by decide, by decide⟩, by decide, by decide, fun r h => ?_⟩
  show 4082 + r ≤ 4095
  omega

theorem witness_DrawingTwiceErases :
    (start 0).params.operandRead = .latched ∧ InRange (start 0) (1 : Nibble).toNat ∧ (0 : RegIdx) ≠ 15 ∧ (14 : RegIdx) ≠ 15 ∧
      (start 0).fb = blankFramebuffer ∧ ∃ r c, Covered (start 0) 0 14 1 r c :=
  ⟨rfl, .inr (by decide), by decide, by decide, rfl, 0, 0,
    covered_origin (by decide) (by decide +kernel) (by decide +kernel) (by decide +kernel)⟩

theorem witness_RetPopsOrUnderflows :
    0 < { start 0 with sp := 1 }.sp.val ∧ 0 < { start 0 with sp := 16 }.sp.val ∧ (start 0).sp.val = 0 := by decide

theorem witness_CallPushesOrOverflows :
    (start 0).sp.val < 16 ∧ { start 0 with sp := 15 }.sp.val < 16 ∧ (14 : Fin 16).val ≠ { start 0 with sp := 15 }.sp.val ∧
      { start 0 with sp := 16 }.sp.val = 16 := by decide

theorem witness_CallThenRetReturns :
    { start 0 with sp := 15 }.sp.val < 16 ∧ (14 : Fin 16).val ≠ { start 0 with sp := 15 }.sp.val := by decide

theorem witness_SubAndSubnWriteDifferenceAndNoBorrow : (start 0).params.operandRead = .latched := rfl

theorem witness_ShiftsWriteShiftedAndBitOut : (start 0).params.operandRead = .latched := rfl

/-- Each case of the table of 42_alu R176. -/
theorem witness_SequentialReadingResults :
    (withRead (start 0) .sequential).params.operandRead = .sequential ∧
    (withRead (start 0) .sequential).params.shiftSource = .x ∧ ((15 : RegIdx) = 15 ∧ (14 : RegIdx) ≠ 15) := by decide

theorem witness_SequentialShiftsOfY :
    let s := { start 0 with params := { (start 0).params with operandRead := .sequential, shiftSource := .y } }
    s.params.operandRead = .sequential ∧ s.params.shiftSource = .y ∧ (15 : RegIdx) = 15 ∧ (14 : RegIdx) ≠ 15 := by decide

theorem witness_RndMasksOneDrawnByte :
    (0 : Byte) = 0 ∧ { start 0 with random := ⟨[0xA7], 0⟩ }.random.queue = 0xA7 :: [] := ⟨rfl, rfl⟩

theorem witness_LdBStoresDecimalDigits :
    { start 0 with I := 4093 }.I.toNat + 2 ≤ 4095 ∧ { start 0 with I := 4094 }.I.toNat + 2 > 4095 ∧
    (4092 < 4093 ∨ 4093 + 2 < 4092) := by decide

theorem witness_StoreWritesRegistersToMemory :
    { start 0 with I := 4080 }.I.toNat + (15 : RegIdx).val ≤ 4095 ∧
    { start 0 with I := 4081 }.I.toNat + (15 : RegIdx).val > 4095 ∧ (15 : RegIdx).val ≤ (15 : RegIdx).val ∧
    (4079 < 4080 ∨ 4080 + 15 < 4079) := by decide

theorem witness_LoadReadsRegistersFromMemory :
    { start 0 with I := 4081 }.I.toNat + (14 : RegIdx).val ≤ 4095 ∧
    { start 0 with I := 4082 }.I.toNat + (14 : RegIdx).val > 4095 ∧ (14 : RegIdx).val ≤ (14 : RegIdx).val ∧
    (14 : RegIdx).val < (15 : RegIdx).val := by decide

theorem witness_LoadRestoresWhatStoreSaved :
    { start 0 with I := 4080 }.I.toNat + (15 : RegIdx).val ≤ 4095 ∧ (15 : RegIdx).val ≤ (15 : RegIdx).val := by decide

/-- Stores that end at the last byte, and a later state with their memory: its `pc` at each end of what a clause admits. -/
theorem witness_StoredBytesAreFetched :
    (let s := { start 0 with I := 4080 }; let t := execed (.store 15) s
      s.I.toNat + (15 : RegIdx).val ≤ 4095 ∧ exec (.store 15) s = .next t ∧ { t with pc := 4094 }.mem = t.mem ∧
        { t with pc := 4094 }.pc.toNat ≤ 4094 ∧ (14 : RegIdx).val < (15 : RegIdx).val ∧
        { t with pc := 4094 }.pc.toNat = s.I.toNat + (14 : RegIdx).val ∧ { t with pc := 4080 }.pc.toNat = s.I.toNat + 0) ∧
    (let s := { start 0 with I := 4093 }; let t := execed (.ldB 3) s
      s.I.toNat + 2 ≤ 4095 ∧ exec (.ldB 3) s = .next t ∧ { t with pc := 4092 }.pc.toNat ≤ 4094 ∧
        { t with pc := 4093 }.pc.toNat = s.I.toNat ∧ { t with pc := 4094 }.pc.toNat = s.I.toNat + 1) :=
  ⟨⟨by decide, rfl, rfl, by decide, by decide, by decide, by decide⟩, by decide, rfl, by decide, by decide, by decide⟩

theorem witness_KeySkips : (((start 0).setReg 1 15).reg 1).toNat < 16 ∧ 15 < (((start 0).setReg 1 16).reg 1).toNat := by
  decide +kernel

theorem witness_TimerTransfers :
    (start 0).mode = .running ∧
    (step (startAt 0xF307 17) = .next (ran (startAt 0xF307 17)) ∧ (startAt 0xF307 17).fetchInstr = .ok (.ldVxDT 3)) ∧
    (step (startAt 0xF315 17) = .next (ran (startAt 0xF315 17)) ∧ (startAt 0xF315 17).fetchInstr = .ok (.ldDT 3)) ∧
    (step (startAt 0xF318 17) = .next (ran (startAt 0xF318 17)) ∧ (startAt 0xF318 17).fetchInstr = .ok (.ldST 3)) :=
  ⟨rfl, ⟨rfl, by decide +kernel⟩, ⟨rfl, by decide +kernel⟩, rfl, by decide +kernel⟩

theorem witness_LdVxKTakesAKeyOrWaits :
    (∀ k : KeyIdx, (start 0).key[k] = false) ∧ (∃ k : KeyIdx, (State.withKeys (start 0) [15]).key[k] = true) ∧
      (start 0).params.keySelect = .lowest := by decide +kernel

/-- Several keys pressed under each policy, and one key alone. -/
theorem witness_KeySelectPicksAPressedKey :
    let s := State.withKeys (start 0) [2, 9]
    (s.key[2] = true ∧ s.params.keySelect = .lowest ∧ ∀ j : KeyIdx, s.key[j] = true → 2 ≤ j) ∧
    (s.key[9] = true ∧ { s with params := { s.params with keySelect := .drawn } }.params.keySelect = .drawn) ∧
    (∀ j : KeyIdx, (State.withKeys (start 0) [15]).key[j] = true → j = 15) := by decide +kernel

theorem witness_StepKeepsInvariant : State.reset.Inv ∧ step State.reset = .next (ran State.reset) := ⟨reset_inv, rfl⟩

theorem witness_EveryHostRunKeepsInvariant : State.reset.Inv := reset_inv

theorem witness_WaitingKeepsItsWord :
    let w := { start 0xF30A with mode := .waitingForKey 3 }
    w.WaitsAtItsWord ∧ step w = .next (ran w) :=
  ⟨fun t h => by cases h; decide +kernel, rfl⟩

theorem witness_NewPcOfEveryInstruction :
    ((start 0).report = none ∧ exec (.jp 0x345) (start 0) = .next (execed (.jp 0x345) (start 0)) ∧
      (execed (.jp 0x345) (start 0)).report = none) ∧
    (exec .ret (start 0) = .next (execed .ret (start 0)) ∧ (execed .ret (start 0)).report ≠ none) :=
  ⟨⟨rfl, rfl, rfl⟩, rfl, by decide +kernel⟩

theorem witness_OnlyTabledRegistersChange :
    exec (.ldImm 3 7) (start 0) = .next (execed (.ldImm 3 7) (start 0)) ∧
      (execed (.ldImm 3 7) (start 0)).reg 3 ≠ (start 0).reg 3 := ⟨rfl, by decide +kernel⟩

theorem witness_OnlyClsAndDrwTouchTheDisplay :
    (step (start 0x00E0) = .next (ran (start 0x00E0)) ∧ (ran (start 0x00E0)).dirty ≠ (start 0x00E0).dirty) ∧
    (let s := { start 0x00E0 with dirty := true, fb := pixelSet blankFramebuffer 0 0 true };
      s.dirty = true ∧ step s = .next (ran s) ∧ (ran s).fb ≠ s.fb) :=
  ⟨⟨rfl, by decide +kernel⟩, rfl, rfl, by decide +kernel⟩

theorem witness_OnlyTheHostWritesTheLatch : (State.reset.after (.setKeyDown 15)).key ≠ State.reset.key := by decide +kernel

theorem witness_OnlyIndexInstructionsWriteI :
    step (start 0xA123) = .next (ran (start 0xA123)) ∧ (ran (start 0xA123)).I ≠ (start 0xA123).I := ⟨rfl, by decide +kernel⟩

theorem witness_OnlyCallAndRetReachTheStack :
    step (start 0x2400) = .next (ran (start 0x2400)) ∧ (ran (start 0x2400)).sp ≠ (start 0x2400).sp ∧
      (0 : Fin 16).val < { start 0x2400 with sp := 1 }.sp.val := ⟨rfl, by decide +kernel, by decide⟩

theorem witness_ModeTransitions :
    (step (start 0xF30A) = .next (ran (start 0xF30A)) ∧ (start 0xF30A).mode = .running ∧
      (ran (start 0xF30A)).mode = .waitingForKey 3) ∧
    (let w := { start 0xF30A with mode := .waitingForKey 3 };
      step w = .next (ran w) ∧ w.mode = .waitingForKey 3 ∧ (State.withKeys w [15]).mode = .waitingForKey 3 ∧
        step (State.withKeys w [15]) = .next (ran (State.withKeys w [15])) ∧
        ∃ k : KeyIdx, (State.withKeys w [15]).key[k] = true) :=
  ⟨⟨rfl, rfl, by decide +kernel⟩, rfl, rfl, rfl, rfl, by decide +kernel⟩

theorem witness_OnlyStoresWriteMemory :
    let s := { start 0xF033 with I := 0xFFD }.setReg 0 0xFF
    step s = .next (ran s) ∧ (ran s).mem.read 0xFFF ≠ s.mem.read 0xFFF := ⟨rfl, by decide +kernel⟩

theorem witness_SoundTimerIsNeverRead : step (start 0xF318) = .next (ran (start 0xF318)) := rfl

/-- A stack entry that has been popped differs; the entry that is live does not. -/
theorem witness_PoppedEntriesAreNeverObserved :
    let s := { start 0x00EE with sp := 1, stack := State.reset.stack.set 0 0x202 }
    SameButDeadEntries s { s with stack := s.stack.set 1 0x345 } ∧ step s = .next (ran s) :=
  ⟨⟨rfl, by decide +kernel⟩, rfl⟩

/-- Halted at the program origin, and at the last address a word can be fetched from. -/
theorem witness_HaltedStateStays :
    (start 0x1200).haltedAt 0x200 ∧ (State.withBytes { start 0 with pc := 4094 } 4094 [0x1F, 0xFE]).haltedAt 4094 :=
  ⟨⟨rfl, rfl, rfl, by decide, by decide +kernel⟩, rfl, rfl, rfl, by decide, by decide +kernel⟩

end Sys2Proof.Tests
end

section
/-!
PROOFS. What a step leaves of each component, said once: the end of a step, the re-scan of a waiting step, and the frame of an
instruction's effect. The statements about the state (10_state) follow from these by `step_cases`.
-/
namespace Sys2Proof.Machine

/-! The end of a step leaves everything but the timers, the time of the last decay and the clock input. -/

@[simp] theorem State.endStep_mem (s : State) : s.endStep.mem = s.mem := by rw [endStep_frame]
@[simp] theorem State.endStep_regs (s : State) : s.endStep.regs = s.regs := by rw [endStep_frame]
@[simp] theorem State.endStep_I (s : State) : s.endStep.I = s.I := by rw [endStep_frame]
@[simp] theorem State.endStep_pc (s : State) : s.endStep.pc = s.pc := by rw [endStep_frame]
@[simp] theorem State.endStep_stack (s : State) : s.endStep.stack = s.stack := by rw [endStep_frame]
@[simp] theorem State.endStep_sp (s : State) : s.endStep.sp = s.sp := by rw [endStep_frame]
@[simp] theorem State.endStep_fb (s : State) : s.endStep.fb = s.fb := by rw [endStep_frame]
@[simp] theorem State.endStep_dirty (s : State) : s.endStep.dirty = s.dirty := by rw [endStep_frame]
@[simp] theorem State.endStep_key (s : State) : s.endStep.key = s.key := by rw [endStep_frame]
@[simp] theorem State.endStep_mode (s : State) : s.endStep.mode = s.mode := by rw [endStep_frame]
@[simp] theorem State.endStep_fault (s : State) : s.endStep.fault = s.fault := by rw [endStep_frame]
@[simp] theorem State.endStep_report (s : State) : s.endStep.report = s.report := by rw [endStep_frame]

@[simp] theorem State.selectedKey_beginStep (s : State) : s.beginStep.selectedKey = s.selectedKey := rfl

/-- Reporting an error keeps the first record and makes one where there was none (60_exceptions R232). -/
theorem raise_fault_eq_or (s : State) (e : Error) : (s.raise e).fault = s.fault.or (some ⟨e, s.pc⟩) := by
  rw [State.raise_fault]
  cases s.fault <;> rfl

/-- Everything a re-scan can do: nothing, with no key pressed; or take the selected key and run again (30_encoding R101). -/
theorem rescan_cases (s : State) (x : RegIdx) :
    (s.selectedKey = none ∧ s.rescan x = s) ∨
      ∃ k, s.selectedKey = some k ∧
        s.rescan x = { s with keyPick := s.keyPick.next, regs := s.regs.set x (BitVec.ofNat 8 k.val), pc := s.pc + 2,
                              mode := .running } := by
  unfold State.rescan
  rcases takeKey_cases s x with ⟨htake, hsel⟩ | ⟨k, hsel, htake⟩
  · exact .inl ⟨hsel, by rw [htake]⟩
  · exact .inr ⟨k, hsel, by rw [htake]; rfl⟩

/-- A re-scan changes at most the registers, `pc`, the mode and the key choices left. -/
theorem rescan_frame (s : State) (x : RegIdx) :
    s.rescan x = { s with keyPick := (s.rescan x).keyPick, regs := (s.rescan x).regs, pc := (s.rescan x).pc,
                          mode := (s.rescan x).mode } := by
  rcases rescan_cases s x with ⟨_, h⟩ | ⟨k, _, h⟩ <;> rw [h]

@[simp] theorem State.rescan_mem (s : State) (x : RegIdx) : (s.rescan x).mem = s.mem := by rw [rescan_frame]
@[simp] theorem State.rescan_I (s : State) (x : RegIdx) : (s.rescan x).I = s.I := by rw [rescan_frame]
@[simp] theorem State.rescan_stack (s : State) (x : RegIdx) : (s.rescan x).stack = s.stack := by rw [rescan_frame]
@[simp] theorem State.rescan_sp (s : State) (x : RegIdx) : (s.rescan x).sp = s.sp := by rw [rescan_frame]
@[simp] theorem State.rescan_fb (s : State) (x : RegIdx) : (s.rescan x).fb = s.fb := by rw [rescan_frame]
@[simp] theorem State.rescan_dirty (s : State) (x : RegIdx) : (s.rescan x).dirty = s.dirty := by rw [rescan_frame]
@[simp] theorem State.rescan_key (s : State) (x : RegIdx) : (s.rescan x).key = s.key := by rw [rescan_frame]
@[simp] theorem State.rescan_fault (s : State) (x : RegIdx) : (s.rescan x).fault = s.fault := by rw [rescan_frame]

/-- Component by component, what an instruction that completes at `t` may change off the registers and `pc`: either nothing,
or it is one of the instructions the rule of that component names. -/
structure Frame (i : Instr) (s t : State) : Prop where
  /-- 10_state R34. -/
  key : t.key = s.key
  /-- 10_state R32, R33. -/
  display : (t.fb = s.fb ∧ t.dirty = s.dirty) ∨ (t.dirty = true ∧ (i = .cls ∨ ∃ x y n, i = .drw x y n))
  /-- 10_state R27. -/
  index : t.I = s.I ∨ (∃ nnn, i = .ldI nnn) ∨ ∃ x, i = .addI x ∨ i = .ldF x
  /-- 10_state R29. -/
  callStack : (t.sp = s.sp ∧ t.stack = s.stack) ∨ (i = .ret ∧ t.sp.val + 1 = s.sp.val ∧ t.stack = s.stack) ∨
    ((∃ nnn, i = .call nnn) ∧ t.sp.val = s.sp.val + 1 ∧ ∃ h : s.sp.val < 16, t.stack = s.stack.set s.sp.val (s.pc + 2))
  /-- 10_state R35. -/
  mode : t.mode = s.mode ∨ ∃ x, i = .ldVxK x ∧ s.selectedKey = none ∧ t.mode = .waitingForKey x ∧ t.pc = s.pc
  /-- 20_memory R60. -/
  memory : t.mem = s.mem ∨ ((∃ x, i = .ldB x ∨ i = .store x) ∧ ∃ bs : List Byte, bs.length ≤ 16 ∧
    s.I.toNat + bs.length ≤ 4096 ∧ t.mem = s.mem.writeAll s.I.toNat bs)

theorem Effect.frame {i : Instr} {s t : State} (h : Effect i s t) : Frame i s t := by
  cases i <;> simp only [Effect] at h
  case ret =>
    obtain ⟨hsp, rfl⟩ := h
    have : s.sp.val - 1 + 1 = s.sp.val := by omega
    constructor <;> simp [this]
  case call nnn =>
    obtain ⟨hsp, rfl⟩ := h
    constructor <;> simp [hsp]
  case drw x y n =>
    rw [h.2]
    constructor <;> simp
  case ldVxK x =>
    rcases h with ⟨hsel, rfl⟩ | ⟨k, _, rfl⟩
    · constructor <;> simp [hsel]
    · constructor <;> simp
  case ldB x =>
    obtain ⟨hI, rfl⟩ := h
    exact ⟨rfl, .inl ⟨rfl, rfl⟩, .inl rfl, .inl ⟨rfl, rfl⟩, .inl rfl,
      .inr ⟨⟨x, .inl rfl⟩, bcdDigits (s.reg x), by simp [bcdDigits], by simp [bcdDigits]; omega, rfl⟩⟩
  case store x =>
    obtain ⟨hI, rfl⟩ := h
    exact ⟨rfl, .inl ⟨rfl, rfl⟩, .inl rfl, .inl ⟨rfl, rfl⟩, .inl rfl,
      .inr ⟨⟨x, .inr rfl⟩, registersUpTo s x, by simp, by simp; omega, rfl⟩⟩
  case load x =>
    obtain ⟨bs, -, rfl⟩ := h
    constructor <;> simp
  case addReg | subReg | subnReg | shr | shl =>
    obtain ⟨f, v, rfl⟩ := h
    constructor <;> simp
  case skp | sknp | ldImm | addImm | ldReg | orReg | andReg | xorReg | ldVxDT | rnd | addI =>
    obtain ⟨_, rfl⟩ := h
    constructor <;> simp
  case cls | jp | jpV0 | seImm | sneImm | seReg | sneReg | ldI | ldF | ldDT | ldST =>
    subst h
    constructor <;> simp

end Sys2Proof.Machine
end

section
/-!
PROOFS. Where an instruction goes (10_state R24) and which registers it writes (10_state R23).
-/
open Sys2Proof.Claims

namespace Sys2Proof.Machine

/-- A fetched instruction lies at `pc` and `pc + 1`, so `pc` is at most 4094 (30_encoding R91). -/
theorem pc_le_of_fetchInstr {s : State} {i : Instr} (h : s.fetchInstr = .ok i) : s.pc.toNat ≤ 4094 := by
  by_contra hpc
  have hfetch : ∃ e, s.fetch = .error e := by
    simp only [State.fetch, memRead_eq]
    by_cases h1 : s.pc.toNat < 4096
    · exact ⟨_, by rw [if_pos h1, if_neg (by omega)]⟩
    · exact ⟨_, by rw [if_neg h1]⟩
  obtain ⟨e, he⟩ := hfetch
  rw [State.fetchInstr, he] at h
  cases h

/-- The latch holds a pressed key exactly when a key is selected. -/
theorem contains_true_iff_selectedKey (s : State) : s.key.toList.contains true = true ↔ s.selectedKey ≠ none := by
  simp [selectedKey_none, List.mem_iff_getElem, Fin.exists_iff]

/-- The latch entry SKP and SKNP read, as the table of 10_state R24 names it. -/
theorem getD_key_toList (s : State) {k : Nat} (hk : k < 16) : s.key.toList.getD k false = s.key[k] := by
  rw [List.getD_eq_getElem _ _ (by simpa using hk), Vector.getElem_toList]

/-- The new `pc` of an instruction that skips or not, modulo 65536. -/
theorem toNat_skip (pc : Word) (c : Prop) [Decidable c] (a b : Word) :
    (if c then pc + a else pc + b).toNat = (pc.toNat + if c then a.toNat else b.toNat) % 65536 := by
  split <;> exact BitVec.toNat_add _ _

/-- An instruction that completes goes where the table of 10_state R24 sends it. -/
theorem Effect.pc_toNat {i : Instr} {s t : State} (h : Effect i s t) : t.pc.toNat = newPc i s % 65536 := by
  cases i <;> simp only [Effect] at h
  case ret =>
    obtain ⟨hsp, rfl⟩ := h
    have hlen : s.sp.val - 1 < s.stack.toList.length := by simp; omega
    simp only [newPc, List.getD_eq_getElem _ _ hlen, Vector.getElem_toList]
    exact (Nat.mod_eq_of_lt (BitVec.isLt _)).symm
  case jp nnn =>
    subst h
    simp [newPc, addressOf]
  case call nnn =>
    obtain ⟨hsp, rfl⟩ := h
    simp [newPc, addressOf]
  case jpV0 nnn =>
    subst h
    simp [newPc, offsetTarget]
  case seImm | seReg =>
    subst h
    exact toNat_skip s.pc _ 4 2
  case sneImm | sneReg =>
    subst h
    exact toNat_skip s.pc _ 2 4
  case skp x =>
    obtain ⟨hk, rfl⟩ := h
    rw [newPc, getD_key_toList s hk]
    exact toNat_skip s.pc _ 4 2
  case sknp x =>
    obtain ⟨hk, rfl⟩ := h
    rw [newPc, getD_key_toList s hk]
    exact toNat_skip s.pc _ 2 4
  case ldVxK x =>
    rcases h with ⟨hsel, rfl⟩ | ⟨k, hsel, rfl⟩
    · have : s.key.toList.contains true = false := by simpa [hsel] using contains_true_iff_selectedKey s
      simp only [newPc, this]
      exact (Nat.mod_eq_of_lt (BitVec.isLt _)).symm
    · have : s.key.toList.contains true = true := (contains_true_iff_selectedKey s).mpr (by simp [hsel])
      simp only [newPc, this]
      exact BitVec.toNat_add _ _
  case drw =>
    rw [h.2]
    exact BitVec.toNat_add _ _
  case ldB | store =>
    rw [h.2]
    exact BitVec.toNat_add _ _
  case load =>
    obtain ⟨bs, -, rfl⟩ := h
    exact BitVec.toNat_add _ _
  case addReg | subReg | subnReg | shr | shl =>
    obtain ⟨f, v, rfl⟩ := h
    exact BitVec.toNat_add _ _
  case ldImm | addImm | ldReg | orReg | andReg | xorReg | ldVxDT | rnd | addI =>
    obtain ⟨_, rfl⟩ := h
    exact BitVec.toNat_add _ _
  case cls | ldI | ldF | ldDT | ldST =>
    subst h
    exact BitVec.toNat_add _ _

/-- An instruction that completes changes only registers the table of 10_state R23 gives it. -/
theorem Effect.reg_of_not_written {i : Instr} {s t : State} {j : RegIdx} (h : Effect i s t) (hj : j ∉ writtenRegs i) :
    t.reg j = s.reg j := by
  cases i <;> simp only [Effect] at h <;> simp only [writtenRegs, List.mem_cons, List.not_mem_nil, or_false, not_or] at hj
  case drw => exact h.1 j hj
  case addI x =>
    obtain ⟨f, rfl⟩ := h
    exact State.reg_setReg_other s f hj
  case ldVxK x =>
    rcases h with ⟨_, rfl⟩ | ⟨k, _, rfl⟩
    · rfl
    · exact State.reg_setReg_other s _ hj
  case load x =>
    obtain ⟨bs, hlen, rfl⟩ := h
    have hjx : ¬ j.val ≤ x.val := by simpa using hj
    simp only [State.reg, Fin.getElem_fin, getElem_setRegsFrom]
    simp [show bs.length ≤ j.val by omega]
  case addReg | subReg | subnReg | shr | shl =>
    obtain ⟨f, v, rfl⟩ := h
    exact (State.reg_setReg_other (s.setReg flagReg f) v hj.2).trans (State.reg_setReg_other s f hj.1)
  case ldImm | addImm | ldReg | orReg | andReg | xorReg | ldVxDT | rnd =>
    obtain ⟨v, rfl⟩ := h
    exact State.reg_setReg_other s v hj
  case ret | call | skp | sknp =>
    obtain ⟨_, rfl⟩ := h
    rfl
  case ldB | store =>
    rw [h.2]
    rfl
  case cls | jp | jpV0 | seImm | sneImm | seReg | sneReg | ldI | ldF | ldDT | ldST =>
    subst h
    rfl

end Sys2Proof.Machine
end

section
/-!
PROOFS. What no instruction reads: the sound timer (10_state R30) and the dead entries of the call stack (10_state R29, D27).
Only LD ST writes the one, and only RET and CALL reach the other; every other instruction does the same whatever they hold.
-/
open Sys2Proof.Claims

namespace Sys2Proof.Machine

/-- The state with the sound timer and the stack entries changed by `f` and `g`. -/
def State.withHidden (s : State) (f : Byte → Byte) (g : Vector Word 16 → Vector Word 16) : State :=
  { s with st := f s.st, stack := g s.stack }

section
variable (s : State) (f : Byte → Byte) (g : Vector Word 16 → Vector Word 16)

@[simp] theorem State.withHidden_mem : (s.withHidden f g).mem = s.mem := rfl
@[simp] theorem State.withHidden_stack : (s.withHidden f g).stack = g s.stack := rfl
@[simp] theorem State.withHidden_params : (s.withHidden f g).params = s.params := rfl
@[simp] theorem State.reg_withHidden (j : RegIdx) : (s.withHidden f g).reg j = s.reg j := rfl
@[simp] theorem effectiveAddress_withHidden (k : Nat) : effectiveAddress (s.withHidden f g) k = effectiveAddress s k := rfl
@[simp] theorem keyPressed_withHidden (x : RegIdx) : keyPressed (s.withHidden f g) x = keyPressed s x := rfl
@[simp] theorem registersUpTo_withHidden (x : RegIdx) : registersUpTo (s.withHidden f g) x = registersUpTo s x := rfl
@[simp] theorem State.selectedKey_withHidden : (s.withHidden f g).selectedKey = s.selectedKey := rfl
@[simp] theorem State.setFlag_withHidden (c : Bool) : (s.withHidden f g).setFlag c = (s.setFlag c).withHidden f g := rfl

theorem operandState_withHidden (before : State) :
    operandState (before.withHidden f g) (s.withHidden f g) = (operandState before s).withHidden f g := by
  unfold operandState
  rw [State.withHidden_params]
  cases before.params.operandRead <;> rfl

theorem drawBit_withHidden (before : State) (x y : RegIdx) (rc : Nat × Nat) :
    drawBit (before.withHidden f g) x y (s.withHidden f g) rc = (drawBit before x y s rc).withHidden f g := by
  rw [drawBit_eq, drawBit_eq, operandState_withHidden]
  rfl

theorem drawSprite_withHidden (x y : RegIdx) (rows : List Byte) :
    drawSprite (s.withHidden f g) x y rows = (drawSprite s x y rows).withHidden f g := by
  simp only [drawSprite, State.setFlag_withHidden]
  rw [List.foldl_hom (·.withHidden f g) (fun t rc => drawBit_withHidden t f g s x y rc)]
  rfl

theorem flagThenResult_withHidden (x : RegIdx) (flag : Bool) (result : State → Byte)
    (hresult : ∀ u : State, result (u.withHidden f g) = result u) :
    (s.withHidden f g).flagThenResult x flag result = (s.flagThenResult x flag result).withHidden f g := by
  simp only [State.flagThenResult, State.setFlag_withHidden, operandState_withHidden, hresult]
  rfl

theorem rescan_withHidden (x : RegIdx) : (s.withHidden f g).rescan x = (s.rescan x).withHidden f g := by
  simp only [State.rescan, State.takeKey, State.selectedKey_withHidden]
  cases s.selectedKey <;> rfl

/-- The gate decrements the sound timer by itself: nothing else depends on it. -/
theorem endStep_withHidden :
    (s.withHidden f g).endStep = s.endStep.withHidden (fun _ => (s.withHidden f g).endStep.st) g := by
  cases hrep : s.report with
  | none =>
    rw [endStep_completed hrep, endStep_completed (s := s.withHidden f g) hrep]
    rfl
  | some r =>
    have hsome : s.report.isSome = true := hrep ▸ rfl
    rw [endStep_reported hsome, endStep_reported (s := s.withHidden f g) hsome]
    rfl

/-- The end of a step does not look at the stack. -/
theorem endStep_withHidden_stack : (s.withHidden id g).endStep = s.endStep.withHidden id g := by
  cases hrep : s.report with
  | none =>
    rw [endStep_completed hrep, endStep_completed (s := s.withHidden id g) hrep]
    rfl
  | some r =>
    have hsome : s.report.isSome = true := hrep ▸ rfl
    rw [endStep_reported hsome, endStep_reported (s := s.withHidden id g) hsome]
    rfl

end

/-- An instruction other than LD ST, RET and CALL does the same whatever the sound timer and the stack entries are, and leaves
them. -/
theorem exec_withHidden {i : Instr} {s t : State} (f : Byte → Byte) (g : Vector Word 16 → Vector Word 16)
    (hst : ∀ x, i ≠ .ldST x) (hret : i ≠ .ret) (hcall : ∀ nnn, i ≠ .call nnn) (h : exec i s = .next t) :
    exec i (s.withHidden f g) = .next (t.withHidden f g) := by
  cases i
  case ldST x => exact absurd rfl (hst x)
  case ret => exact absurd rfl hret
  case call nnn => exact absurd rfl (hcall nnn)
  case ldVxK x =>
    simp only [exec, execLdVxK, State.takeKey, State.selectedKey_withHidden] at h ⊢
    cases hsel : s.selectedKey <;> rw [hsel] at h <;> cases h <;> rfl
  case drw x y n =>
    simp only [exec, execDrw, State.withHidden_mem, effectiveAddress_withHidden, drawSprite_withHidden] at h ⊢
    cases hread : memReadBytes s.mem (effectiveAddress s 0) n.toNat <;> rw [hread] at h <;> cases h <;> rfl
  case skp x =>
    simp only [exec, execSkp, keyPressed_withHidden] at h ⊢
    cases hkey : keyPressed s x <;> rw [hkey] at h <;> cases h <;> rfl
  case sknp x =>
    simp only [exec, execSknp, keyPressed_withHidden] at h ⊢
    cases hkey : keyPressed s x <;> rw [hkey] at h <;> cases h <;> rfl
  case ldB x =>
    simp only [exec, execLdB, State.withHidden_mem, effectiveAddress_withHidden, State.reg_withHidden] at h ⊢
    cases hwrite : memWriteBytes s.mem (effectiveAddress s 0) (bcdDigits (s.reg x)) <;> rw [hwrite] at h <;> cases h <;> rfl
  case store x =>
    simp only [exec, execStore, State.withHidden_mem, effectiveAddress_withHidden, registersUpTo_withHidden] at h ⊢
    cases hwrite : memWriteBytes s.mem (effectiveAddress s 0) (registersUpTo s x) <;> rw [hwrite] at h <;> cases h <;> rfl
  case load x =>
    simp only [exec, execLoad, State.withHidden_mem, effectiveAddress_withHidden] at h ⊢
    cases hread : memReadBytes s.mem (effectiveAddress s 0) (x.val + 1) <;> rw [hread] at h <;> cases h <;> rfl
  case addReg | subReg | subnReg | shr | shl =>
    cases h
    exact congrArg _ (flagThenResult_withHidden s f g _ _ _ fun _ => rfl)
  all_goals
    cases h
    rfl

/-- A running step whose fetch or decode fails reports that error, then ends. -/
theorem step_fetch_error {s : State} {e : Error} (hrun : s.mode = .running) (hf : s.fetchInstr = .error e) :
    step s = .next (s.beginStep.raise e).endStep := by
  simp only [step, State.cycle]
  split
  · rename_i h
    rw [hrun] at h
    cases h
  · rw [hf]
    rfl

/-- A relation between states that each part of a step keeps. -/
structure StepSim (R : State → State → Prop) : Prop where
  mode : ∀ {s s'}, R s s' → s'.mode = s.mode
  fetchInstr : ∀ {s s'}, R s s' → s'.fetchInstr = s.fetchInstr
  beginStep : ∀ {s s'}, R s s' → R s.beginStep s'.beginStep
  rescan : ∀ {s s'} (x), R s s' → R (s.rescan x) (s'.rescan x)
  raise : ∀ {s s'} (e), R s s' → R (s.raise e) (s'.raise e)
  exec : ∀ {s s' t} (i), R s s' → exec i s = .next t → ∃ t', exec i s' = .next t' ∧ R t t'
  endStep : ∀ {s s'}, R s s' → R s.endStep s'.endStep

/-- Related states step to related states. -/
theorem StepSim.step {R : State → State → Prop} (hR : StepSim R) {s s' t : State} (h : R s s') (hs : step s = .next t) :
    ∃ t', Machine.step s' = .next t' ∧ R t t' := by
  have hbegin := hR.beginStep h
  cases hm : s.mode with
  | waitingForKey x =>
    rw [step_waiting hm] at hs
    cases hs
    exact ⟨_, step_waiting (by rw [hR.mode h, hm]), hR.endStep (hR.rescan x hbegin)⟩
  | running =>
    have hm' : s'.mode = .running := by rw [hR.mode h, hm]
    cases hf : s.fetchInstr with
    | error e =>
      rw [step_fetch_error hm hf] at hs
      cases hs
      exact ⟨_, step_fetch_error hm' (by rw [hR.fetchInstr h, hf]), hR.endStep (hR.raise e hbegin)⟩
    | ok i =>
      obtain ⟨u, hu⟩ := exec_answers i s.beginStep
      obtain ⟨u', hu', huu'⟩ := hR.exec i hbegin hu
      rw [step_running hm hf, hu] at hs
      cases hs
      exact ⟨u'.endStep, by rw [step_running hm' (by rw [hR.fetchInstr h, hf]), hu']; rfl, hR.endStep huu'⟩

end Sys2Proof.Machine
end

section
/-!
PROOFS. The invariant of the block (10_state R25, 20_memory R60) is kept by every step, and reset meets it.
-/
open Sys2Proof.Claims

namespace Sys2Proof.Machine

/-- The new `pc` of an instruction fetched in a state with return addresses on the stack is at most 0xFFF + 0xFF
(10_state R25). -/
theorem newPc_le {s : State} (hpc : s.pc.toNat ≤ 4094) (hstack : ∀ k : Fin 16, (s.stack[k]).toNat ≤ 4096) (i : Instr) :
    newPc i s ≤ 0x10FE := by
  cases i <;> simp only [newPc]
  case ret =>
    have hlen : s.sp.val - 1 < 16 := by omega
    rw [List.getD_eq_getElem _ _ (by simpa using hlen), Vector.getElem_toList]
    exact (hstack ⟨_, hlen⟩).trans (by decide)
  case jpV0 nnn =>
    have := nnn.isLt
    have := (s.reg 0).isLt
    omega
  case jp nnn | call nnn =>
    have := nnn.isLt
    omega
  case seImm | sneImm | seReg | sneReg | skp | sknp | ldVxK =>
    split <;> omega
  all_goals omega

/-- An instruction fetched in a state that meets the invariant, and that completes, leads to one that meets it. -/
theorem State.Inv.of_effect {i : Instr} {s t : State} (hs : s.Inv) (hrun : s.mode = .running) (hpc : s.pc.toNat ≤ 4094)
    (he : Effect i s t) : t.Inv where
  memory := by
    rcases he.frame.memory with hm | ⟨-, bs, -, hlen, hm⟩ <;> rw [hm]
    · exact hs.memory
    · exact Memory.writeAll_wf hs.memory bs hlen
  stack k := by
    rcases he.frame.callStack with ⟨-, hst⟩ | ⟨-, -, hst⟩ | ⟨-, -, hsp, hst⟩
    · exact hst ▸ hs.stack k
    · exact hst ▸ hs.stack k
    · simp only [hst, Fin.getElem_fin, Vector.getElem_set]
      split
      · rw [BitVec.toNat_add]
        have : (2 : Word).toNat = 2 := rfl
        omega
      · exact hs.stack k
  pc := by
    rw [he.pc_toNat]
    exact (Nat.mod_le _ _).trans (newPc_le hpc hs.stack i)
  waiting x hx := by
    rcases he.frame.mode with hm | ⟨_, -, -, -, hpc'⟩
    · rw [hm, hrun] at hx
      cases hx
    · rwa [hpc']

/-- A re-scan keeps the invariant: it advances `pc` from a fetchable word, or leaves it there. -/
theorem State.Inv.rescan {s : State} {x : RegIdx} (hs : s.Inv) (hwait : s.mode = .waitingForKey x) : (s.rescan x).Inv := by
  rcases rescan_cases s x with ⟨-, h⟩ | ⟨k, -, h⟩ <;> rw [h]
  · exact hs
  · refine ⟨hs.memory, hs.stack, ?_, fun _ hm => by cases hm⟩
    have := hs.waiting x hwait
    have : (2 : Word).toNat = 2 := rfl
    rw [BitVec.toNat_add]
    omega

/-- The invariant does not speak of what the end of a step writes. -/
theorem State.Inv.endStep {s : State} (hs : s.Inv) : s.endStep.Inv := by
  rw [endStep_frame]
  exact ⟨hs.memory, hs.stack, hs.pc, hs.waiting⟩

/-- Settles O47: by what a step can do; an instruction's new `pc` is bounded because its own word was fetched. -/
theorem stepKeepsInvariant : Obligations.StepKeepsInvariant := by
  intro s t hs h
  have hbegin : s.beginStep.Inv := ⟨hs.memory, hs.stack, hs.pc, hs.waiting⟩
  rcases step_cases h with ⟨x, hwait, rfl, -⟩ | ⟨i, u, hrun, hfetch, -, heff, -, rfl⟩ | ⟨e, -, -, rfl⟩
  · exact (hbegin.rescan hwait).endStep
  · exact (hbegin.of_effect hrun (pc_le_of_fetchInstr hfetch) heff).endStep
  · exact ⟨hs.memory, hs.stack, hs.pc, hs.waiting⟩

end Sys2Proof.Machine
end

section
/-!
PROOFS. Reset (10_state R38) and the fault record (10_state R36).
-/
namespace Sys2Proof.Machine

/-! The host's operations that can fail write one component, or nothing (60_exceptions R242, R243). -/

theorem after_load_frame (s : State) (bytes : List Byte) :
    s.after (.load bytes) = { s with mem := (s.after (.load bytes)).mem } := by
  simp only [State.after, State.transact, State.hostLoad]
  by_cases hlen : Config.progOrigin + bytes.length > Config.memSize
  · simp only [if_pos hlen]
  · simp only [if_neg hlen]

theorem after_setKeyDown_frame (s : State) (k : Nat) :
    s.after (.setKeyDown k) = { s with key := (s.after (.setKeyDown k)).key } := by
  simp only [State.after, State.transact, State.setKeyDown, State.setKey]
  by_cases hk : k < 16
  · simp only [dif_pos hk]
  · simp only [dif_neg hk]

theorem after_setKeyUp_frame (s : State) (k : Nat) :
    s.after (.setKeyUp k) = { s with key := (s.after (.setKeyUp k)).key } := by
  simp only [State.after, State.transact, State.setKeyUp, State.setKey]
  by_cases hk : k < 16
  · simp only [dif_pos hk]
  · simp only [dif_neg hk]

/-- Memory right after reset: the glyph table, then zeros (10_state R38). -/
theorem read_reset_glyphs (table : Vector Byte 80) (a : Nat) :
    (Memory.writeAll [] 0 table.toList).read a = table.toList.getD a 0 := by
  rw [Memory.read_writeAll, if_pos (Nat.zero_le a), Nat.sub_zero]
  by_cases ha : a < 80
  · simp [ha]
  · have hglyph : Config.glyphList.length ≤ a := (show Config.glyphList.length = 80 from rfl) ▸ Nat.le_of_not_lt ha
    have hreset : Memory.read [] a = 0 := List.getD_eq_default _ _ hglyph
    rw [hreset]

/-- Settles O1: memory by `read_reset_glyphs`; every other component is written out by `resetAt`, which reads only the
parameters and inputs, and keeps them. -/
theorem resetGivesEveryComponentItsValue : Obligations.ResetGivesEveryComponentItsValue := by
  intro s now
  refine ⟨s.resetAt now, rfl, read_reset_glyphs s.params.glyphTable, fun i => ?_, rfl, rfl, fun k => ?_, rfl,
    fun r c => ?_, rfl, fun k => ?_, rfl, rfl, rfl, rfl, rfl, rfl⟩
  · simp [State.reg, State.resetAt, State.reset]
  · simp [State.resetAt, State.reset]
  · simp [pixelGet, State.resetAt, State.reset, blankFramebuffer]
  · simp [State.resetAt, State.reset]

/-- Writing to the empty memory what its addresses read as anyway lists nothing. -/
theorem writeAll_nil_of_resetBytes {bs : List Byte} {a : Nat}
    (h : ∀ k (hk : k < bs.length), bs[k] = Config.resetByte (a + k)) : Memory.writeAll [] a bs = [] := by
  induction bs generalizing a with
  | nil => rfl
  | cons b bs ih =>
    have hb : Memory.write [] a b = [] := if_pos (h 0 (by simp))
    rw [Memory.writeAll, hb]
    refine ih fun k hk => ?_
    rw [show a + 1 + k = a + (k + 1) by omega]
    exact h (k + 1) (by simpa using hk)

/-- Settles O2: the default glyph table is what an unlisted address reads as, so writing it lists nothing. -/
theorem resetStateMeetsInvariant : Obligations.ResetStateMeetsInvariant := by
  have hmem : Memory.writeAll [] 0 Config.glyphTable.toList = [] := writeAll_nil_of_resetBytes fun k hk => by
    rw [Nat.zero_add]
    exact (List.getD_eq_getElem _ _ hk).symm
  refine ⟨?_, ⟨Memory.reset_wf, fun k => ?_, by decide, fun _ hm => by cases hm⟩, fun _ hm => by cases hm⟩
  · rw [State.resetAt, show State.reset.params.glyphTable = Config.glyphTable from rfl, hmem]
    rfl
  · simp [State.reset]

/-- A step that completes leaves the fault record, and one that reports an error keeps the first (60_exceptions R232). -/
theorem step_fault {s t : State} (h : step s = .next t) : t.fault = s.fault.or t.report := by
  rcases step_cases h with ⟨x, -, rfl, hrep⟩ | ⟨i, u, -, -, -, heff, hrep, rfl⟩ | ⟨e, -, -, rfl⟩
  · simp [hrep]
  · simp [hrep, heff.report.2]
  · exact raise_fault_eq_or s e

/-- Settles O17: `step_fault`, and no host operation but reset writes the record. -/
theorem firstFaultIsKept : Obligations.FirstFaultIsKept := by
  intro s t
  refine ⟨step_fault, fun bytes => ?_, fun k => ?_, fun k => ?_, rfl, fun now => rfl⟩
  · rw [after_load_frame]
  · rw [after_setKeyDown_frame]
  · rw [after_setKeyUp_frame]

end Sys2Proof.Machine
end

section
/-!
PROOFS. Which instructions change which component (10_state R23, R24, R27, R29, R32 to R35): each statement about an
instruction by `exec_cases` and its effect's table, each about a step by `step_cases` and the frame of the effect.
-/
open Sys2Proof.Claims

namespace Sys2Proof.Machine

/-- Settles O50: an instruction that completes reports nothing and goes where its effect says; one that raises keeps `pc`. -/
theorem newPcOfEveryInstruction : Obligations.NewPcOfEveryInstruction := by
  intro i s t hs h
  rcases exec_cases h with heff | ⟨e, rfl⟩
  · exact ⟨fun _ => heff.pc_toNat, fun hr => absurd (heff.report.1.trans hs) hr⟩
  · exact ⟨fun hr => by simp at hr, fun _ => rfl⟩

/-- Settles O51: by the registers of its effect; an instruction that raises changes none. -/
theorem onlyTabledRegistersChange : Obligations.OnlyTabledRegistersChange := by
  intro i s t j h hne
  by_contra hj
  rcases exec_cases h with heff | ⟨e, rfl⟩
  · exact hne (heff.reg_of_not_written hj)
  · exact hne (State.reg_raise s e j)

/-- Settles O52: a re-scan and an error leave the display, and of the effects only those of CLS and DRW reach it. -/
theorem onlyClsAndDrwTouchTheDisplay : Obligations.OnlyClsAndDrwTouchTheDisplay := by
  intro s t h
  rcases step_cases h with ⟨x, -, rfl, -⟩ | ⟨i, u, hrun, hfetch, -, heff, -, rfl⟩ | ⟨e, -, -, rfl⟩
  · simp
  · rcases heff.frame.display with ⟨hfb, hdirty⟩ | ⟨hdirty, hi⟩
    · simp [hfb, hdirty]
    · refine ⟨fun _ => by simpa, fun _ => by simpa, fun _ => ⟨hrun, ?_⟩⟩
      rw [hfetch]
      simpa using hi
  · simp

/-- A step leaves the input latch. -/
theorem step_key {s t : State} (h : step s = .next t) : t.key = s.key := by
  rcases step_cases h with ⟨x, -, rfl, -⟩ | ⟨i, u, -, -, -, heff, -, rfl⟩ | ⟨e, -, -, rfl⟩
  · simp
  · simp [heff.frame.key]
  · rfl

/-- Settles O53: `step_key` for a step of the host; `load` and `clear_draw_pending` write other components. -/
theorem onlyTheHostWritesTheLatch : Obligations.OnlyTheHostWritesTheLatch := by
  intro s op hne
  cases op with
  | reset now => exact .inr ⟨now, rfl⟩
  | setKeyDown k => exact .inl ⟨k, .inl rfl⟩
  | setKeyUp k => exact .inl ⟨k, .inr rfl⟩
  | load bytes =>
    rw [after_load_frame] at hne
    exact absurd rfl hne
  | clearDrawPending => exact absurd rfl hne
  | step now =>
    simp only [State.after] at hne
    split at hne
    · rename_i t ht
      have hstep : step { s with clock := { s.clock with queue := now :: s.clock.queue } } = .next t := ht
      exact absurd (step_key hstep) hne
    · exact absurd rfl hne
    · exact absurd rfl hne

/-- Settles O54: only an instruction's effect can reach `I`, and its frame names the three. -/
theorem onlyIndexInstructionsWriteI : Obligations.OnlyIndexInstructionsWriteI := by
  intro s t h hne
  rcases step_cases h with ⟨x, -, rfl, -⟩ | ⟨i, u, hrun, hfetch, -, heff, -, rfl⟩ | ⟨e, -, -, rfl⟩
  · simp at hne
  · exact ⟨hrun, i, hfetch, heff.frame.index.resolve_left (by simpa using hne)⟩
  · exact absurd rfl hne

/-- Settles O55: the entry CALL writes is the one at `sp`, above every live one. -/
theorem onlyCallAndRetReachTheStack : Obligations.OnlyCallAndRetReachTheStack := by
  intro s t h
  rcases step_cases h with ⟨x, -, rfl, -⟩ | ⟨i, u, hrun, hfetch, -, heff, -, rfl⟩ | ⟨e, -, -, rfl⟩
  · simp
  · simp only [State.endStep_sp, State.endStep_stack]
    rcases heff.frame.callStack with ⟨hsp, hst⟩ | ⟨rfl, hsp, hst⟩ | ⟨⟨nnn, rfl⟩, hsp, hroom, hst⟩
    · simp [hsp, hst]
    · simp only [State.beginStep_sp] at hsp
      exact ⟨fun _ => ⟨hrun, .inl hfetch⟩, by omega, fun k _ => by simp [hst]⟩
    · simp only [State.beginStep_sp] at hsp
      refine ⟨fun _ => ⟨hrun, .inr ⟨nnn, hfetch⟩⟩, by omega, fun k hk => ?_⟩
      have hne : s.sp.val ≠ k.val := by omega
      simp [hst, hne]
  · simp

/-- Settles O56: a waiting step is a re-scan, which runs again exactly when a key is selected; in Running mode only LD Vx,K
with no key selected changes the mode. -/
theorem modeTransitions : Obligations.ModeTransitions := by
  intro s t h
  rcases step_cases h with ⟨x, hwait, rfl, -⟩ | ⟨i, u, hrun, hfetch, -, heff, -, rfl⟩ | ⟨e, hrun, -, rfl⟩
  · refine ⟨fun y hr => ?_, fun y hy => ?_⟩
    · rw [hwait] at hr
      cases hr
    · obtain rfl : x = y := by rw [hwait] at hy; cases hy; rfl
      rcases rescan_cases s.beginStep x with ⟨hsel, h⟩ | ⟨k, hsel, h⟩
      · rw [if_neg (by simpa using selectedKey_none.mp hsel), h]
        simp [hwait]
      · rw [if_pos ⟨k, selectedKey_pressed hsel⟩, h]
        simp
  · refine ⟨fun x _ hx => ?_, fun x hx => by rw [hrun] at hx; cases hx⟩
    rcases heff.frame.mode with hm | ⟨y, rfl, hsel, hm, -⟩
    · simp [hm, hrun] at hx
    · obtain rfl : y = x := by simpa [hm] using hx
      exact ⟨hfetch, selectedKey_none.mp hsel⟩
  · exact ⟨fun x _ hx => by simp [hrun] at hx, fun x hx => by simp [hrun] at hx⟩

end Sys2Proof.Machine
end

section
/-!
PROOFS. That the sound timer and the popped stack entries are never observed (10_state R29, R30, D27): each is a relation that
every part of a step keeps.
-/
open Sys2Proof.Claims

namespace Sys2Proof.Machine

/-! RET and CALL, the two instructions that reach the stack, in both cases (41_control_flow R140, R142). -/

theorem exec_ret_pop {s : State} (h : 0 < s.sp.val) :
    exec .ret s = .next { s with pc := s.stack[s.sp.val - 1], sp := ⟨s.sp.val - 1, by omega⟩ } := by
  simp only [exec, execRet, State.pop, dif_pos h]
  rfl

theorem exec_ret_empty {s : State} (h : ¬ 0 < s.sp.val) : exec .ret s = .next (s.raise (.stackUnderflow s.pc)) := by
  simp only [exec, execRet, State.pop, dif_neg h, settle_error]

theorem exec_call_push {s : State} (nnn : Addr12) (h : s.sp.val < 16) :
    exec (.call nnn) s = .next { s with pc := addressOf nnn, stack := s.stack.set s.sp.val (s.pc + 2),
                                        sp := ⟨s.sp.val + 1, by omega⟩ } := by
  simp only [exec, execCall, State.push, dif_pos h]
  rfl

theorem exec_call_full {s : State} (nnn : Addr12) (h : ¬ s.sp.val < 16) :
    exec (.call nnn) s = .next (s.raise (.stackOverflow s.pc)) := by
  simp only [exec, execCall, State.push, dif_neg h, settle_error]

/-! The sound timer. -/

/-- The states differ in the sound timer alone. -/
def SameButSt (s s' : State) : Prop := ∃ v, s' = s.withHidden (fun _ => v) id

theorem exec_sameButSt {s s' t : State} (i : Instr) (h : SameButSt s s') (hs : exec i s = .next t) :
    ∃ t', exec i s' = .next t' ∧ SameButSt t t' := by
  obtain ⟨v, rfl⟩ := h
  have hother := exec_withHidden (fun _ => v) id (h := hs)
  cases i
  case ldST x =>
    cases hs
    exact ⟨_, rfl, s.reg x, rfl⟩
  case ret =>
    by_cases hsp : 0 < s.sp.val
    · rw [exec_ret_pop hsp] at hs
      cases hs
      exact ⟨_, exec_ret_pop (s := s.withHidden (fun _ => v) id) hsp, v, rfl⟩
    · rw [exec_ret_empty hsp] at hs
      cases hs
      exact ⟨_, exec_ret_empty (s := s.withHidden (fun _ => v) id) hsp, v, rfl⟩
  case call nnn =>
    by_cases hsp : s.sp.val < 16
    · rw [exec_call_push nnn hsp] at hs
      cases hs
      exact ⟨_, exec_call_push (s := s.withHidden (fun _ => v) id) nnn hsp, v, rfl⟩
    · rw [exec_call_full nnn hsp] at hs
      cases hs
      exact ⟨_, exec_call_full (s := s.withHidden (fun _ => v) id) nnn hsp, v, rfl⟩
  all_goals exact ⟨_, hother (by simp) (by simp) (by simp), v, rfl⟩

/-- No part of a step reads the sound timer, and the gate decrements it by itself. -/
theorem sameButSt_stepSim : StepSim SameButSt where
  mode := by rintro s _ ⟨v, rfl⟩; rfl
  fetchInstr := by rintro s _ ⟨v, rfl⟩; rfl
  beginStep := by rintro s _ ⟨v, rfl⟩; exact ⟨v, rfl⟩
  rescan := by rintro s _ x ⟨v, rfl⟩; exact ⟨v, rescan_withHidden s (fun _ => v) id x⟩
  raise := by rintro s _ e ⟨v, rfl⟩; exact ⟨v, rfl⟩
  exec := exec_sameButSt
  endStep := by rintro s _ ⟨v, rfl⟩; exact ⟨_, endStep_withHidden s (fun _ => v) id⟩

/-- Settles O58: `SameButSt` is kept by every step. -/
theorem soundTimerIsNeverRead : Obligations.SoundTimerIsNeverRead := by
  intro s t v h
  obtain ⟨_, ht', v', rfl⟩ := sameButSt_stepSim.step ⟨v, rfl⟩ h
  exact ⟨v', ht'⟩

/-! The popped stack entries. -/

theorem sameButDeadEntries_iff {s s' : State} :
    SameButDeadEntries s s' ↔
      ∃ σ, s' = s.withHidden id (fun _ => σ) ∧ ∀ k : Fin 16, k.val < s.sp.val → σ[k] = s.stack[k] := by
  refine ⟨fun ⟨heq, hlive⟩ => ⟨s'.stack, heq, hlive⟩, ?_⟩
  rintro ⟨σ, rfl, hlive⟩
  exact ⟨rfl, hlive⟩

/-- Stacks that agree below an entry agree up to it once the same value is written there. -/
theorem getElem_set_eq_of_below {σ τ : Vector Word 16} {n : Nat} (hn : n < 16) (a : Word)
    (h : ∀ k : Fin 16, k.val < n → σ[k] = τ[k]) (k : Fin 16) (hk : k.val < n + 1) : (σ.set n a)[k] = (τ.set n a)[k] := by
  simp only [Fin.getElem_fin, Vector.getElem_set]
  split
  · rfl
  · exact h k (by omega)

/-- An instruction other than RET and CALL leaves the stack pointer and the stack, also when it raises. -/
theorem exec_callStack {i : Instr} {s t : State} (hret : i ≠ .ret) (hcall : ∀ nnn, i ≠ .call nnn)
    (h : exec i s = .next t) : t.sp = s.sp ∧ t.stack = s.stack := by
  rcases exec_cases h with heff | ⟨e, rfl⟩
  · rcases heff.frame.callStack with hsame | ⟨hi, -⟩ | ⟨⟨nnn, hi⟩, -⟩
    · exact hsame
    · exact absurd hi hret
    · exact absurd hi (hcall nnn)
  · exact ⟨rfl, rfl⟩

/-- RET reads the top entry, which is live, and CALL makes the entry it writes live. -/
theorem exec_sameButDeadEntries {s s' t : State} (i : Instr) (h : SameButDeadEntries s s') (hs : exec i s = .next t) :
    ∃ t', exec i s' = .next t' ∧ SameButDeadEntries t t' := by
  obtain ⟨σ, rfl, hlive⟩ := sameButDeadEntries_iff.mp h
  have hother := exec_withHidden id (fun _ => σ) (h := hs)
  cases i
  case ldST x =>
    cases hs
    exact ⟨_, rfl, rfl, hlive⟩
  case ret =>
    by_cases hsp : 0 < s.sp.val
    · have htop : σ[s.sp.val - 1] = s.stack[s.sp.val - 1] :=
        hlive ⟨s.sp.val - 1, by omega⟩ (Nat.sub_lt hsp Nat.one_pos)
      rw [exec_ret_pop hsp, ← htop] at hs
      cases hs
      exact ⟨_, exec_ret_pop (s := s.withHidden id fun _ => σ) hsp, rfl,
        fun k hk => hlive k (Nat.lt_of_lt_of_le hk (Nat.sub_le _ 1))⟩
    · rw [exec_ret_empty hsp] at hs
      cases hs
      exact ⟨_, exec_ret_empty (s := s.withHidden id fun _ => σ) hsp, rfl, hlive⟩
  case call nnn =>
    by_cases hsp : s.sp.val < 16
    · rw [exec_call_push nnn hsp] at hs
      cases hs
      exact ⟨_, exec_call_push (s := s.withHidden id fun _ => σ) nnn hsp, rfl, getElem_set_eq_of_below hsp _ hlive⟩
    · rw [exec_call_full nnn hsp] at hs
      cases hs
      exact ⟨_, exec_call_full (s := s.withHidden id fun _ => σ) nnn hsp, rfl, hlive⟩
  all_goals
    obtain ⟨hsp, hst⟩ := exec_callStack (by simp) (by simp) hs
    exact ⟨_, hother (by simp) (by simp) (by simp), rfl, fun k hk => by simpa [hst] using hlive k (hsp ▸ hk)⟩

/-- No part of a step reads a dead entry. -/
theorem sameButDeadEntries_stepSim : StepSim SameButDeadEntries where
  mode h := by rw [h.1]
  fetchInstr h := by rw [h.1]; rfl
  beginStep h := ⟨congrArg State.beginStep h.1, h.2⟩
  rescan x h := by
    obtain ⟨σ, rfl, hlive⟩ := sameButDeadEntries_iff.mp h
    exact sameButDeadEntries_iff.mpr ⟨σ, rescan_withHidden _ id _ x, by simpa using hlive⟩
  raise e h := ⟨by rw [h.1]; rfl, h.2⟩
  exec := exec_sameButDeadEntries
  endStep h := by
    obtain ⟨σ, rfl, hlive⟩ := sameButDeadEntries_iff.mp h
    exact sameButDeadEntries_iff.mpr ⟨σ, endStep_withHidden_stack _ _, by simpa using hlive⟩

/-- Settles O59: `SameButDeadEntries` is kept by every step. -/
theorem poppedEntriesAreNeverObserved : Obligations.PoppedEntriesAreNeverObserved := by
  intro s s' t h hs
  exact sameButDeadEntries_stepSim.step h hs

end Sys2Proof.Machine
end

section
/-!
PROOFS. Memory (20_memory): which bytes a step can change (R60, R61), and what a fetch reads of the bytes LD [I],Vx and LD B
stored (R62, R63, R67).
-/
open Sys2Proof.Claims

namespace Sys2Proof.Machine

/-- An address that reads differently after unchecked writes is one of those written to. -/
theorem Memory.bounds_of_read_writeAll_ne {m : Memory} {a b : Nat} {bs : List Byte}
    (h : (m.writeAll a bs).read b ≠ m.read b) : a ≤ b ∧ b < a + bs.length := by
  rw [Memory.read_writeAll] at h
  by_cases hab : a ≤ b
  · refine ⟨hab, ?_⟩
    by_contra hb
    exact h (by rw [if_pos hab, List.getD_eq_default _ _ (by omega)])
  · exact absurd (if_neg hab) h

/-- Settles O57: a re-scan and an error leave memory, and the frame of an effect names the two stores and bounds what they
write. -/
theorem onlyStoresWriteMemory : Obligations.OnlyStoresWriteMemory := by
  intro s t h a hne
  rcases step_cases h with ⟨x, -, rfl, -⟩ | ⟨i, u, hrun, hfetch, -, heff, -, rfl⟩ | ⟨e, -, -, rfl⟩
  · simp at hne
  · rw [State.endStep_mem] at hne
    rcases heff.frame.memory with hmem | ⟨⟨x, hi⟩, bs, hlen, htop, hmem⟩
    · rw [hmem] at hne
      exact absurd rfl hne
    · rw [hmem] at hne
      have hbounds := Memory.bounds_of_read_writeAll_ne hne
      simp only [State.beginStep_I] at hbounds htop
      exact ⟨hrun, ⟨x, by simpa [hfetch] using hi⟩, by omega⟩
  · exact absurd rfl hne

/-! The two stores in range (43_index_memory R193, R194). -/

theorem memWriteBytes_inRange (m : Memory) {a : Nat} {bs : List Byte} (h : a + bs.length ≤ 4096) :
    memWriteBytes m a bs = .ok (m.writeAll a bs) := by
  rw [memWriteBytes_eq, if_pos (.inr h)]

theorem exec_store_inRange {s : State} {x : RegIdx} (h : s.I.toNat + x.val ≤ 4095) :
    exec (.store x) s =
      .next { s with mem := s.mem.writeAll s.I.toNat (registersUpTo s x), pc := s.pc + 2 } := by
  have htop : effectiveAddress s 0 + (registersUpTo s x).length ≤ 4096 := by
    rw [registersUpTo_length, effectiveAddress]
    omega
  simp only [exec, execStore, memWriteBytes_inRange _ htop]
  rfl

@[simp] theorem bcdDigits_length (a : Byte) : (bcdDigits a).length = 3 := rfl

theorem exec_ldB_inRange {s : State} {x : RegIdx} (h : s.I.toNat + 2 ≤ 4095) :
    exec (.ldB x) s =
      .next { s with mem := s.mem.writeAll s.I.toNat (bcdDigits (s.reg x)), pc := s.pc + 2 } := by
  have htop : effectiveAddress s 0 + (bcdDigits (s.reg x)).length ≤ 4096 := by
    rw [bcdDigits_length, effectiveAddress]
    omega
  simp only [exec, execLdB, memWriteBytes_inRange _ htop]
  rfl

/-- The decimal digits of a byte fit in the bytes that hold them (43_index_memory R193). -/
theorem toNat_decimalDigits (a : Byte) :
    (BitVec.ofNat 8 (a.toNat / 100)).toNat = a.toNat / 100 ∧
      (BitVec.ofNat 8 (a.toNat / 10 % 10)).toNat = a.toNat / 10 % 10 ∧
      (BitVec.ofNat 8 (a.toNat % 10)).toNat = a.toNat % 10 := by
  have := a.isLt
  simp only [BitVec.toNat_ofNat]
  omega

/-! A fetch over stored bytes (20_memory R67). -/

/-- With both bytes in range, a fetch is the word of the two bytes at `pc`, big-endian (20_memory R62, R63). -/
theorem fetch_inRange {s : State} (h : s.pc.toNat ≤ 4094) :
    s.fetch = .ok (wordOfBytes (s.mem.read s.pc.toNat) (s.mem.read (s.pc.toNat + 1))) := by
  simp only [State.fetch, memRead_eq]
  rw [if_pos (by omega), if_pos (by omega)]

theorem storedByte_getElem (s : State) (base : Nat) {bs : List Byte} {k : Nat} (hk : k < bs.length) :
    storedByte s base bs (base + k) = bs[k] := by
  rw [storedByte, if_pos (Nat.le_add_right _ _), Nat.add_sub_cancel_left, List.getD_eq_getElem _ _ hk]

section
variable {s u : State} {base : Nat} {bs : List Byte}

/-- A fetch from memory that holds a store's bytes reads them where the store covers them, and the bytes from before
elsewhere. -/
theorem fetch_after_writeAll (hmem : u.mem = s.mem.writeAll base bs) (hpc : u.pc.toNat ≤ 4094) :
    u.fetch = .ok (wordOfBytes (storedByte s base bs u.pc.toNat) (storedByte s base bs (u.pc.toNat + 1))) := by
  rw [fetch_inRange hpc, hmem, Memory.read_writeAll, Memory.read_writeAll]
  rfl

/-- A fetch whose two bytes are both stored ones. -/
theorem fetch_stored_pair (hmem : u.mem = s.mem.writeAll base bs) (htop : base + bs.length ≤ 4096) {k : Nat}
    (hk : k + 1 < bs.length) (hpc : u.pc.toNat = base + k) : u.fetch = .ok (wordOfBytes bs[k] bs[k + 1]) := by
  rw [fetch_after_writeAll hmem (by omega), hpc, Nat.add_assoc, storedByte_getElem, storedByte_getElem]

end

/-- Settles O42: each store in range leaves `writeAll` of its bytes; what a fetch reads of them is `fetch_after_writeAll`, and
`fetch_stored_pair` where both bytes are stored ones. -/
theorem storedBytesAreFetched : Obligations.StoredBytesAreFetched := by
  intro s t u x hmem
  refine ⟨fun hI h => ?_, fun hI h => ?_⟩
  · rw [exec_store_inRange hI] at h
    cases h
    have hlen := registersUpTo_length s x
    refine ⟨fetch_after_writeAll hmem, fun k hk hpc => ?_⟩
    rw [fetch_stored_pair hmem (by omega) (by omega) hpc, registersUpTo_getElem s x k hk.le,
      registersUpTo_getElem s x ⟨k.val + 1, by omega⟩ hk]
    rfl
  · rw [exec_ldB_inRange hI] at h
    cases h
    have hlen := bcdDigits_length (s.reg x)
    obtain ⟨hhundreds, htens, hunits⟩ := toNat_decimalDigits (s.reg x)
    refine ⟨fetch_after_writeAll hmem, fun hpc => ?_, fun hpc => ?_⟩
    · rw [fetch_stored_pair (k := 0) hmem (by omega) (by omega) hpc]
      simp only [wordOfBytes, bcdDigits, List.getElem_cons_zero, List.getElem_cons_succ, hhundreds, htens]
    · rw [fetch_stored_pair (k := 1) hmem (by omega) (by omega) hpc]
      simp only [wordOfBytes, bcdDigits, List.getElem_cons_zero, List.getElem_cons_succ, htens, hunits]

end Sys2Proof.Machine
end

section
/-!
PROOFS. Encoding and decoding (30_encoding): the words of the opcode map's rows, that decoding and encoding are each other's
inverse (R92, R94), and which words are illegal (R95, R96).
-/
open Sys2Proof.Claims

namespace Sys2Proof

/-- A row is named by its place in the table of 30_encoding R94, counted from 0. -/
theorem decodes_of_row {n : Nat} {r : OpRow} {w : Word} (hrow : opRows[n]? = some r) (hmatch : w &&& r.mask = r.pattern) :
    Decodes w (r.build w) :=
  decodeWord_of_matches (List.mem_of_getElem? hrow) (beq_iff_eq.mpr hmatch)

/-! The fields a row's mask leaves free are 0 in its pattern. -/

theorem fields_of_and_F000 {p : Word} (hp : p &&& 0xF000 = p) :
    fieldX p = 0 ∧ fieldY p = 0 ∧ fieldN p = 0 ∧ fieldNN p = 0 ∧ fieldNNN p = 0 := by
  have hbits : p.toNat = p.toNat / 4096 * 4096 := by rw [← toNat_and_F000, hp]
  have hzero (k : Nat) : (0 : BitVec k).toNat = 0 := BitVec.toNat_zero
  refine ⟨Fin.ext ?_, Fin.ext ?_, BitVec.eq_of_toNat_eq ?_, BitVec.eq_of_toNat_eq ?_, BitVec.eq_of_toNat_eq ?_⟩ <;>
    simp only [fieldX, fieldY, fieldN, fieldNN, fieldNNN, BitVec.toNat_setWidth, hzero, Fin.val_zero] <;> omega

theorem fields_of_and_F00F {p : Word} (hp : p &&& 0xF00F = p) : fieldX p = 0 ∧ fieldY p = 0 := by
  have hbits : p.toNat = p.toNat / 4096 * 4096 + p.toNat % 16 := by rw [← toNat_and_F00F, hp]
  refine ⟨Fin.ext ?_, Fin.ext ?_⟩ <;> simp only [fieldX, fieldY, Fin.val_zero] <;> omega

theorem fieldX_of_and_F0FF {p : Word} (hp : p &&& 0xF0FF = p) : fieldX p = 0 := by
  have hbits : p.toNat = p.toNat / 4096 * 4096 + p.toNat % 256 := by rw [← toNat_and_F0FF, hp]
  refine Fin.ext ?_
  simp only [fieldX, Fin.val_zero]
  omega

/-- Operands placed outside a mask do not show under it. -/
theorem and_mask_or {a b mask p : Word} (ha : a &&& mask = p) (hb : b &&& mask = 0) : (a ||| b) &&& mask = p := by
  rw [BitVec.and_or_distrib_right, ha, hb]
  exact BitVec.or_zero

/-! One lemma for each layout of operands in a word: a row's pattern with operands in its free fields decodes to the row's
instruction with those operands. -/

section
variable {n : Nat} {m : String} {p : Word}

theorem decodes_nnn {f : Addr12 → Instr} (hrow : opRows[n]? = some ⟨m, 0xF000, p, fun w => f (fieldNNN w)⟩)
    (hp : p &&& 0xF000 = p) (nnn : Addr12) : Decodes (p ||| nnn.setWidth 16) (f nnn) := by
  obtain ⟨hnnn, hmask⟩ := fields_addr nnn
  obtain ⟨-, -, -, -, hpnnn⟩ := fields_of_and_F000 hp
  have hmatch : (p ||| nnn.setWidth 16) &&& 0xF000 = p := and_mask_or hp hmask
  have hfield : fieldNNN (p ||| nnn.setWidth 16) = nnn := by simp [fieldNNN_or, hnnn, hpnnn]
  simpa only [hfield] using decodes_of_row hrow hmatch

theorem decodes_xnn {f : RegIdx → Byte → Instr}
    (hrow : opRows[n]? = some ⟨m, 0xF000, p, fun w => f (fieldX w) (fieldNN w)⟩) (hp : p &&& 0xF000 = p) (x : RegIdx)
    (nn : Byte) : Decodes (p ||| placeX x ||| nn.setWidth 16) (f x nn) := by
  obtain ⟨hx, -, -, hxnn, hxmask, -, -⟩ := fields_placeX x
  obtain ⟨hnnx, hnn, hnnmask⟩ := fields_byte nn
  obtain ⟨hpx, -, -, hpnn, -⟩ := fields_of_and_F000 hp
  have hmatch : (p ||| placeX x ||| nn.setWidth 16) &&& 0xF000 = p := and_mask_or (and_mask_or hp hxmask) hnnmask
  have hfieldX : fieldX (p ||| placeX x ||| nn.setWidth 16) = x := Fin.ext (by simp [fieldX_or, hpx, hx, hnnx])
  have hfieldNN : fieldNN (p ||| placeX x ||| nn.setWidth 16) = nn := by simp [fieldNN_or, hpnn, hxnn, hnn]
  simpa only [hfieldX, hfieldNN] using decodes_of_row hrow hmatch

theorem decodes_xy {f : RegIdx → RegIdx → Instr}
    (hrow : opRows[n]? = some ⟨m, 0xF00F, p, fun w => f (fieldX w) (fieldY w)⟩) (hp : p &&& 0xF00F = p)
    (x y : RegIdx) : Decodes (p ||| placeX x ||| placeY y) (f x y) := by
  obtain ⟨hx, hxy, -, -, -, hxmask, -⟩ := fields_placeX x
  obtain ⟨hyx, hy, -, -, hymask⟩ := fields_placeY y
  obtain ⟨hpx, hpy⟩ := fields_of_and_F00F hp
  have hmatch : (p ||| placeX x ||| placeY y) &&& 0xF00F = p := and_mask_or (and_mask_or hp hxmask) hymask
  have hfieldX : fieldX (p ||| placeX x ||| placeY y) = x := Fin.ext (by simp [fieldX_or, hpx, hx, hyx])
  have hfieldY : fieldY (p ||| placeX x ||| placeY y) = y := Fin.ext (by simp [fieldY_or, hpy, hxy, hy])
  simpa only [hfieldX, hfieldY] using decodes_of_row hrow hmatch

theorem decodes_xyn {f : RegIdx → RegIdx → Nibble → Instr}
    (hrow : opRows[n]? = some ⟨m, 0xF000, p, fun w => f (fieldX w) (fieldY w) (fieldN w)⟩) (hp : p &&& 0xF000 = p)
    (x y : RegIdx) (k : Nibble) : Decodes (p ||| placeX x ||| placeY y ||| k.setWidth 16) (f x y k) := by
  obtain ⟨hx, hxy, hxn, -, hxmask, -, -⟩ := fields_placeX x
  obtain ⟨hyx, hy, hyn, hymask, -⟩ := fields_placeY y
  obtain ⟨hkx, hky, hk, hkmask⟩ := fields_nibble k
  obtain ⟨hpx, hpy, hpn, -, -⟩ := fields_of_and_F000 hp
  have hmatch : (p ||| placeX x ||| placeY y ||| k.setWidth 16) &&& 0xF000 = p :=
    and_mask_or (and_mask_or (and_mask_or hp hxmask) hymask) hkmask
  have hfieldX : fieldX (p ||| placeX x ||| placeY y ||| k.setWidth 16) = x :=
    Fin.ext (by simp [fieldX_or, hpx, hx, hyx, hkx])
  have hfieldY : fieldY (p ||| placeX x ||| placeY y ||| k.setWidth 16) = y :=
    Fin.ext (by simp [fieldY_or, hpy, hxy, hy, hky])
  have hfieldN : fieldN (p ||| placeX x ||| placeY y ||| k.setWidth 16) = k := by simp [fieldN_or, hpn, hxn, hyn, hk]
  simpa only [hfieldX, hfieldY, hfieldN] using decodes_of_row hrow hmatch

theorem decodes_x {f : RegIdx → Instr} (hrow : opRows[n]? = some ⟨m, 0xF0FF, p, fun w => f (fieldX w)⟩)
    (hp : p &&& 0xF0FF = p) (x : RegIdx) : Decodes (p ||| placeX x) (f x) := by
  obtain ⟨hx, -, -, -, -, -, hxmask⟩ := fields_placeX x
  have hmatch : (p ||| placeX x) &&& 0xF0FF = p := and_mask_or hp hxmask
  have hfieldX : fieldX (p ||| placeX x) = x := Fin.ext (by simp [fieldX_or, fieldX_of_and_F0FF hp, hx])
  simpa only [hfieldX] using decodes_of_row hrow hmatch

end

/-- The word of every instruction decodes to it: row by row, by the layout of its operands. -/
theorem decodes_encode (i : Instr) : Decodes (encode i) i := by
  cases i with
  | cls => exact decodes_of_row (n := 0) rfl rfl
  | ret => exact decodes_of_row (n := 1) rfl rfl
  | jp nnn => exact decodes_nnn (n := 2) rfl rfl nnn
  | call nnn => exact decodes_nnn (n := 3) rfl rfl nnn
  | seImm x nn => exact decodes_xnn (n := 4) rfl rfl x nn
  | sneImm x nn => exact decodes_xnn (n := 5) rfl rfl x nn
  | seReg x y => exact decodes_xy (n := 6) rfl rfl x y
  | ldImm x nn => exact decodes_xnn (n := 7) rfl rfl x nn
  | addImm x nn => exact decodes_xnn (n := 8) rfl rfl x nn
  | ldReg x y => exact decodes_xy (n := 9) rfl rfl x y
  | orReg x y => exact decodes_xy (n := 10) rfl rfl x y
  | andReg x y => exact decodes_xy (n := 11) rfl rfl x y
  | xorReg x y => exact decodes_xy (n := 12) rfl rfl x y
  | addReg x y => exact decodes_xy (n := 13) rfl rfl x y
  | subReg x y => exact decodes_xy (n := 14) rfl rfl x y
  | shr x y => exact decodes_xy (n := 15) rfl rfl x y
  | subnReg x y => exact decodes_xy (n := 16) rfl rfl x y
  | shl x y => exact decodes_xy (n := 17) rfl rfl x y
  | sneReg x y => exact decodes_xy (n := 18) rfl rfl x y
  | ldI nnn => exact decodes_nnn (n := 19) rfl rfl nnn
  | jpV0 nnn => exact decodes_nnn (n := 20) rfl rfl nnn
  | rnd x nn => exact decodes_xnn (n := 21) rfl rfl x nn
  | drw x y k => exact decodes_xyn (n := 22) rfl rfl x y k
  | skp x => exact decodes_x (n := 23) rfl rfl x
  | sknp x => exact decodes_x (n := 24) rfl rfl x
  | ldVxDT x => exact decodes_x (n := 25) rfl rfl x
  | ldVxK x => exact decodes_x (n := 26) rfl rfl x
  | ldDT x => exact decodes_x (n := 27) rfl rfl x
  | ldST x => exact decodes_x (n := 28) rfl rfl x
  | addI x => exact decodes_x (n := 29) rfl rfl x
  | ldF x => exact decodes_x (n := 30) rfl rfl x
  | ldB x => exact decodes_x (n := 31) rfl rfl x
  | store x => exact decodes_x (n := 32) rfl rfl x
  | load x => exact decodes_x (n := 33) rfl rfl x

/-- Settles O8: `decodes_encode`; the two bytes of a word put together are that word (20_memory R62). -/
theorem decodeOfEncode : Obligations.DecodeOfEncode := by
  intro i rest
  refine ⟨decodes_encode i, ?_⟩
  have hword : decodeWord (encode i) = .ok i := decodes_encode i
  simp only [encodeBytes, List.cons_append, List.nil_append, decodeBytes, wordOfBytes_split, hword]

/-! The words the encoder makes of the fields of a word. -/

theorem setWidth_fieldN (w : Word) : (fieldN w).setWidth 16 = w &&& 0x000F := by
  ext i hi
  interval_cases i <;> simp [fieldN]

theorem setWidth_fieldNN (w : Word) : (fieldNN w).setWidth 16 = w &&& 0x00FF := by
  ext i hi
  interval_cases i <;> simp [fieldNN]

theorem setWidth_fieldNNN (w : Word) : (fieldNNN w).setWidth 16 = w &&& 0x0FFF := by
  ext i hi
  interval_cases i <;> simp [fieldNNN]

/-- The instruction a row builds from a word is encoded as the row's pattern with the word's bits outside the mask: no row
drops a free bit. -/
theorem encode_build {r : OpRow} (hr : r ∈ opRows) (w : Word) : encode (r.build w) = r.pattern ||| (w &&& ~~~r.mask) := by
  fin_cases hr <;>
    simp only [encode, placeX_fieldX, placeY_fieldY, setWidth_fieldN, setWidth_fieldNN, setWidth_fieldNNN, BitVec.or_assoc,
      ← BitVec.and_or_distrib_left] <;>
    simp

/-- Settles O9: a word that selects a row agrees with its pattern inside the mask, and `encode_build` gives the other bits. -/
theorem encodeOfDecode : Obligations.EncodeOfDecode := by
  intro w i h
  obtain ⟨r, hr, hmatch, rfl⟩ := row_of_decodeWord h
  have hpattern : w &&& r.mask = r.pattern := beq_iff_eq.mp hmatch
  calc encode (r.build w) = (w &&& r.mask) ||| (w &&& ~~~r.mask) := by rw [encode_build hr, hpattern]
    _ = w := by
      ext k hk
      simp [← Bool.and_or_distrib_left]

/-- Settles O6: the fields by their bits; the rows by `decodes_of_row`, in the table's order. -/
theorem opcodeMapRows : Obligations.OpcodeMapRows := by
  intro w
  refine ⟨⟨?_, ?_, rfl, rfl, rfl⟩, decodes_of_row (n := 0) rfl, decodes_of_row (n := 1) rfl, decodes_of_row (n := 2) rfl,
    decodes_of_row (n := 3) rfl, decodes_of_row (n := 4) rfl, decodes_of_row (n := 5) rfl, decodes_of_row (n := 6) rfl,
    decodes_of_row (n := 7) rfl, decodes_of_row (n := 8) rfl, decodes_of_row (n := 9) rfl, decodes_of_row (n := 10) rfl,
    decodes_of_row (n := 11) rfl, decodes_of_row (n := 12) rfl, decodes_of_row (n := 13) rfl,
    decodes_of_row (n := 14) rfl, decodes_of_row (n := 15) rfl, decodes_of_row (n := 16) rfl,
    decodes_of_row (n := 17) rfl, decodes_of_row (n := 18) rfl, decodes_of_row (n := 19) rfl,
    decodes_of_row (n := 20) rfl, decodes_of_row (n := 21) rfl, decodes_of_row (n := 22) rfl,
    decodes_of_row (n := 23) rfl, decodes_of_row (n := 24) rfl, decodes_of_row (n := 25) rfl,
    decodes_of_row (n := 26) rfl, decodes_of_row (n := 27) rfl, decodes_of_row (n := 28) rfl,
    decodes_of_row (n := 29) rfl, decodes_of_row (n := 30) rfl, decodes_of_row (n := 31) rfl,
    decodes_of_row (n := 32) rfl, decodes_of_row (n := 33) rfl⟩
  · simp [fieldX, Nat.shiftRight_eq_div_pow]
  · simp [fieldY, Nat.shiftRight_eq_div_pow]

/-- Settles O10: by `decodes_encode`, each word being that of its instruction. -/
theorem sampleWordsDecode : Obligations.SampleWordsDecode :=
  ⟨decodes_encode (.ldImm 0 5), decodes_encode (.ldI 0x2F0), decodes_encode (.call 0x300), decodes_encode .ret,
    decodes_encode (.drw 0 1 5), decodes_encode (.subReg 15 1), decodes_encode (.load 2), decodes_encode (.skp 1),
    decodes_encode (.ldVxK 3), (decodeOfEncode (.jp 0x234) [0x56]).2, rfl⟩

/-! A word decodes exactly if it is legal (30_encoding R95, R96). -/

open Laws in
/-- Every instruction's word is legal. -/
theorem wellFormed_encode (i : Instr) : (encode i).wellFormed = true :=
  match i with
  | .cls => EncodesLegal.cls
  | .ret => EncodesLegal.ret
  | .jp nnn => EncodesLegal.jp nnn
  | .call nnn => EncodesLegal.call nnn
  | .seImm x nn => EncodesLegal.seImm x nn
  | .sneImm x nn => EncodesLegal.sneImm x nn
  | .seReg x y => EncodesLegal.seReg x y
  | .ldImm x nn => EncodesLegal.ldImm x nn
  | .addImm x nn => EncodesLegal.addImm x nn
  | .ldReg x y => EncodesLegal.ldReg x y
  | .orReg x y => EncodesLegal.orReg x y
  | .andReg x y => EncodesLegal.andReg x y
  | .xorReg x y => EncodesLegal.xorReg x y
  | .addReg x y => EncodesLegal.addReg x y
  | .subReg x y => EncodesLegal.subReg x y
  | .shr x y => EncodesLegal.shr x y
  | .subnReg x y => EncodesLegal.subnReg x y
  | .shl x y => EncodesLegal.shl x y
  | .sneReg x y => EncodesLegal.sneReg x y
  | .ldI nnn => EncodesLegal.ldI nnn
  | .jpV0 nnn => EncodesLegal.jpV0 nnn
  | .rnd x nn => EncodesLegal.rnd x nn
  | .drw x y n => EncodesLegal.drw x y n
  | .skp x => EncodesLegal.skp x
  | .sknp x => EncodesLegal.sknp x
  | .ldVxDT x => EncodesLegal.ldVxDT x
  | .ldVxK x => EncodesLegal.ldVxK x
  | .ldDT x => EncodesLegal.ldDT x
  | .ldST x => EncodesLegal.ldST x
  | .addI x => EncodesLegal.addI x
  | .ldF x => EncodesLegal.ldF x
  | .ldB x => EncodesLegal.ldB x
  | .store x => EncodesLegal.store x
  | .load x => EncodesLegal.load x

theorem wellFormed_of_decodes {w : Word} {i : Instr} (h : Decodes w i) : w.wellFormed = true :=
  encodeOfDecode w i h ▸ wellFormed_encode i

theorem decodeWord_of_not_wellFormed {w : Word} (h : w.wellFormed = false) :
    decodeWord w = .error (.unknownInstruction w) := by
  refine decodeWord_of_no_match fun r hr => ?_
  by_contra hmatch
  have hlegal := wellFormed_of_decodes (decodeWord_of_matches hr (Bool.not_eq_false _ ▸ hmatch))
  rw [h] at hlegal
  cases hlegal

/-! What a word keeps under the masks of the map, from its family and its low digits. -/

section
variable {w : Word} {f n : Nat}

theorem and_F000_of_family (hf : w.family = f) : w &&& 0xF000 = BitVec.ofNat 16 (f * 4096) := by
  refine BitVec.eq_of_toNat_eq ?_
  have := w.isLt
  rw [toNat_and_F000, BitVec.toNat_ofNat, ← hf, Word.family]
  omega

theorem and_F00F_of_family (hf : w.family = f) (hn : w.toNat % 16 = n) :
    w &&& 0xF00F = BitVec.ofNat 16 (f * 4096 + n) := by
  refine BitVec.eq_of_toNat_eq ?_
  have := w.isLt
  rw [toNat_and_F00F, BitVec.toNat_ofNat, ← hf, ← hn, Word.family]
  omega

theorem and_F0FF_of_family (hf : w.family = f) (hn : w.toNat % 256 = n) :
    w &&& 0xF0FF = BitVec.ofNat 16 (f * 4096 + n) := by
  refine BitVec.eq_of_toNat_eq ?_
  have := w.isLt
  rw [toNat_and_F0FF, BitVec.toNat_ofNat, ← hf, ← hn, Word.family]
  omega

end

/-! The rows of each family, by the digits its illegal words leave. -/

theorem rows_of_full_families : ∀ f ∈ [1, 2, 3, 4, 6, 7, 0xA, 0xB, 0xC, 0xD],
    ∃ r ∈ opRows, r.mask = 0xF000 ∧ r.pattern = BitVec.ofNat 16 (f * 4096) := by decide

theorem rows_of_family8 : ∀ n < 16, [0x8, 0x9, 0xA, 0xB, 0xC, 0xD, 0xF].contains n = false →
    ∃ r ∈ opRows, r.mask = 0xF00F ∧ r.pattern = BitVec.ofNat 16 (8 * 4096 + n) := by decide

theorem rows_of_familyE : ∀ n ∈ [0x9E, 0xA1],
    ∃ r ∈ opRows, r.mask = 0xF0FF ∧ r.pattern = BitVec.ofNat 16 (0xE * 4096 + n) := by decide

theorem rows_of_familyF : ∀ n ∈ [0x07, 0x0A, 0x15, 0x18, 0x1E, 0x29, 0x33, 0x55, 0x65],
    ∃ r ∈ opRows, r.mask = 0xF0FF ∧ r.pattern = BitVec.ofNat 16 (0xF * 4096 + n) := by decide

theorem decodes_of_mask {w mask p : Word} (hrow : ∃ r ∈ opRows, r.mask = mask ∧ r.pattern = p) (hp : w &&& mask = p) :
    ∃ i, Decodes w i := by
  obtain ⟨r, hr, rfl, rfl⟩ := hrow
  exact ⟨_, decodeWord_of_matches hr (beq_iff_eq.mpr hp)⟩

theorem decodes_of_wellFormed {w : Word} (h : w.wellFormed = true) : ∃ i, Decodes w i := by
  by_cases hfull : w.family ∈ [1, 2, 3, 4, 6, 7, 0xA, 0xB, 0xC, 0xD]
  · exact decodes_of_mask (rows_of_full_families _ hfull) (and_F000_of_family rfl)
  have hfamily : w.family = 0 ∨ w.family = 5 ∨ w.family = 8 ∨ w.family = 9 ∨ w.family = 0xE ∨ w.family = 0xF := by
    have hlt : w.family < 16 := Nat.div_lt_of_lt_mul w.isLt
    simp only [List.mem_cons, List.not_mem_nil, or_false, not_or] at hfull
    omega
  rcases hfamily with hf | hf | hf | hf | hf | hf <;> simp only [Word.wellFormed, hf] at h
  · simp only [Word.legalFamily0, Bool.or_eq_true, beq_iff_eq] at h
    rcases h with h | h
    · obtain rfl : w = 0x00E0 := BitVec.eq_of_toNat_eq h
      exact ⟨_, decodes_encode .cls⟩
    · obtain rfl : w = 0x00EE := BitVec.eq_of_toNat_eq h
      exact ⟨_, decodes_encode .ret⟩
  · exact decodes_of_mask (by decide) (and_F00F_of_family hf (beq_iff_eq.mp h))
  · exact decodes_of_mask (rows_of_family8 _ (Nat.mod_lt _ (by decide)) (Bool.not_eq_true' _ ▸ h))
      (and_F00F_of_family hf rfl)
  · exact decodes_of_mask (by decide) (and_F00F_of_family hf (beq_iff_eq.mp h))
  · exact decodes_of_mask (rows_of_familyE _ (List.contains_iff_mem.mp h)) (and_F0FF_of_family hf rfl)
  · exact decodes_of_mask (rows_of_familyF _ (List.contains_iff_mem.mp h)) (and_F0FF_of_family hf rfl)

/-! Counting the illegal words of a family (30_encoding R96). -/

/-- A property of the remainder by `m` holds as often in each of `k` blocks of `m` numbers. -/
theorem countP_range_mod (p : Nat → Bool) (m k : Nat) :
    (List.range (k * m)).countP (fun n => p (n % m)) = k * (List.range m).countP p := by
  induction k with
  | zero => simp
  | succ k ih =>
    have hblock : (List.range m).countP (fun n => p ((k * m + n) % m)) = (List.range m).countP p :=
      List.countP_congr fun n hn => by
        rw [Nat.mul_add_mod_self_right, Nat.mod_eq_of_lt (List.mem_range.mp hn)]
    rw [Nat.succ_mul, List.range_add, List.countP_append, List.countP_map, ih, Nat.succ_mul]
    exact congrArg _ hblock

/-- Of `m` numbers, the ones not in a list of some of them. -/
theorem countP_range_not_contains {l : List Nat} {m : Nat} (hl : l.Nodup) (hm : ∀ n ∈ l, n < m) :
    (List.range m).countP (fun n => !l.contains n) = m - l.length := by
  have hperm : ((List.range m).filter fun n => l.contains n).Perm l := by
    refine (List.perm_ext_iff_of_nodup (List.nodup_range.filter _) hl).mpr fun n => ?_
    simpa using hm n
  have hsplit := List.length_eq_countP_add_countP (l := List.range m) (fun n => l.contains n)
  simp only [List.length_range, List.countP_eq_length_filter, hperm.length_eq, Bool.not_eq_true,
    Bool.decide_eq_false] at hsplit ⊢
  omega

/-- A family of `k` blocks of `m` words, in each of which the legal words are those with a remainder in a list. -/
theorem illegalIn_eq {f m : Nat} (k : Nat) (legal : List Nat) (hf : f < 16) (hm : k * m = 4096) (hnodup : legal.Nodup)
    (hlt : ∀ n ∈ legal, n < m) (h : ∀ w : Word, w.family = f → w.wellFormed = legal.contains (w.toNat % m)) :
    illegalIn f = k * (m - legal.length) := by
  rw [← countP_range_not_contains hnodup hlt, ← countP_range_mod, hm, illegalIn, ← List.countP_eq_length_filter]
  refine List.countP_congr fun n hn => ?_
  have hn := List.mem_range.mp hn
  have hword : (BitVec.ofNat 16 (f * 4096 + n)).toNat = f * 4096 + n := by
    rw [BitVec.toNat_ofNat]
    omega
  have hfamily : Word.family (BitVec.ofNat 16 (f * 4096 + n)) = f := by
    rw [Word.family, hword]
    omega
  have hmod : (f * 4096 + n) % m = n % m := by rw [← hm, ← Nat.mul_assoc, Nat.mul_add_mod_self_right]
  rw [h _ hfamily, hword, hmod]

theorem illegalIn_full_family {f : Nat} (hf : f < 16) (hfull : f ∈ [1, 2, 3, 4, 6, 7, 0xA, 0xB, 0xC, 0xD]) :
    illegalIn f = 0 :=
  illegalIn_eq (m := 1) 4096 [0] hf rfl (by decide) (by decide) fun w hw => by
    rw [Laws.EncodesLegal.wellFormed_of_family hw hfull, Nat.mod_one]
    rfl

theorem illegalIn_family0 : illegalIn 0x0 = 4094 :=
  illegalIn_eq (m := 4096) 1 [0x00E0, 0x00EE] (by decide) rfl (by decide) (by decide) fun w hw => by
    have hmod : w.toNat % 4096 = w.toNat := Nat.mod_eq_of_lt (by simp only [Word.family] at hw; omega)
    simp only [Word.wellFormed, hw, hmod, Word.legalFamily0, List.contains_cons, List.contains_nil, Bool.or_false]

theorem illegalIn_family5 : illegalIn 0x5 = 3840 :=
  illegalIn_eq (m := 16) 256 [0] (by decide) rfl (by decide) (by decide) fun w hw => by
    simp only [Word.wellFormed, hw, Word.legalFamily5or9, List.contains_cons, List.contains_nil, Bool.or_false]

theorem illegalIn_family8 : illegalIn 0x8 = 1792 :=
  illegalIn_eq (m := 16) 256 [0, 1, 2, 3, 4, 5, 6, 7, 0xE] (by decide) rfl (by decide) (by decide) fun w hw => by
    have hdigits : ∀ n < 16, (!([0x8, 0x9, 0xA, 0xB, 0xC, 0xD, 0xF].contains n)) =
        [0, 1, 2, 3, 4, 5, 6, 7, 0xE].contains n := by decide
    simp only [Word.wellFormed, hw, Word.legalFamily8]
    exact hdigits _ (Nat.mod_lt _ (by decide))

theorem illegalIn_family9 : illegalIn 0x9 = 3840 :=
  illegalIn_eq (m := 16) 256 [0] (by decide) rfl (by decide) (by decide) fun w hw => by
    simp only [Word.wellFormed, hw, Word.legalFamily5or9, List.contains_cons, List.contains_nil, Bool.or_false]

theorem illegalIn_familyE : illegalIn 0xE = 4064 :=
  illegalIn_eq (m := 256) 16 [0x9E, 0xA1] (by decide) rfl (by decide) (by decide) fun w hw => by
    simp only [Word.wellFormed, hw, Word.legalFamilyE]

theorem illegalIn_familyF : illegalIn 0xF = 3952 :=
  illegalIn_eq (m := 256) 16 [0x07, 0x0A, 0x15, 0x18, 0x1E, 0x29, 0x33, 0x55, 0x65] (by decide) rfl (by decide)
    (by decide) fun w hw => by simp only [Word.wellFormed, hw, Word.legalFamilyF]

/-- Settles O7: what decodes is legal because encoding gives it back, and each legal word selects a row of its family; each
family's illegal words are counted by the digits that make them so. -/
theorem illegalWordsAreUnknown : Obligations.IllegalWordsAreUnknown := by
  refine ⟨fun w => ⟨decodes_of_wellFormed, decodeWord_of_not_wellFormed⟩, illegalIn_family0, illegalIn_family5,
    illegalIn_family8, illegalIn_family9, illegalIn_familyE, illegalIn_familyF, ?_⟩
  simp [List.range_succ, illegalIn_family0, illegalIn_family5, illegalIn_family8, illegalIn_family9, illegalIn_familyE,
    illegalIn_familyF, illegalIn_full_family]

end Sys2Proof
end

section
/-!
PROOFS. The step cycle (30_encoding R91, R95, R100, R101): the fetch, a running step's three endings, a waiting step, and the
word a waiting state still addresses.
-/
open Sys2Proof.Claims

namespace Sys2Proof.Machine

/-- A fetch with a byte out of range reports the first address that is. -/
theorem fetch_outOfRange {s : State} (h : 4095 ≤ s.pc.toNat) :
    s.fetch = .error (.outOfRange .mem (max s.pc.toNat 4096)) := by
  simp only [State.fetch, memRead_eq]
  by_cases hpc : s.pc.toNat = 4095
  · simp [hpc]
  · rw [if_neg (by omega), Nat.max_eq_left (by omega)]

/-- Settles O11: `fetch_inRange` and `fetch_outOfRange`. -/
theorem fetchReadsOrReportsAddress : Obligations.FetchReadsOrReportsAddress := by
  intro s
  refine ⟨fetch_inRange, fun h => ?_, fun h => ?_⟩
  · rw [fetch_outOfRange (by omega), h]
    rfl
  · rw [fetch_outOfRange (by omega), Nat.max_eq_left (by omega)]

/-! The fetched instruction. -/

theorem fetchInstr_of_fetch_error {s : State} {e : Error} (h : s.fetch = .error e) : s.fetchInstr = .error e := by
  rw [State.fetchInstr, h]

theorem fetchInstr_of_decodeWord {s : State} {w : Word} {i : Instr} (hf : s.fetch = .ok w) (hw : decodeWord w = .ok i) :
    s.fetchInstr = .ok i := by
  rw [State.fetchInstr, hf]
  simp only [hw]

theorem fetchInstr_of_not_wellFormed {s : State} {w : Word} (hf : s.fetch = .ok w) (hw : w.wellFormed = false) :
    s.fetchInstr = .error (.unknownInstruction w) := by
  rw [State.fetchInstr, hf]
  simp only [decodeWord_of_not_wellFormed hw]

/-- The fetch reads memory and `pc` alone. -/
theorem fetchInstr_congr {s t : State} (hmem : t.mem = s.mem) (hpc : t.pc = s.pc) : t.fetchInstr = s.fetchInstr := by
  simp only [State.fetchInstr, State.fetch, hmem, hpc]

/-! The endings of a step, as the statements write them. -/

theorem decay_eq_sub (b : Byte) : decay b = b - (if b = 0 then 0 else 1) := by
  unfold decay
  split
  · simp [*]
  · rfl

theorem timerGate_eq_gateAt (s : State) (now : Int) : s.timerGate now = gateAt now s := by
  simp only [State.timerGate, State.gateFires, gateAt, decay_eq_sub, decide_eq_true_eq, ge_iff_le]
  split <;> rfl

theorem endStep_eq_gated {s : State} (h : s.report = none) : s.endStep = gated s := by
  rw [endStep_completed h, timerGate_eq_gateAt, gateAt, gated]
  split <;> rfl

/-- A step that reports an error ends with it recorded, its time input used up, and nothing else changed. -/
theorem endStep_raise_eq_errored (s : State) (e : Error) :
    (s.beginStep.raise e).endStep = { errored s e with clock := s.clock.next } := by
  rw [endStep_raise, raise_fault_eq_or]
  rfl

/-- Settles O13: an illegal word is one the decoder refuses, and either error ends the step the same way. -/
theorem stepReportsFetchAndDecodeErrors : Obligations.StepReportsFetchAndDecodeErrors := by
  intro s hrun
  have hstep : ∀ e, s.fetchInstr = .error e → step s = .next { errored s e with clock := s.clock.next } := fun e he => by
    rw [step_fetch_error hrun he, endStep_raise_eq_errored]
  exact ⟨fun e he => hstep e (fetchInstr_of_fetch_error he), fun w hf hw => hstep _ (fetchInstr_of_not_wellFormed hf hw)⟩

/-! The host's `step(now)` (60_exceptions R241). -/

theorem gateAt_report (now : Int) (s : State) : (gateAt now s).report = s.report := by
  unfold gateAt
  split <;> rfl

/-- The end of a step whose time input `now` was given before the queue of inputs for later steps. -/
theorem endStep_withClock (s t : State) (now : Int) :
    (t.withClock ⟨now :: s.clock.queue, s.clock.drawn⟩).endStep =
      afterStep s (if t.report = none then gateAt now t else t) := by
  by_cases hrep : t.report = none
  · rw [if_pos hrep, endStep_completed (s := t.withClock ⟨now :: s.clock.queue, s.clock.drawn⟩) hrep,
      ← timerGate_eq_gateAt]
    rfl
  · rw [if_neg hrep, endStep_reported (s := t.withClock ⟨now :: s.clock.queue, s.clock.drawn⟩)
      (Option.isSome_iff_ne_none.mpr hrep)]
    rfl

theorem returned_step {s t : State} {now : Int} (h : s.transact (.step now) = .next t) :
    s.returned (.step now) = t.report.map ErrorRecord.error := by
  simp only [State.returned, h]

/-- Settles O12: `step_running`, and the end of the step; `step(now)` executes the same, since no instruction reads the clock
input. -/
theorem stepRunsDecodedInstruction : Obligations.StepRunsDecodedInstruction := by
  intro s w i hrun hf hw t hexec
  have hfetch : s.fetchInstr = .ok i := fetchInstr_of_decodeWord hf hw
  refine ⟨?_, fun now => ?_⟩
  · have hstep : step s = .next t.endStep := by rw [step_running hrun hfetch, State.beginStep, hexec, closeStep_next]
    rw [hstep]
    by_cases hrep : t.report = none
    · rw [if_pos hrep, endStep_eq_gated hrep]
    · rw [if_neg hrep, endStep_reported (Option.isSome_iff_ne_none.mpr hrep)]
  · have hstep : s.transact (.step now) = .next (afterStep s (if t.report = none then gateAt now t else t)) := by
      rw [← endStep_withClock, ← closeStep_next, ← exec_withClock _ hexec]
      exact step_running (s := s.withClock ⟨now :: s.clock.queue, s.clock.drawn⟩) hrun hfetch
    have hreport : (if t.report = none then gateAt now t else t).report = t.report := by
      split
      · exact gateAt_report now t
      · rfl
    exact ⟨hstep, (returned_step hstep).trans (congrArg (Option.map ErrorRecord.error) hreport)⟩

/-! While waiting for a key (30_encoding R101). -/

/-- Settles O14: a waiting step is the re-scan, which takes a key exactly when one is selected, and then the timer gate. -/
theorem waitingStepScansKeys : Obligations.WaitingStepScansKeys := by
  intro s x hwait
  rw [step_waiting hwait]
  rcases rescan_cases s.beginStep x with ⟨hsel, hscan⟩ | ⟨k, hsel, hscan⟩
  · have hnone : ∀ k : KeyIdx, s.key[k] = false := selectedKey_none.mp hsel
    refine ⟨fun _ => ?_, fun ⟨k, hk⟩ => absurd hk (by simp [hnone k])⟩
    rw [hscan, endStep_eq_gated rfl]
    rfl
  · have hk : s.key[k] = true := selectedKey_pressed hsel
    refine ⟨fun hnone => absurd hk (by simp [hnone k]), fun _ => ?_⟩
    refine ⟨k, s.beginStep.rescan x, hk, hsel, ?_, ?_, fun j hj => ?_, ?_, ?_, ?_⟩
    · rw [endStep_eq_gated (by rw [hscan]; rfl)]
    all_goals rw [hscan]
    · exact State.reg_setReg_same s x _
    · exact State.reg_setReg_other s _ hj
    all_goals rfl

/-- Settles O49: a state that waits after a step either waited before at the same `pc`, or has just run LD Vx,K, which leaves
`pc` and memory. -/
theorem waitingKeepsItsWord : Obligations.WaitingKeepsItsWord := by
  intro s t hs h x hx
  rcases step_cases h with ⟨y, hwait, rfl, -⟩ | ⟨i, u, hrun, hfetch, -, heff, -, rfl⟩ | ⟨e, hrun, -, rfl⟩
  · rw [State.endStep_mode] at hx
    rcases rescan_cases s.beginStep y with ⟨-, hscan⟩ | ⟨k, -, hscan⟩ <;> rw [hscan] at hx ⊢
    · rw [fetchInstr_congr (s := s) (by simp) (by simp)]
      exact hs x hx
    · cases hx
  · rw [State.endStep_mode] at hx
    rcases heff.frame.mode with hmode | ⟨y, rfl, -, hmode, hpc⟩
    · rw [hmode, State.beginStep_mode, hrun] at hx
      cases hx
    · obtain rfl : y = x := by
        rw [hmode] at hx
        cases hx
        rfl
      have hmem : u.mem = s.mem := heff.frame.memory.resolve_right (by simp)
      rw [fetchInstr_congr (s := s) (by simp [hmem]) (by simp [hpc])]
      exact hfetch
  · simp [hrun] at hx

end Sys2Proof.Machine
end

section
/-!
PROOFS. The display (40_display): CLS; and DRW, whose fold over the sprite's 1 bits is first understood under the latched
reading, where every bit has a pixel of its own (R127), and then compared with the sequential one.
-/
open Sys2Proof.Claims

namespace Sys2Proof.Machine

/-! CLS (40_display R121). -/

theorem pixelGet_blank (r : Fin 32) (c : Fin 64) : pixelGet blankFramebuffer r c = false := by
  simp [pixelGet, blankFramebuffer]

/-- Settles O21: by `decodes_encode`, and the blank framebuffer has no set pixel. -/
theorem clsBlanksAndMarksDirty : Obligations.ClsBlanksAndMarksDirty :=
  fun _ => ⟨decodes_encode .cls, _, rfl, pixelGet_blank, rfl, rfl, fun _ => rfl, rfl⟩

/-! DRW's two endings (40_display R122). -/

/-- The bytes `mem[I .. I+n-1]`, without a bounds check. -/
def State.spriteRows (s : State) (n : Nat) : List Byte := (List.range n).map fun k => s.mem.read (s.I.toNat + k)

@[simp] theorem State.spriteRows_length (s : State) (n : Nat) : (s.spriteRows n).length = n := by simp [State.spriteRows]

@[simp] theorem State.spriteRows_getElem (s : State) (n k : Nat) (h : k < (s.spriteRows n).length) :
    (s.spriteRows n)[k] = s.mem.read (s.I.toNat + k) := by simp [State.spriteRows]

theorem exec_drw_inRange {s : State} (x y : RegIdx) {n : Nibble} (h : InRange s n.toNat) :
    exec (.drw x y n) s = .next (drawSprite s x y (s.spriteRows n.toNat)).advance := by
  have hread : memReadBytes s.mem (effectiveAddress s 0) n.toNat = .ok (s.spriteRows n.toNat) :=
    (memReadBytes_eq _ _ _).trans (if_pos h)
  rw [exec, execDrw, hread, settle_ok]

theorem exec_drw_outOfRange {s : State} (x y : RegIdx) {n : Nibble} (h : ¬ InRange s n.toNat) :
    exec (.drw x y n) s = .next (s.raise (.outOfRange .mem (max s.I.toNat 4096))) := by
  have hread : memReadBytes s.mem (effectiveAddress s 0) n.toNat = .error (.outOfRange .mem (max s.I.toNat 4096)) :=
    (memReadBytes_eq _ _ _).trans (if_neg h)
  rw [exec, execDrw, hread, settle_error]

theorem raise_eq_errored (s : State) (e : Error) : s.raise e = errored s e := by
  rw [errored, ← raise_fault_eq_or]
  rfl

/-- Settles O24: the lowest address out of range is `I` itself or 4096. -/
theorem drwReportsLowestRowOutOfRange : Obligations.DrwReportsLowestRowOutOfRange := by
  intro s x y n r hr hout hlow
  have hnot : ¬ InRange s n.toNat := by
    rintro (h | h) <;> omega
  have haddr : max s.I.toNat 4096 = s.I.toNat + r := by
    rcases Nat.eq_zero_or_pos r with rfl | hpos
    · omega
    · have := hlow (r - 1) (by omega)
      omega
  rw [exec_drw_outOfRange x y hnot, haddr, raise_eq_errored]

/-! The word DXYN (30_encoding R94). -/

/-- What the decoder finds in a word of four digits. -/
theorem fields_hex4 (a : Nat) (x y : RegIdx) (n : Nibble) :
    fieldX (hex4 a x.val y.val n.toNat) = x ∧ fieldY (hex4 a x.val y.val n.toNat) = y ∧
      fieldN (hex4 a x.val y.val n.toNat) = n ∧ hex4 a x.val y.val n.toNat &&& 0xF000 = BitVec.ofNat 16 (a * 4096) := by
  have hx := x.isLt
  have hy := y.isLt
  have hn := n.isLt
  refine ⟨Fin.ext ?_, Fin.ext ?_, BitVec.eq_of_toNat_eq ?_, BitVec.eq_of_toNat_eq ?_⟩ <;>
    simp only [fieldX, fieldY, fieldN, toNat_and_F000, hex4, BitVec.toNat_setWidth, BitVec.toNat_ofNat] <;> omega

theorem decodes_hex4_drw (x y : RegIdx) (n : Nibble) : Decodes (hex4 0xD x.val y.val n.toNat) (.drw x y n) := by
  obtain ⟨hx, hy, hn, hmask⟩ := fields_hex4 0xD x y n
  simpa only [hx, hy, hn] using decodes_of_row (n := 22) rfl hmask

/-! Where a sprite's 1 bits land (40_display R123, R124, R127). -/

/-- The pixel the sprite bit of row `rc.1` and column `rc.2` lands on, with the coordinate registers as `s` holds them. -/
def landing (s : State) (x y : RegIdx) (rc : Nat × Nat) : Fin 32 × Fin 64 :=
  (wrapRow (s.reg y) rc.1, wrapColumn (s.reg x) rc.2)

/-- The pixels under the 1 bits of the sprite of `n` rows at `I`. -/
def coveredPixels (s : State) (x y : RegIdx) (n : Nibble) : List (Fin 32 × Fin 64) :=
  (litBits 0 (s.spriteRows n.toNat)).map (landing s x y)

theorem mem_coveredPixels (s : State) (x y : RegIdx) (n : Nibble) (r : Fin 32) (c : Fin 64) :
    (r, c) ∈ coveredPixels s x y n ↔ Covered s x y n r c := by
  simp only [coveredPixels, List.mem_map, Prod.exists, mem_litBits, landing, Prod.mk.injEq, Covered, wrapRow, wrapColumn,
    Fin.ext_iff, State.spriteRows_getElem, State.spriteRows_length, Nat.zero_le, true_and, Nat.sub_zero]
  constructor
  · rintro ⟨k, j, ⟨hj, hk, hbit⟩, hr, hc⟩
    exact ⟨k, j, hk, hj, hr.symm, hc.symm, hbit⟩
  · rintro ⟨k, j, hk, hj, hr, hc, hbit⟩
    exact ⟨k, j, ⟨hj, hk, hbit⟩, hr.symm, hc.symm⟩

theorem exists_mem_coveredPixels {s : State} {x y : RegIdx} {n : Nibble} {P : Fin 32 × Fin 64 → Prop} :
    (∃ p ∈ coveredPixels s x y n, P p) ↔ ∃ r c, Covered s x y n r c ∧ P (r, c) := by
  simp only [Prod.exists, mem_coveredPixels]

theorem nodup_litBits (bs : List Byte) (r : Nat) : (litBits r bs).Nodup := by
  induction bs generalizing r with
  | nil => exact List.nodup_nil
  | cons b bs ih =>
    refine List.Nodup.append ?_ (ih (r + 1)) ?_
    · exact (List.nodup_range.filter _).map fun _ _ h => (Prod.mk.inj h).2
    · intro rc hrow hrest
      obtain ⟨c, -, rfl⟩ := List.mem_map.mp hrow
      have := ((mem_litBits bs (r + 1) r c).mp hrest).1
      omega

/-- No pixel is addressed twice (40_display R127): the rows, fewer than 32, and the 8 columns are distinct after wrapping. -/
theorem nodup_coveredPixels (s : State) (x y : RegIdx) (n : Nibble) : (coveredPixels s x y n).Nodup := by
  have hn := n.isLt
  refine (nodup_litBits _ 0).map_on ?_
  rintro ⟨r, c⟩ hrc ⟨r', c'⟩ hrc' heq
  obtain ⟨-, hc, hr, -⟩ := (mem_litBits _ 0 r c).mp hrc
  obtain ⟨-, hc', hr', -⟩ := (mem_litBits _ 0 r' c').mp hrc'
  simp only [State.spriteRows_length, landing, wrapRow, wrapColumn, Prod.mk.injEq, Fin.mk.injEq] at hr hr' heq ⊢
  omega

/-! One 1 bit, and when the coordinate registers are read. -/

theorem operandState_latched {o : State} (ho : o.params.operandRead = .latched) (s : State) : operandState o s = o := by
  rw [operandState, ho]

theorem operandState_sequential {o : State} (ho : o.params.operandRead = .sequential) (s : State) :
    operandState o s = s := by
  rw [operandState, ho]

/-- A 1 bit flips the pixel it lands on, and no other. -/
theorem pixelGet_drawBit (before : State) (x y : RegIdx) (s : State) (rc : Nat × Nat) (r : Fin 32) (c : Fin 64) :
    pixelGet (drawBit before x y s rc).fb r c =
      if (r, c) = landing (operandState before s) x y rc then !pixelGet s.fb r c else pixelGet s.fb r c := by
  rw [drawBit_eq]
  simp only [pixelGet_pixelSet, landing, Prod.mk.injEq]
  split
  · rename_i h
    rw [h.1, h.2]
  · rfl

/-! DRW's second phase under the latched reading: the pixels and the flag after a list of 1 bits on distinct pixels. -/

section
variable {o : State} {x y : RegIdx}

theorem pixelGet_drawBit_latched (ho : o.params.operandRead = .latched) (s : State) (rc : Nat × Nat) (r : Fin 32)
    (c : Fin 64) : pixelGet (drawBit o x y s rc).fb r c =
      if (r, c) = landing o x y rc then !pixelGet s.fb r c else pixelGet s.fb r c := by
  rw [pixelGet_drawBit, operandState_latched ho]

theorem reg_drawBit_latched (ho : o.params.operandRead = .latched) (s : State) (rc : Nat × Nat) (j : RegIdx) :
    (drawBit o x y s rc).reg j =
      if j = flagReg ∧ pixelGet s.fb (landing o x y rc).1 (landing o x y rc).2 = true then 1 else s.reg j := by
  rw [reg_drawBit, operandState_latched ho]
  rfl

/-- A bit that lands elsewhere leaves a pixel alone. -/
theorem pixelGet_drawBit_latched_of_notMem (ho : o.params.operandRead = .latched) (s : State) {rc : Nat × Nat}
    {ps : List (Fin 32 × Fin 64)} (hrc : landing o x y rc ∉ ps) {p : Fin 32 × Fin 64} (hp : p ∈ ps) :
    pixelGet (drawBit o x y s rc).fb p.1 p.2 = pixelGet s.fb p.1 p.2 := by
  rw [pixelGet_drawBit_latched ho, if_neg]
  exact fun h => hrc (h ▸ hp)

theorem pixelGet_drawBits_latched (ho : o.params.operandRead = .latched) {bits : List (Nat × Nat)}
    (hnodup : (bits.map (landing o x y)).Nodup) (s : State) (r : Fin 32) (c : Fin 64) :
    pixelGet (bits.foldl (drawBit o x y) s).fb r c =
      if (r, c) ∈ bits.map (landing o x y) then !pixelGet s.fb r c else pixelGet s.fb r c := by
  induction bits generalizing s with
  | nil => rfl
  | cons b bits ih =>
    obtain ⟨hb, hrest⟩ := List.nodup_cons.mp hnodup
    simp only [List.foldl_cons, ih hrest, pixelGet_drawBit_latched ho, List.map_cons, List.mem_cons]
    rcases eq_or_ne (r, c) (landing o x y b) with hrc | hrc
    · rw [if_neg (hrc ▸ hb), if_pos hrc, if_pos (.inl hrc)]
    · simp only [if_neg hrc, or_iff_right hrc]

theorem reg_flagReg_drawBits_latched (ho : o.params.operandRead = .latched) {bits : List (Nat × Nat)}
    (hnodup : (bits.map (landing o x y)).Nodup) (s : State) :
    (bits.foldl (drawBit o x y) s).reg flagReg =
      if ∃ p ∈ bits.map (landing o x y), pixelGet s.fb p.1 p.2 = true then 1 else s.reg flagReg := by
  induction bits generalizing s with
  | nil => simp
  | cons b bits ih =>
    obtain ⟨hb, hrest⟩ := List.nodup_cons.mp hnodup
    have hrestPixels : (∃ p ∈ bits.map (landing o x y), pixelGet (drawBit o x y s b).fb p.1 p.2 = true) ↔
        ∃ p ∈ bits.map (landing o x y), pixelGet s.fb p.1 p.2 = true :=
      exists_congr fun p => and_congr_right fun hp => by rw [pixelGet_drawBit_latched_of_notMem ho s hb hp]
    simp only [List.foldl_cons, ih hrest, reg_drawBit_latched ho, List.map_cons, List.exists_mem_cons_iff, hrestPixels,
      true_and]
    by_cases hset : pixelGet s.fb (landing o x y b).1 (landing o x y b).2 = true
    · simp only [if_pos hset, ite_self, if_pos (Or.inl hset)]
    · simp only [if_neg hset, or_iff_right hset]

/-- DRW's second phase under the sequential reading is that under the latched one as long as the coordinate registers stay as
`o` holds them: they are not the flag register, or no pixel under a 1 bit is set, so that the flag is never written. -/
theorem drawBits_sequential_eq_latched (ho : o.params.operandRead = .latched) {before s : State}
    (hseq : before.params.operandRead = .sequential) {bits : List (Nat × Nat)}
    (hnodup : (bits.map (landing o x y)).Nodup) (hx : s.reg x = o.reg x) (hy : s.reg y = o.reg y)
    (hkeep : (x ≠ flagReg ∧ y ≠ flagReg) ∨ ∀ p ∈ bits.map (landing o x y), pixelGet s.fb p.1 p.2 = false) :
    bits.foldl (drawBit before x y) s = bits.foldl (drawBit o x y) s := by
  induction bits generalizing s with
  | nil => rfl
  | cons b bits ih =>
    obtain ⟨hb, hrest⟩ := List.nodup_cons.mp hnodup
    have hbit : drawBit before x y s b = drawBit o x y s b := by
      simp only [drawBit, operandState_sequential hseq, operandState_latched ho, hx, hy]
    have hreg : ∀ j, j ≠ flagReg ∨ pixelGet s.fb (landing o x y b).1 (landing o x y b).2 = false →
        (drawBit o x y s b).reg j = s.reg j := by
      intro j hj
      rw [reg_drawBit_latched ho, if_neg]
      rintro ⟨rfl, hset⟩
      simp [hset] at hj
    rw [List.foldl_cons, List.foldl_cons, hbit]
    rcases hkeep with ⟨hxf, hyf⟩ | hblank
    · exact ih hrest ((hreg x (.inl hxf)).trans hx) ((hreg y (.inl hyf)).trans hy) (.inl ⟨hxf, hyf⟩)
    · have hclear := hblank _ List.mem_cons_self
      refine ih hrest ((hreg x (.inr hclear)).trans hx) ((hreg y (.inr hclear)).trans hy) (.inr fun p hp => ?_)
      rw [pixelGet_drawBit_latched_of_notMem ho s hb hp]
      exact hblank p (List.mem_cons_of_mem _ hp)

end

/-! DRW as a whole. -/

/-- `t` has the pixels of `fb` with those of `C` flipped, and its flag register says whether one of them was set. -/
structure Flips (C : Fin 32 → Fin 64 → Prop) (fb : Framebuffer) (t : State) : Prop where
  covered : ∀ r c, C r c → pixelGet t.fb r c = !pixelGet fb r c
  uncovered : ∀ r c, ¬ C r c → pixelGet t.fb r c = pixelGet fb r c
  flag_set : (∃ r c, C r c ∧ pixelGet fb r c = true) → t.reg 15 = 1
  flag_clear : (∀ r c, C r c → pixelGet fb r c = false) → t.reg 15 = 0

/-- The pixels and the flag are determined. -/
theorem Flips.unique {C : Fin 32 → Fin 64 → Prop} {fb : Framebuffer} {t u : State} (ht : Flips C fb t)
    (hu : Flips C fb u) : u.fb = t.fb ∧ u.reg 15 = t.reg 15 := by
  refine ⟨Framebuffer.ext_pixels fun r c => ?_, ?_⟩
  · by_cases h : C r c
    · rw [ht.covered r c h, hu.covered r c h]
    · rw [ht.uncovered r c h, hu.uncovered r c h]
  · by_cases h : ∃ r c, C r c ∧ pixelGet fb r c = true
    · rw [ht.flag_set h, hu.flag_set h]
    · have hclear : ∀ r c, C r c → pixelGet fb r c = false := by simpa using h
      rw [ht.flag_clear hclear, hu.flag_clear hclear]

/-- DRW flips what the sprite covers with the coordinate registers of `o`, if its second phase reads them as `o` holds them. -/
theorem flips_drawSprite {s o : State} {x y : RegIdx} {n : Nibble} (ho : o.params.operandRead = .latched)
    (hfold : (litBits 0 (o.spriteRows n.toNat)).foldl (drawBit s x y) (s.setFlag false) =
      (litBits 0 (o.spriteRows n.toNat)).foldl (drawBit o x y) (s.setFlag false)) :
    Flips (Covered o x y n) s.fb (drawSprite s x y (o.spriteRows n.toNat)).advance := by
  have hpixel (r : Fin 32) (c : Fin 64) :
      pixelGet (drawSprite s x y (o.spriteRows n.toNat)).advance.fb r c =
        if (r, c) ∈ coveredPixels o x y n then !pixelGet s.fb r c else pixelGet s.fb r c := by
    rw [State.advance_fb, drawSprite, hfold]
    exact pixelGet_drawBits_latched ho (nodup_coveredPixels o x y n) _ r c
  have hflag : (drawSprite s x y (o.spriteRows n.toNat)).advance.reg 15 =
      if ∃ p ∈ coveredPixels o x y n, pixelGet s.fb p.1 p.2 = true then 1 else 0 := by
    have h := reg_flagReg_drawBits_latched ho (nodup_coveredPixels o x y n) (s.setFlag false)
    rw [State.reg_setFlag, if_pos rfl] at h
    rw [State.reg_advance, drawSprite, hfold]
    exact h
  refine ⟨fun r c h => ?_, fun r c h => ?_, fun h => ?_, fun h => ?_⟩
  · rw [hpixel, if_pos ((mem_coveredPixels o x y n r c).mpr h)]
  · rw [hpixel, if_neg (mt (mem_coveredPixels o x y n r c).mp h)]
  · rw [hflag, if_pos (exists_mem_coveredPixels.mpr h)]
  · rw [hflag, if_neg]
    intro hset
    obtain ⟨r, c, hcov, hset⟩ := exists_mem_coveredPixels.mp hset
    simp [h r c hcov] at hset

theorem drawsOnly_drawSprite (s : State) (x y : RegIdx) (bs : List Byte) : DrawsOnly s (drawSprite s x y bs).advance := by
  obtain ⟨hregs, hframe⟩ := drawBits_frame s x y (litBits 0 bs) (s.setFlag false)
  have hstate : (drawSprite s x y bs).advance =
      { s with fb := (drawSprite s x y bs).fb, regs := (drawSprite s x y bs).regs, dirty := true, pc := s.pc + 2 } := by
    unfold drawSprite
    rw [hframe]
    rfl
  refine ⟨fun j hj => ?_, rfl, ?_, fun a => ?_, ?_⟩
  · exact (hregs j hj).trans ((State.reg_setFlag s j false).trans (if_neg hj))
  all_goals rw [hstate]

/-- What DRW does under the latched reading. -/
theorem flips_drawSprite_latched {s : State} (hlat : s.params.operandRead = .latched) (x y : RegIdx) (n : Nibble) :
    Flips (Covered s x y n) s.fb (drawSprite s x y (s.spriteRows n.toNat)).advance :=
  flips_drawSprite hlat rfl

/-- Settles O22: `flips_drawSprite_latched`, with the frame of `drawsOnly_drawSprite`. -/
theorem drwXorsTheWrappedSprite : Obligations.DrwXorsTheWrappedSprite := by
  intro s x y n hlat hin
  obtain ⟨hcov, huncov, hset, hclear⟩ := flips_drawSprite_latched hlat x y n
  obtain ⟨hregs, hdirty, hpc, hmem, hframe⟩ := drawsOnly_drawSprite s x y (s.spriteRows n.toNat)
  exact ⟨decodes_hex4_drw x y n, _, exec_drw_inRange x y hin, hcov, huncov, hset, hclear, hregs, hdirty, by rw [hframe], hpc,
    hmem, hframe⟩

theorem covered_congr {s t : State} {x y : RegIdx} (hmem : t.mem = s.mem) (hI : t.I = s.I) (hx : t.reg x = s.reg x)
    (hy : t.reg y = s.reg y) (n : Nibble) : Covered t x y n = Covered s x y n := by
  funext r c
  simp only [Covered, hmem, hI, hx, hy]

/-- Settles O25: the second draw covers the pixels of the first, since the coordinate registers, `I` and memory are kept. -/
theorem drawingTwiceErases : Obligations.DrawingTwiceErases := by
  intro s x y n hlat hin hx hy
  have hfirst := flips_drawSprite_latched hlat x y n
  obtain ⟨hregs, -, -, -, hframe⟩ := drawsOnly_drawSprite s x y (s.spriteRows n.toNat)
  have hexec := exec_drw_inRange x y hin
  generalize (drawSprite s x y (s.spriteRows n.toNat)).advance = t at hfirst hregs hframe hexec
  have hI : t.I = s.I := by rw [hframe]
  have hmem : t.mem = s.mem := by rw [hframe]
  have hparams : t.params = s.params := by rw [hframe]
  have hsecond := flips_drawSprite_latched (hparams ▸ hlat) x y n
  rw [covered_congr hmem hI (hregs x hx) (hregs y hy) n] at hsecond
  have hblank : s.fb = blankFramebuffer → ∀ r c, pixelGet s.fb r c = false := fun h r c => h ▸ pixelGet_blank r c
  refine ⟨t, _, hexec, exec_drw_inRange x y (by rwa [InRange, hI]), Framebuffer.ext_pixels fun r c => ?_, fun h => ?_,
    fun h hsome => ?_⟩
  · by_cases hcov : Covered s x y n r c
    · rw [hsecond.covered r c hcov, hfirst.covered r c hcov, Bool.not_not]
    · rw [hsecond.uncovered r c hcov, hfirst.uncovered r c hcov]
  · exact hfirst.flag_clear fun r c _ => hblank h r c
  · obtain ⟨r, c, hcov⟩ := hsome
    exact hsecond.flag_set ⟨r, c, hcov, by rw [hfirst.covered r c hcov, hblank h, Bool.not_false]⟩

/-! DRW under the sequential reading (40_display R122, D5). -/

/-- What the pseudocode's second phase has reached in a state. -/
def State.drawing (t : State) : Drawing := ⟨pixelGet t.fb, (t.reg 15).toNat⟩

theorem sequentialDrawing_eq_foldl (s : State) (x y : RegIdx) (n : Nibble) :
    sequentialDrawing s x y n = (litBits 0 (s.spriteRows n.toNat)).foldl (fun d rc => d.flip s x y rc.1 rc.2)
      ⟨pixelGet s.fb, 0⟩ := by
  rw [foldl_litBits, State.spriteRows_length, sequentialDrawing]
  refine List.foldl_ext _ _ _ fun d r hr => ?_
  have hrow : (s.spriteRows n.toNat).getD r 0 = s.mem.read (s.I.toNat + r) := by
    rw [List.getD_eq_getElem _ _ (by simpa using hr), State.spriteRows_getElem]
  simp only [hrow, Nat.zero_add]

section
variable {s t : State} (hregs : ∀ j, j ≠ flagReg → t.reg j = s.reg j)
include hregs

/-- A register read under the sequential reading, as the pseudocode writes it. -/
theorem toNat_reg_eq_ite (i : RegIdx) : (t.reg i).toNat = if i = 15 then t.drawing.flag else (s.reg i).toNat := by
  split
  · subst i
    rfl
  · rw [hregs i ‹_›]

/-- One 1 bit, in the model and in the pseudocode. -/
theorem drawing_drawBit_sequential {before : State} (hseq : before.params.operandRead = .sequential) (x y : RegIdx)
    (rc : Nat × Nat) : (drawBit before x y t rc).drawing = t.drawing.flip s x y rc.1 rc.2 := by
  have hrow : wrapRow (t.reg y) rc.1 = Fin.ofNat 32 ((if y = 15 then t.drawing.flag else (s.reg y).toNat) + rc.1) := by
    rw [← toNat_reg_eq_ite hregs]
    rfl
  have hcolumn : wrapColumn (t.reg x) rc.2 =
      Fin.ofNat 64 ((if x = 15 then t.drawing.flag else (s.reg x).toNat) + rc.2) := by
    rw [← toNat_reg_eq_ite hregs]
    rfl
  rw [Drawing.flip, ← hrow, ← hcolumn, State.drawing, Drawing.mk.injEq, reg_drawBit, operandState_sequential hseq]
  refine ⟨funext₂ fun r c => ?_, ?_⟩
  · simp only [pixelGet_drawBit, operandState_sequential hseq, landing, Prod.mk.injEq]
    rfl
  · simp only [show (15 : RegIdx) = flagReg from rfl, true_and]
    exact apply_ite BitVec.toNat _ _ _

theorem drawing_drawBits_sequential {before : State} (hseq : before.params.operandRead = .sequential) (x y : RegIdx)
    (bits : List (Nat × Nat)) : (bits.foldl (drawBit before x y) t).drawing =
      bits.foldl (fun d rc => d.flip s x y rc.1 rc.2) t.drawing := by
  induction bits generalizing t with
  | nil => rfl
  | cons b bits ih =>
    have hbit : ∀ j, j ≠ flagReg → (drawBit before x y t b).reg j = s.reg j := fun j hj => by
      rw [reg_drawBit, if_neg (mt And.left hj), hregs j hj]
    rw [List.foldl_cons, List.foldl_cons, ih hbit, drawing_drawBit_sequential hregs hseq]

end

/-- What DRW does under the sequential reading. -/
theorem drawing_drawSprite_sequential {s : State} (hseq : s.params.operandRead = .sequential) (x y : RegIdx) (n : Nibble) :
    (drawSprite s x y (s.spriteRows n.toNat)).advance.drawing = sequentialDrawing s x y n := by
  have hregs : ∀ j, j ≠ flagReg → (s.setFlag false).reg j = s.reg j := fun j hj => by rw [State.reg_setFlag, if_neg hj]
  have hstart : (s.setFlag false).drawing = ⟨pixelGet s.fb, 0⟩ := by
    rw [State.drawing, State.reg_setFlag]
    rfl
  rw [sequentialDrawing_eq_foldl, ← hstart]
  exact drawing_drawBits_sequential hregs hseq x y _

theorem flips_drawSprite_sequential {s o : State} {x y : RegIdx} {n : Nibble}
    (hseq : s.params.operandRead = .sequential) (ho : o.params.operandRead = .latched)
    (hrows : o.spriteRows n.toNat = s.spriteRows n.toNat)
    (hread : ∀ j, j = x ∨ j = y → (s.setFlag false).reg j = o.reg j)
    (hkeep : (x ≠ 15 ∧ y ≠ 15) ∨ ∀ r c, Covered o x y n r c → pixelGet s.fb r c = false) :
    Flips (Covered o x y n) s.fb (drawSprite s x y (s.spriteRows n.toNat)).advance := by
  rw [← hrows]
  refine flips_drawSprite ho (drawBits_sequential_eq_latched ho hseq (nodup_coveredPixels o x y n) (hread x (.inl rfl))
    (hread y (.inr rfl)) (hkeep.imp_right fun hclear p hp => ?_))
  exact hclear p.1 p.2 ((mem_coveredPixels o x y n p.1 p.2).mp hp)

theorem regs_ext {t u : State} (h : ∀ j, u.reg j = t.reg j) : u.regs = t.regs :=
  Vector.ext fun j hj => h ⟨j, hj⟩

/-- Settles O23: the sequential drawing is `drawing_drawSprite_sequential`; where the flag cannot move the sprite, both readings
flip the same pixels. -/
theorem drwReadingsAgreeOffTheFlag : Obligations.DrwReadingsAgreeOffTheFlag := by
  intro s x y n hin
  have hdrawing := drawing_drawSprite_sequential (s := withRead s .sequential) rfl x y n
  have htOnly := drawsOnly_drawSprite (withRead s .latched) x y (s.spriteRows n.toNat)
  have huOnly := drawsOnly_drawSprite (withRead s .sequential) x y (s.spriteRows n.toNat)
  refine ⟨_, _, exec_drw_inRange (s := withRead s .latched) x y hin, exec_drw_inRange (s := withRead s .sequential) x y hin,
    fun r c => congrFun (congrFun (congrArg Drawing.pixel hdrawing) r) c, congrArg Drawing.flag hdrawing,
    fun hclear => ?_, fun hx hy => ?_, htOnly, huOnly⟩
  · have hflips : Flips (Covered (s.setReg 15 0) x y n) s.fb _ :=
      flips_drawSprite_sequential (s := withRead s .sequential) (o := withRead (s.setReg 15 0) .latched) rfl rfl rfl
        (fun _ _ => rfl) (.inr hclear)
    exact ⟨fun r c h => (hflips.covered r c h).trans (congrArg not (hclear r c h)), hflips.uncovered,
      hflips.flag_clear hclear⟩
  · have hread : ∀ j, j = x ∨ j = y → ((withRead s .sequential).setFlag false).reg j = (withRead s .latched).reg j := by
      rintro j (rfl | rfl)
      · exact State.reg_setReg_other _ _ hx
      · exact State.reg_setReg_other _ _ hy
    have ht : Flips (Covered s x y n) s.fb _ := flips_drawSprite_latched (s := withRead s .latched) rfl x y n
    have hu : Flips (Covered s x y n) s.fb _ :=
      flips_drawSprite_sequential (s := withRead s .sequential) (o := withRead s .latched) rfl rfl rfl hread (.inl ⟨hx, hy⟩)
    obtain ⟨hfb, hflag⟩ := ht.unique hu
    obtain ⟨htregs, -⟩ := htOnly
    obtain ⟨huregs, -⟩ := huOnly
    refine ⟨hfb, regs_ext fun j => ?_⟩
    by_cases hj : j = 15
    · exact hj ▸ hflag
    · exact (huregs j hj).trans (htregs j hj).symm

end Sys2Proof.Machine
end

section
/-!
PROOFS. Control transfer (41_control_flow R140 to R147): RET and CALL on the call stack, the two jumps and the register skips.
-/
open Sys2Proof.Claims

namespace Sys2Proof.Machine

/-! The words aNNN, aXNN and aXYd (00_scope R8): each decodes by the row of 30_encoding R94 whose pattern fixes its other
digits. -/

section
variable {n : Nat} {m : String} {a : Nat}

theorem decodes_hexNNN {f : Addr12 → Instr}
    (hrow : opRows[n]? = some ⟨m, 0xF000, BitVec.ofNat 16 (a * 4096), fun w => f (fieldNNN w)⟩) (nnn : Addr12) :
    Decodes (hexNNN a nnn) (f nnn) := by
  have hlt := nnn.isLt
  have hfield : fieldNNN (hexNNN a nnn) = nnn := BitVec.eq_of_toNat_eq (by
    simp only [fieldNNN, hexNNN, BitVec.toNat_setWidth, BitVec.toNat_ofNat]; omega)
  have hmatch : hexNNN a nnn &&& 0xF000 = BitVec.ofNat 16 (a * 4096) := BitVec.eq_of_toNat_eq (by
    simp only [toNat_and_F000, hexNNN, BitVec.toNat_ofNat]; omega)
  simpa only [hfield] using decodes_of_row hrow hmatch

theorem decodes_hexXNN {f : RegIdx → Byte → Instr}
    (hrow : opRows[n]? = some ⟨m, 0xF000, BitVec.ofNat 16 (a * 4096), fun w => f (fieldX w) (fieldNN w)⟩) (x : RegIdx)
    (nn : Byte) : Decodes (hexXNN a x nn) (f x nn) := by
  have hx := x.isLt
  have hlt := nn.isLt
  have hfieldX : fieldX (hexXNN a x nn) = x := Fin.ext (by
    simp only [fieldX, hexXNN, BitVec.toNat_ofNat]; omega)
  have hfieldNN : fieldNN (hexXNN a x nn) = nn := BitVec.eq_of_toNat_eq (by
    simp only [fieldNN, hexXNN, BitVec.toNat_setWidth, BitVec.toNat_ofNat]; omega)
  have hmatch : hexXNN a x nn &&& 0xF000 = BitVec.ofNat 16 (a * 4096) := BitVec.eq_of_toNat_eq (by
    simp only [toNat_and_F000, hexXNN, BitVec.toNat_ofNat]; omega)
  simpa only [hfieldX, hfieldNN] using decodes_of_row hrow hmatch

theorem decodes_hex4_xy {f : RegIdx → RegIdx → Instr} {d : Nibble}
    (hrow : opRows[n]? = some ⟨m, 0xF00F, BitVec.ofNat 16 (a * 4096 + d.toNat), fun w => f (fieldX w) (fieldY w)⟩)
    (x y : RegIdx) : Decodes (hex4 a x.val y.val d.toNat) (f x y) := by
  have hx := x.isLt
  have hy := y.isLt
  have hd := d.isLt
  obtain ⟨hfieldX, hfieldY, -, -⟩ := fields_hex4 a x y d
  have hmatch : hex4 a x.val y.val d.toNat &&& 0xF00F = BitVec.ofNat 16 (a * 4096 + d.toNat) := BitVec.eq_of_toNat_eq (by
    simp only [toNat_and_F00F, hex4, BitVec.toNat_ofNat]; omega)
  simpa only [hfieldX, hfieldY] using decodes_of_row hrow hmatch

end

/-! Targets. -/

theorem addressOf_eq_ofNat (nnn : Addr12) : addressOf nnn = BitVec.ofNat 16 nnn.toNat := (BitVec.ofNat_toNat 16 nnn).symm

theorem toNat_addressOf (nnn : Addr12) : (addressOf nnn).toNat = nnn.toNat :=
  BitVec.toNat_setWidth_of_le (by decide)

theorem offsetTarget_eq_ofNat (s : State) (nnn : Addr12) :
    offsetTarget s nnn = BitVec.ofNat 16 ((nnn.toNat + (s.reg 0).toNat) % 65536) :=
  BitVec.eq_of_toNat_eq (Nat.mod_mod _ _).symm

theorem skipIf_eq_skipTarget {s : State} {b : Bool} {c : Prop} [Decidable c] (h : b = true ↔ c) :
    s.skipIf b = { s with pc := skipTarget s c } := by
  simp only [State.skipIf, skipTarget, h]

/-! RET and CALL. -/

/-- Settles O26: the two endings of RET. -/
theorem retPopsOrUnderflows : Obligations.RetPopsOrUnderflows := by
  refine fun s => ⟨decodes_encode .ret, fun hsp => ⟨_, exec_ret_pop hsp, rfl, rfl, fun _ => rfl, rfl⟩, fun hempty => ?_⟩
  rw [exec_ret_empty (by omega), raise_eq_errored]

/-- Settles O27: the two endings of CALL; its push writes the entry at `sp` alone. -/
theorem callPushesOrOverflows : Obligations.CallPushesOrOverflows := by
  refine fun s nnn => ⟨decodes_hexNNN (n := 3) rfl nnn, fun hsp => ⟨_, exec_call_push nnn hsp, ?_, fun k hk => ?_, rfl,
    toNat_addressOf nnn, fun _ => rfl, rfl⟩, fun hfull => ?_⟩
  · rw [Vector.getElem_set_self, BitVec.toNat_add]
    rfl
  · exact Vector.getElem_set_ne hsp k.isLt hk.symm
  · rw [exec_call_full nnn (by omega), raise_eq_errored]

/-- Settles O28: the RET after a CALL pops the entry the CALL wrote. -/
theorem callThenRetReturns : Obligations.CallThenRetReturns := by
  refine fun s nnn hsp => ⟨_, _, exec_call_push nnn hsp, exec_ret_pop (Nat.succ_pos s.sp.val), ?_, fun k hk => ?_, rfl⟩
  · exact Vector.getElem_set_self hsp
  · exact Vector.getElem_set_ne hsp k.isLt hk.symm

/-! Jumps and skips. -/

/-- Settles O29: the targets of the jumps as the spec writes them, and `skipIf_eq_skipTarget` for the four comparisons. -/
theorem jumpsAndRegisterSkips : Obligations.JumpsAndRegisterSkips := by
  intro s x y nn nnn
  refine ⟨⟨decodes_hexNNN (n := 2) rfl nnn, ?_⟩, ⟨decodes_hexNNN (n := 20) rfl nnn, ?_⟩,
    ⟨decodes_hexXNN (n := 4) rfl x nn, ?_⟩, ⟨decodes_hexXNN (n := 5) rfl x nn, ?_⟩,
    ⟨decodes_hex4_xy (n := 6) (d := 0) rfl x y, ?_⟩, ⟨decodes_hex4_xy (n := 18) (d := 0) rfl x y, ?_⟩⟩
  · rw [← addressOf_eq_ofNat]
    rfl
  · rw [← offsetTarget_eq_ofNat]
    rfl
  · exact congrArg Host.Outcome.next (skipIf_eq_skipTarget beq_iff_eq)
  · exact congrArg Host.Outcome.next (skipIf_eq_skipTarget bne_iff_ne)
  · exact congrArg Host.Outcome.next (skipIf_eq_skipTarget beq_iff_eq)
  · exact congrArg Host.Outcome.next (skipIf_eq_skipTarget bne_iff_ne)

end Sys2Proof.Machine
end

section
/-!
PROOFS. Register load, ALU and random (42_alu R160 to R176). What the flag-writing instructions do is said once for both
operand readings, over what their operands read as after the flag write (`State.readBack`). Where that is what they held
before it (`State.Keeps`), the results of both readings are the same.
-/
open Sys2Proof.Claims

namespace Sys2Proof.Machine

/-! Instructions that write one register and no flag. -/

theorem writes_of_setReg {i : Instr} {s : State} {x : RegIdx} {v : Byte} (h : exec i s = .next (s.setReg x v).advance) :
    Writes i s x v :=
  ⟨_, h, State.reg_setReg_same s x v, fun _ hj => State.reg_setReg_other s v hj, rfl, fun _ => rfl, rfl⟩

theorem add_eq_ofNat (a b : Byte) : a + b = BitVec.ofNat 8 ((a.toNat + b.toNat) % 256) :=
  BitVec.eq_of_toNat_eq (Nat.mod_mod _ _).symm

/-- Settles O30: each of the six instructions is one register write and the advance. -/
theorem loadsAndLogicWriteOneRegister : Obligations.LoadsAndLogicWriteOneRegister := by
  intro s x y nn
  refine ⟨⟨decodes_hexXNN (n := 7) rfl x nn, writes_of_setReg rfl⟩,
    ⟨decodes_hexXNN (n := 8) rfl x nn, writes_of_setReg ?_⟩,
    ⟨decodes_hex4_xy (n := 9) (d := 0) rfl x y, writes_of_setReg rfl⟩,
    ⟨decodes_hex4_xy (n := 10) (d := 1) rfl x y, writes_of_setReg rfl⟩,
    ⟨decodes_hex4_xy (n := 11) (d := 2) rfl x y, writes_of_setReg rfl⟩,
    ⟨decodes_hex4_xy (n := 12) (d := 3) rfl x y, writes_of_setReg rfl⟩⟩
  rw [← add_eq_ofNat]
  rfl

/-! RND. -/

theorem randomByte_of_queue {s : State} {r : Byte} {rest : List Byte} (h : s.random.queue = r :: rest) :
    s.randomByte = r := by
  rw [State.randomByte, Source.value, h]

/-- Settles O36: one register write, of the byte `State.randomByte` masked, with the source moved on by one draw. -/
theorem rndMasksOneDrawnByte : Obligations.RndMasksOneDrawnByte := by
  intro s x nn
  have hx := State.reg_setReg_same { s with random := s.random.next } x (s.randomByte &&& nn)
  refine ⟨decodes_hexXNN (n := 21) rfl x nn, _, rfl, hx, fun hnn => ?_, fun r rest hq => ⟨?_, ?_⟩, rfl,
    fun j hj => State.reg_setReg_other _ _ hj, rfl, fun _ => rfl, rfl⟩
  · exact hx.trans (by rw [hnn]; exact BitVec.and_zero)
  · exact hx.trans (randomByte_of_queue hq ▸ rfl)
  · exact congrArg List.tail hq

/-! The flags, as the spec writes their values. -/

theorem toNat_flagByte_addCarry (a b : Byte) : (flagByte (addCarry a b)).toNat = bit (a.toNat + b.toNat > 255) := by
  simp only [flagByte_toNat, addCarry, decide_eq_true_eq, bit, gt_iff_lt]

theorem toNat_flagByte_subNoBorrow (a b : Byte) : (flagByte (subNoBorrow a b)).toNat = bit (a.toNat > b.toNat) := by
  simp only [flagByte_toNat, subNoBorrow, decide_eq_true_eq, bit, gt_iff_lt]

theorem toNat_flagByte_shiftOutRight (a : Byte) : (flagByte (shiftOutRight a)).toNat = a.toNat % 2 := by
  have hbit : shiftOutRight a = decide (a.toNat % 2 = 1) := by
    rw [shiftOutRight, BitVec.getLsbD, Nat.testBit_zero]
  simp only [flagByte_toNat, hbit, decide_eq_true_eq]
  split <;> omega

theorem toNat_flagByte_shiftOutLeft (a : Byte) : (flagByte (shiftOutLeft a)).toNat = a.toNat / 128 := by
  have hlt := a.isLt
  have hbit : shiftOutLeft a = decide (a.toNat / 128 % 2 = 1) := by
    rw [shiftOutLeft, BitVec.getLsbD, Nat.testBit_eq_decide_div_mod_eq]
  simp only [flagByte_toNat, hbit, decide_eq_true_eq]
  split <;> omega

/-! The results, as the spec writes them. -/

theorem sub_eq_ofNat (a b : Byte) : a - b = BitVec.ofNat 8 ((256 + a.toNat - b.toNat) % 256) := by
  have hb := b.isLt
  refine BitVec.eq_of_toNat_eq ?_
  simp only [BitVec.toNat_sub, BitVec.toNat_ofNat]
  omega

theorem shiftRight_one_eq_ofNat (a : Byte) : a >>> 1 = BitVec.ofNat 8 (a.toNat / 2) := by
  have ha := a.isLt
  refine BitVec.eq_of_toNat_eq ?_
  simp only [BitVec.toNat_ushiftRight, Nat.shiftRight_one, BitVec.toNat_ofNat]
  omega

theorem shiftLeft_one_eq_ofNat (a : Byte) : a <<< 1 = BitVec.ofNat 8 (a.toNat * 2 % 256) := by
  refine BitVec.eq_of_toNat_eq ?_
  simp only [BitVec.toNat_shiftLeft, Nat.shiftLeft_eq, pow_one, BitVec.toNat_ofNat]
  omega

/-! When the operands of a result are read (00_scope R11, 42_alu R176). -/

/-- What register `j` gives as an operand of the result, once the flag write has given `c`. -/
def State.readBack (s : State) (c : Bool) (j : RegIdx) : Nat := ((operandState s (s.setFlag c)).reg j).toNat

/-- No flag write shows in register `j` when the result's operands are read. -/
def State.Keeps (s : State) (j : RegIdx) : Prop := ∀ c, s.readBack c j = (s.reg j).toNat

theorem keeps_of_latched {s : State} (h : s.params.operandRead = .latched) (j : RegIdx) : s.Keeps j := fun c => by
  rw [State.readBack, operandState_latched h]

theorem keeps_of_ne_flag {s : State} (h : s.params.operandRead = .sequential) {j : RegIdx} (hj : j ≠ 15) : s.Keeps j :=
  fun c => by
    rw [State.readBack, operandState_sequential h]
    exact congrArg BitVec.toNat (State.reg_setReg_other s _ hj)

theorem readBack_flag {s : State} (h : s.params.operandRead = .sequential) (c : Bool) :
    s.readBack c 15 = (flagByte c).toNat := by
  rw [State.readBack, operandState_sequential h]
  exact congrArg BitVec.toNat (State.reg_setReg_same s flagReg _)

/-! The flag-writing instructions under both readings. -/

theorem writesFlagged_of_flagThenResult {i : Instr} {s : State} {x : RegIdx} {c : Bool} {result : State → Byte}
    {v : Byte} {f : Nat} (h : exec i s = .next (s.flagThenResult x c result))
    (hv : result (operandState s (s.setFlag c)) = v) (hf : (flagByte c).toNat = f) : WritesFlagged i s x v f := by
  have hread (j : RegIdx) : (s.flagThenResult x c result).reg j =
      if j = x then v else if j = 15 then flagByte c else s.reg j := by
    rw [State.flagThenResult, hv, State.reg_advance, State.reg_setReg, State.reg_setFlag]
    rfl
  refine ⟨_, h, ?_, fun hx => ?_, fun j hjx hj => ?_, rfl, fun _ => rfl, rfl⟩
  · rw [hread, if_pos rfl]
  · rw [hread, if_neg (Ne.symm hx), if_pos rfl, hf]
  · rw [hread, if_neg hjx, if_neg hj]

theorem writesFlagged_addReg (s : State) (x y : RegIdx) :
    WritesFlagged (.addReg x y) s x (BitVec.ofNat 8 (((s.reg x).toNat + (s.reg y).toNat) % 256))
      (bit ((s.reg x).toNat + (s.reg y).toNat > 255)) :=
  writesFlagged_of_flagThenResult rfl (add_eq_ofNat _ _) (toNat_flagByte_addCarry _ _)

section
variable {s : State} {x y : RegIdx} {a b : Nat}

theorem writesFlagged_subReg (ha : s.readBack (subNoBorrow (s.reg x) (s.reg y)) x = a)
    (hb : s.readBack (subNoBorrow (s.reg x) (s.reg y)) y = b) :
    WritesFlagged (.subReg x y) s x (BitVec.ofNat 8 ((256 + a - b) % 256)) (bit ((s.reg x).toNat > (s.reg y).toNat)) := by
  subst ha hb
  exact writesFlagged_of_flagThenResult rfl (sub_eq_ofNat _ _) (toNat_flagByte_subNoBorrow _ _)

theorem writesFlagged_subnReg (ha : s.readBack (subNoBorrow (s.reg y) (s.reg x)) x = a)
    (hb : s.readBack (subNoBorrow (s.reg y) (s.reg x)) y = b) :
    WritesFlagged (.subnReg x y) s x (BitVec.ofNat 8 ((256 + b - a) % 256)) (bit ((s.reg y).toNat > (s.reg x).toNat)) := by
  subst ha hb
  exact writesFlagged_of_flagThenResult rfl (sub_eq_ofNat _ _) (toNat_flagByte_subNoBorrow _ _)

theorem writesFlagged_shr {j : RegIdx} (hj : shiftOperand s x y = j)
    (ha : s.readBack (shiftOutRight (s.reg j)) j = a) :
    WritesFlagged (.shr x y) s x (BitVec.ofNat 8 (a / 2)) ((s.reg j).toNat % 2) := by
  subst hj ha
  exact writesFlagged_of_flagThenResult rfl (shiftRight_one_eq_ofNat _) (toNat_flagByte_shiftOutRight _)

theorem writesFlagged_shl {j : RegIdx} (hj : shiftOperand s x y = j)
    (ha : s.readBack (shiftOutLeft (s.reg j)) j = a) :
    WritesFlagged (.shl x y) s x (BitVec.ofNat 8 (a * 2 % 256)) ((s.reg j).toNat / 128) := by
  subst hj ha
  exact writesFlagged_of_flagThenResult rfl (shiftLeft_one_eq_ofNat _) (toNat_flagByte_shiftOutLeft _)

end

/-- Settles O31: the operands of the sum are read before the flag write under both readings. -/
theorem addRegWritesSumAndCarry : Obligations.AddRegWritesSumAndCarry :=
  fun s x y => ⟨decodes_hex4_xy (n := 13) (d := 4) rfl x y, writesFlagged_addReg s x y⟩

/-! Where no flag write shows, the results are those of the operands before the instruction. -/

section
variable {s : State} {x y j : RegIdx}

theorem differences_of_keeps (hx : s.Keeps x) (hy : s.Keeps y) :
    WritesFlagged (.subReg x y) s x (BitVec.ofNat 8 ((256 + (s.reg x).toNat - (s.reg y).toNat) % 256))
        (bit ((s.reg x).toNat > (s.reg y).toNat)) ∧
      WritesFlagged (.subnReg x y) s x (BitVec.ofNat 8 ((256 + (s.reg y).toNat - (s.reg x).toNat) % 256))
        (bit ((s.reg y).toNat > (s.reg x).toNat)) :=
  ⟨writesFlagged_subReg (hx _) (hy _), writesFlagged_subnReg (hx _) (hy _)⟩

theorem shifts_of_keeps (hj : shiftOperand s x y = j) (hkeep : s.Keeps j) :
    WritesFlagged (.shr x y) s x (BitVec.ofNat 8 ((s.reg j).toNat / 2)) ((s.reg j).toNat % 2) ∧
      WritesFlagged (.shl x y) s x (BitVec.ofNat 8 ((s.reg j).toNat * 2 % 256)) ((s.reg j).toNat / 128) :=
  ⟨writesFlagged_shr hj (hkeep _), writesFlagged_shl hj (hkeep _)⟩

/-- Under the sequential reading a shift of `x[15]` shifts the flag it has just written (42_alu R176, log 7). -/
theorem shifts_of_flag (hseq : s.params.operandRead = .sequential) (hj : shiftOperand s x y = 15) :
    WritesFlagged (.shr x y) s x 0 ((s.reg 15).toNat % 2) ∧
      WritesFlagged (.shl x y) s x (BitVec.ofNat 8 ((s.reg 15).toNat / 128 * 2 % 256)) ((s.reg 15).toNat / 128) := by
  have hshr := writesFlagged_shr hj ((readBack_flag hseq _).trans (toNat_flagByte_shiftOutRight _))
  have hzero : (s.reg 15).toNat % 2 / 2 = 0 := by omega
  rw [hzero] at hshr
  exact ⟨hshr, writesFlagged_shl hj ((readBack_flag hseq _).trans (toNat_flagByte_shiftOutLeft _))⟩

theorem shiftOperand_x (h : s.params.shiftSource = .x) : shiftOperand s x y = x := by rw [shiftOperand, h]

theorem shiftOperand_y (h : s.params.shiftSource = .y) : shiftOperand s x y = y := by rw [shiftOperand, h]

end

theorem reg_shiftOperand (s : State) (x y : RegIdx) : s.reg (shiftOperand s x y) = shifted s x y := by
  cases h : s.params.shiftSource with
  | x => rw [shiftOperand_x h, shifted, if_pos h]
  | y => rw [shiftOperand_y h, shifted, if_neg (by rw [h]; decide)]

/-- Settles O32: under the latched reading no flag write shows. -/
theorem subAndSubnWriteDifferenceAndNoBorrow : Obligations.SubAndSubnWriteDifferenceAndNoBorrow := by
  intro s x y hlat
  obtain ⟨hsub, hsubn⟩ := differences_of_keeps (keeps_of_latched hlat x) (keeps_of_latched hlat y)
  exact ⟨⟨decodes_hex4_xy (n := 14) (d := 5) rfl x y, hsub⟩, decodes_hex4_xy (n := 16) (d := 7) rfl x y, hsubn⟩

/-- Settles O33: under the latched reading no flag write shows. -/
theorem shiftsWriteShiftedAndBitOut : Obligations.ShiftsWriteShiftedAndBitOut := by
  intro s x y hlat
  obtain ⟨hshr, hshl⟩ := shifts_of_keeps (x := x) (y := y) rfl (keeps_of_latched hlat _)
  rw [reg_shiftOperand] at hshr hshl
  exact ⟨⟨decodes_hex4_xy (n := 15) (d := 6) rfl x y, hshr⟩, decodes_hex4_xy (n := 17) (d := 0xE) rfl x y, hshl⟩

/-- Settles O35: the shifted register is `x[Y]`, which the flag write overwrites exactly if Y = 15. -/
theorem sequentialShiftsOfY : Obligations.SequentialShiftsOfY := by
  intro s x y hseq hsrc
  refine ⟨fun hy => shifts_of_keeps (shiftOperand_y hsrc) (keeps_of_ne_flag hseq hy), ?_⟩
  rintro rfl
  exact shifts_of_flag hseq (shiftOperand_y hsrc)

/-- Settles O34: in each row of R176's table, an operand that is `x[15]` reads as the flag just written, and any other as
before. -/
theorem sequentialReadingResults : Obligations.SequentialReadingResults := by
  intro s x y hseq
  have hkeep {j : RegIdx} (hj : j ≠ 15) : s.Keeps j := keeps_of_ne_flag hseq hj
  have hflag (a b : Byte) : s.readBack (subNoBorrow a b) 15 = bit (a.toNat > b.toNat) :=
    (readBack_flag hseq _).trans (toNat_flagByte_subNoBorrow a b)
  refine ⟨?_, ?_, ?_, fun hx hy => differences_of_keeps (hkeep hx) (hkeep hy), fun hsrc => ⟨?_, fun hx => ?_⟩,
    writesFlagged_addReg s x y⟩
  · rintro rfl hy
    exact ⟨writesFlagged_subReg (hflag _ _) (hkeep hy _), writesFlagged_subnReg (hflag _ _) (hkeep hy _)⟩
  · rintro rfl hx
    exact ⟨writesFlagged_subReg (hkeep hx _) (hflag _ _), writesFlagged_subnReg (hkeep hx _) (hflag _ _)⟩
  · rintro rfl rfl
    have hzero : bit ((s.reg 15).toNat > (s.reg 15).toNat) = 0 := if_neg (lt_irrefl _)
    have hsub := writesFlagged_subReg (hflag (s.reg 15) (s.reg 15)) (hflag _ _)
    have hsubn := writesFlagged_subnReg (hflag (s.reg 15) (s.reg 15)) (hflag _ _)
    rw [hzero] at hsub hsubn
    exact ⟨hsub, hsubn⟩
  · rintro rfl
    exact shifts_of_flag hseq (shiftOperand_x hsrc)
  · exact shifts_of_keeps (shiftOperand_x hsrc) (hkeep hx)

end Sys2Proof.Machine
end

section
/-!
PROOFS. Index register and memory (43_index_memory R190 to R195): the three writers of `I`; the two stores and LD Vx,[I],
each in range and out of it; and that LD Vx,[I] undoes LD [I],Vx.
-/
open Sys2Proof.Claims

namespace Sys2Proof.Machine

/-- The word aXyd (00_scope R8) decodes by the row of 30_encoding R94 whose pattern fixes all digits but `X`. -/
theorem decodes_hex4_x {n : Nat} {m : String} {a : Nat} {f : RegIdx → Instr} {y : RegIdx} {d : Nibble}
    (hrow : opRows[n]? = some ⟨m, 0xF0FF, BitVec.ofNat 16 (a * 4096 + y.val * 16 + d.toNat), fun w => f (fieldX w)⟩)
    (x : RegIdx) : Decodes (hex4 a x.val y.val d.toNat) (f x) := by
  have hx := x.isLt
  have hy := y.isLt
  have hd := d.isLt
  obtain ⟨hfieldX, -, -, -⟩ := fields_hex4 a x y d
  have hmatch : hex4 a x.val y.val d.toNat &&& 0xF0FF = BitVec.ofNat 16 (a * 4096 + y.val * 16 + d.toNat) :=
    BitVec.eq_of_toNat_eq (by simp only [toNat_and_F0FF, hex4, BitVec.toNat_ofNat]; omega)
  simpa only [hfieldX] using decodes_of_row hrow hmatch

/-! The writers of `I` (R190 to R192). -/

theorem toNat_flagByte_indexCarry (i : Word) (a : Byte) :
    (flagByte (indexCarry i a)).toNat = bit (i.toNat + a.toNat > 0xFFF) := by
  simp only [flagByte_toNat, indexCarry, decide_eq_true_eq, bit, gt_iff_lt]

/-- The address of a glyph is far below 65536, so LD F never wraps (R192). -/
theorem toNat_glyphAddress (a : Byte) : (BitVec.ofNat 16 (5 * a.toNat)).toNat = 5 * a.toNat := by
  have := a.isLt
  rw [BitVec.toNat_ofNat]
  omega

/-- Settles O37: LD I and LD F write `I` alone; ADD I then writes the flag register, whatever X is. -/
theorem indexInstructions : Obligations.IndexInstructions := by
  intro s x nnn
  refine ⟨⟨decodes_hexNNN (n := 19) rfl nnn, ?_⟩,
    ⟨decodes_hex4_x (n := 29) (y := 1) (d := 0xE) rfl x, _, rfl, BitVec.toNat_ofNat _ _, ?_,
      fun j hj => State.reg_setReg_other _ _ hj, rfl, fun _ => rfl, rfl⟩,
    ⟨decodes_hex4_x (n := 30) (y := 2) (d := 9) rfl x, _, rfl, toNat_glyphAddress _, rfl, fun _ => rfl, rfl⟩⟩
  · rw [← addressOf_eq_ofNat]
    rfl
  · exact (congrArg BitVec.toNat (State.reg_setReg_same _ flagReg _)).trans (toNat_flagByte_indexCarry _ _)

/-! The two stores (R193, R194). -/

theorem Memory.read_writeAll_getElem (m : Memory) (a : Nat) {bs : List Byte} {k : Nat} (hk : k < bs.length) :
    (m.writeAll a bs).read (a + k) = bs[k] := by
  rw [Memory.read_writeAll, if_pos (Nat.le_add_right _ _), Nat.add_sub_cancel_left, List.getD_eq_getElem _ _ hk]

theorem Memory.read_writeAll_outside (m : Memory) {a b : Nat} {bs : List Byte} (hb : b < a ∨ a + bs.length ≤ b) :
    (m.writeAll a bs).read b = m.read b := by
  by_contra hne
  have := Memory.bounds_of_read_writeAll_ne hne
  omega

theorem memWriteBytes_outOfRange (m : Memory) {a n : Nat} {bs : List Byte} (hlen : bs.length = n + 1) (h : a + n > 4095) :
    memWriteBytes m a bs = .error (.outOfRange .mem (max a 4096)) := by
  rw [memWriteBytes_eq, if_neg (not_or.mpr ⟨List.ne_nil_of_length_eq_add_one hlen, by omega⟩)]

theorem exec_ldB_outOfRange {s : State} {x : RegIdx} (h : s.I.toNat + 2 > 4095) :
    exec (.ldB x) s = .next (s.raise (.outOfRange .mem (max s.I.toNat 4096))) := by
  have hwrite : memWriteBytes s.mem (effectiveAddress s 0) (bcdDigits (s.reg x)) =
      .error (.outOfRange .mem (max s.I.toNat 4096)) := memWriteBytes_outOfRange _ (bcdDigits_length _) h
  rw [exec, execLdB, hwrite, settle_error]

theorem exec_store_outOfRange {s : State} {x : RegIdx} (h : s.I.toNat + x.val > 4095) :
    exec (.store x) s = .next (s.raise (.outOfRange .mem (max s.I.toNat 4096))) := by
  have hwrite : memWriteBytes s.mem (effectiveAddress s 0) (registersUpTo s x) =
      .error (.outOfRange .mem (max s.I.toNat 4096)) := memWriteBytes_outOfRange _ (registersUpTo_length s x) h
  rw [exec, execStore, hwrite, settle_error]

/-- Settles O38: the three stored bytes are the digits, and each digit fits in its byte. -/
theorem ldBStoresDecimalDigits : Obligations.LdBStoresDecimalDigits := by
  refine fun s x => ⟨decodes_hex4_x (n := 31) (y := 3) (d := 3) rfl x, fun hI => ?_, fun hout => ?_⟩
  · obtain ⟨hhundreds, htens, hunits⟩ := toNat_decimalDigits (s.reg x)
    have hlen := bcdDigits_length (s.reg x)
    have hread {k : Nat} (hk : k < (bcdDigits (s.reg x)).length) := Memory.read_writeAll_getElem s.mem s.I.toNat hk
    refine ⟨_, exec_ldB_inRange hI, ?_, ?_, ?_, fun b hb => Memory.read_writeAll_outside _ (by omega), rfl⟩
    · exact (congrArg BitVec.toNat (hread (k := 0) (by omega))).trans hhundreds
    · exact (congrArg BitVec.toNat (hread (k := 1) (by omega))).trans htens
    · exact (congrArg BitVec.toNat (hread (k := 2) (by omega))).trans hunits
  · rw [exec_ldB_outOfRange hout, raise_eq_errored]

/-- Settles O39: the byte stored at offset `k` is `x[k]`. -/
theorem storeWritesRegistersToMemory : Obligations.StoreWritesRegistersToMemory := by
  refine fun s x => ⟨decodes_hex4_x (n := 32) (y := 5) (d := 5) rfl x, fun hI => ?_, fun hout => ?_⟩
  · have hlen := registersUpTo_length s x
    refine ⟨_, exec_store_inRange hI, fun k hk => ?_, fun b hb => Memory.read_writeAll_outside _ (by omega), rfl⟩
    exact (Memory.read_writeAll_getElem _ _ (by omega)).trans (registersUpTo_getElem s x k hk)
  · rw [exec_store_outOfRange hout, raise_eq_errored]

/-! LD Vx,[I] (R195), over the bytes `mem[I .. I+X]` (`State.spriteRows`). -/

theorem exec_load_inRange {s : State} {x : RegIdx} (h : s.I.toNat + x.val ≤ 4095) :
    exec (.load x) s =
      .next { s with regs := setRegsFrom 0 s.regs (s.spriteRows (x.val + 1)), pc := s.pc + 2 } := by
  have hread : memReadBytes s.mem (effectiveAddress s 0) (x.val + 1) = .ok (s.spriteRows (x.val + 1)) :=
    (memReadBytes_eq _ _ _).trans (if_pos (.inr (by rw [effectiveAddress]; omega)))
  rw [exec, execLoad, hread]
  rfl

theorem exec_load_outOfRange {s : State} {x : RegIdx} (h : s.I.toNat + x.val > 4095) :
    exec (.load x) s = .next (s.raise (.outOfRange .mem (max s.I.toNat 4096))) := by
  have hread : memReadBytes s.mem (effectiveAddress s 0) (x.val + 1) = .error (.outOfRange .mem (max s.I.toNat 4096)) :=
    (memReadBytes_eq _ _ _).trans (if_neg (by rw [effectiveAddress]; omega))
  rw [exec, execLoad, hread, settle_error]

/-- Bytes written from register 0 upward leave byte `k` in `x[k]`, and the registers past the last byte alone. -/
theorem State.getElem_setRegsFrom_zero (s : State) (bs : List Byte) (k : RegIdx) :
    (setRegsFrom 0 s.regs bs)[k] = bs.getD k.val (s.reg k) := by
  rw [Fin.getElem_fin, getElem_setRegsFrom, if_pos (Nat.zero_le _)]
  rfl

/-- Settles O40: byte `k` of `mem[I .. I+X]` goes to `x[k]`, and there is none for a register above X. -/
theorem loadReadsRegistersFromMemory : Obligations.LoadReadsRegistersFromMemory := by
  refine fun s x => ⟨decodes_hex4_x (n := 33) (y := 6) (d := 5) rfl x, fun hI => ?_, fun hout => ?_⟩
  · have hlen := s.spriteRows_length (x.val + 1)
    refine ⟨_, exec_load_inRange hI, fun k hk => ?_, fun k hk => ?_, fun _ => rfl, rfl⟩ <;>
      refine (s.getElem_setRegsFrom_zero _ k).trans ?_
    · rw [List.getD_eq_getElem _ _ (by omega), State.spriteRows_getElem]
    · exact List.getD_eq_default _ _ (by omega)
  · rw [exec_load_outOfRange hout, raise_eq_errored]

/-- Settles O41: the store leaves `x[k]` at `I + k` and `I` as it was, and the load reads it there. -/
theorem loadRestoresWhatStoreSaved : Obligations.LoadRestoresWhatStoreSaved := by
  intro s x between hI
  obtain ⟨-, hstore, -⟩ := storeWritesRegistersToMemory s x
  obtain ⟨t, ht, hstored, -, htframe⟩ := hstore hI
  have hIt : t.I = s.I := by rw [htframe]
  obtain ⟨-, hload, -⟩ := loadReadsRegistersFromMemory { t with regs := between } x
  obtain ⟨u, hu, hloaded, -, -, huframe⟩ := hload (by rw [hIt]; exact hI)
  refine ⟨t, u, ht, hu, fun k hk => ?_, by rw [huframe]⟩
  calc u.reg k = t.mem.read (t.I.toNat + k.val) := hloaded k hk
    _ = s.reg k := by rw [hIt, hstored k hk]

end Sys2Proof.Machine
end

section
/-!
PROOFS. Keys and timers (44_keys_timers R210 to R218): which key is selected, LD Vx,K, the key skips in range and out of it,
and the timer transfers, each also in a step that ends with the timer gate.
-/
open Sys2Proof.Claims

namespace Sys2Proof.Machine

/-! The selected key (R214). -/

theorem keySelect_lowest (pick : Nat) (keys : List KeyIdx) : keySelect .lowest pick keys = keys.head? := by
  cases keys <;> rfl

theorem keySelect_drawn (pick : Nat) (keys : List KeyIdx) : keySelect .drawn pick keys = keys[pick % keys.length]? := by
  cases keys with
  | nil => rfl
  | cons k rest =>
    have hlt : pick % (k :: rest).length < (k :: rest).length := Nat.mod_lt _ (Nat.succ_pos _)
    rw [List.getElem?_eq_getElem hlt, ← List.getD_eq_getElem _ k hlt]
    rfl

theorem pressedKeys_rising (key : Vector Bool 16) : (pressedKeys key).Pairwise (· < ·) :=
  (List.pairwise_lt_finRange 16).filter _

theorem exists_selectedKey {s : State} {k : KeyIdx} (hk : s.key[k] = true) : ∃ j, s.selectedKey = some j := by
  refine Option.ne_none_iff_exists'.mp fun hnone => ?_
  rw [selectedKey_none.mp hnone k] at hk
  cases hk

/-- Under the reference choice no pressed key is lower than the selected one. -/
theorem selectedKey_le {s : State} (hlow : s.params.keySelect = .lowest) {k j : KeyIdx} (hsel : s.selectedKey = some k)
    (hj : s.key[j] = true) : k ≤ j := by
  rw [State.selectedKey, hlow, keySelect_lowest, List.head?_eq_some_iff] at hsel
  obtain ⟨rest, hkeys⟩ := hsel
  have hrising := pressedKeys_rising s.key
  have hmem := (mem_pressedKeys s.key j).mpr hj
  rw [hkeys] at hrising hmem
  rcases List.mem_cons.mp hmem with rfl | hrest
  · exact le_rfl
  · exact (List.rel_of_pairwise_cons hrising hrest).le

/-- Every pressed key is the one some draw points at: the draw of its position among the pressed keys. -/
theorem exists_pick_selectedKey {s : State} (hdraw : s.params.keySelect = .drawn) {k : KeyIdx} (hk : s.key[k] = true) :
    ∃ pick, { s with keyPick := ⟨[pick], 0⟩ }.selectedKey = some k := by
  obtain ⟨i, hi, hget⟩ := List.getElem_of_mem ((mem_pressedKeys s.key k).mpr hk)
  refine ⟨i, ?_⟩
  calc { s with keyPick := ⟨[i], 0⟩ }.selectedKey
      = keySelect s.params.keySelect i (pressedKeys s.key) := rfl
    _ = (pressedKeys s.key)[i]? := by rw [hdraw, keySelect_drawn, Nat.mod_eq_of_lt hi]
    _ = some k := by rw [List.getElem?_eq_getElem hi, hget]

/-- Settles O46: some key is selected and it is a pressed one, so it is `k` where `k` is the lowest or the only one. -/
theorem keySelectPicksAPressedKey : Obligations.KeySelectPicksAPressedKey := by
  intro s k hk
  obtain ⟨j, hsel⟩ := exists_selectedKey hk
  have hj : s.key[j] = true := selectedKey_pressed hsel
  refine ⟨⟨j, hsel, hj⟩, fun hlow hleast => ?_, fun hdraw => exists_pick_selectedKey hdraw hk, fun honly => ?_⟩
  · rw [hsel, le_antisymm (selectedKey_le hlow hsel hk) (hleast j hj)]
  · rw [hsel, honly j hj]

/-! LD Vx,K in both cases (R216). -/

theorem exec_ldVxK_take {s : State} {k : KeyIdx} (x : RegIdx) (h : s.selectedKey = some k) :
    exec (.ldVxK x) s = .next ({ s with keyPick := s.keyPick.next }.setReg x (BitVec.ofNat 8 k.val)).advance := by
  simp only [exec, execLdVxK, State.takeKey, h]

theorem exec_ldVxK_wait {s : State} (x : RegIdx) (h : s.selectedKey = none) :
    exec (.ldVxK x) s = .next { s with mode := .waitingForKey x } := by
  simp only [exec, execLdVxK, State.takeKey, h]

/-- Settles O45: it waits when no key is selected, and otherwise writes the selected key's index to one register. -/
theorem ldVxKTakesAKeyOrWaits : Obligations.LdVxKTakesAKeyOrWaits := by
  refine fun s x => ⟨decodes_hex4_x (n := 26) (y := 0) (d := 0xA) rfl x,
    fun hnone => exec_ldVxK_wait x (selectedKey_none.mpr hnone), fun ⟨_, hpressed⟩ => ?_⟩
  obtain ⟨k, hsel⟩ := exists_selectedKey hpressed
  exact ⟨k, _, selectedKey_pressed hsel, hsel, exec_ldVxK_take x hsel, fun hlow _ hj => selectedKey_le hlow hsel hj,
    State.reg_setReg_same _ x _, fun _ hj => State.reg_setReg_other _ _ hj, rfl, fun _ => rfl, rfl⟩

/-! The key skips in both cases (R210 to R212). -/

theorem keyPressed_inRange {s : State} {x : RegIdx} (h : (s.reg x).toNat < 16) :
    keyPressed s x = .ok s.key[(s.reg x).toNat] := dif_pos h

theorem keyPressed_outOfRange {s : State} {x : RegIdx} (h : ¬ (s.reg x).toNat < 16) :
    keyPressed s x = .error (.outOfRange .key (s.reg x).toNat) := dif_neg h

/-- Settles O43: the key index is checked first (`keyPressed`); then `skipIf_eq_skipTarget` for the two conditions. -/
theorem keySkips : Obligations.KeySkips := by
  refine fun s x => ⟨decodes_hex4_x (n := 23) (y := 9) (d := 0xE) rfl x, decodes_hex4_x (n := 24) (y := 0xA) (d := 1) rfl x,
    fun hk => ⟨?_, ?_⟩, fun hk => ⟨?_, ?_⟩⟩
  · rw [GoesTo, exec, execSkp, keyPressed_inRange hk, settle_ok, skipIf_eq_skipTarget Iff.rfl]
  · rw [GoesTo, exec, execSknp, keyPressed_inRange hk, settle_ok, skipIf_eq_skipTarget (Bool.not_eq_true' _).to_iff]
  · rw [exec, execSkp, keyPressed_outOfRange (by omega), settle_error, raise_eq_errored]
  · rw [exec, execSknp, keyPressed_outOfRange (by omega), settle_error, raise_eq_errored]

/-! The timers through the gate at the end of a step (60_exceptions R248). -/

theorem step_eq_gated {s u : State} {i : Instr} (hrun : s.mode = .running) (hfetch : s.fetchInstr = .ok i)
    (hexec : exec i s.beginStep = .next u) (hrep : u.report = none) : step s = .next (gated u) := by
  rw [step_running hrun hfetch, hexec, closeStep_next, endStep_eq_gated hrep]

theorem reg_gated (t : State) (j : RegIdx) : (gated t).reg j = t.reg j := by
  unfold gated
  split <;> rfl

theorem toNat_sub_one_or_zero (b : Byte) : (b - if b = 0 then 0 else 1).toNat = b.toNat - 1 := by
  rw [← decay_eq_sub, decay_toNat]

theorem toNat_dt_gated (t : State) :
    (gated t).dt.toNat = t.dt.toNat - if t.now - t.lastUpdate ≥ t.params.timerPeriod then 1 else 0 := by
  unfold gated
  split
  · exact toNat_sub_one_or_zero t.dt
  · rfl

theorem toNat_st_gated (t : State) :
    (gated t).st.toNat = t.st.toNat - if t.now - t.lastUpdate ≥ t.params.timerPeriod then 1 else 0 := by
  unfold gated
  split
  · exact toNat_sub_one_or_zero t.st
  · rfl

/-- Settles O44: the step executes the transfer and then runs the gate (`step_eq_gated`), which keeps the registers and
decrements the timer just written. -/
theorem timerTransfers : Obligations.TimerTransfers := by
  refine fun s x => ⟨⟨decodes_hex4_x (n := 25) (y := 0) (d := 7) rfl x, writes_of_setReg rfl⟩,
    ⟨decodes_hex4_x (n := 27) (y := 1) (d := 5) rfl x, rfl⟩, ⟨decodes_hex4_x (n := 28) (y := 1) (d := 8) rfl x, rfl⟩,
    fun hrun t ht => ⟨fun hfetch => ?_, fun hfetch => ?_, fun hfetch => ?_⟩⟩ <;>
    rw [step_eq_gated hrun hfetch rfl rfl] at ht <;>
    cases ht
  · exact (reg_gated _ x).trans (State.reg_setReg_same _ x _)
  · exact toNat_dt_gated _
  · exact toNat_st_gated _

end Sys2Proof.Machine
end

section
/-!
PROOFS. The host's transactions (60_exceptions R240 to R246): that every step answers, what each operation gives and returns,
and that every sequence of them keeps the invariant.
-/
namespace Sys2Proof.Machine

/-- Settles O15: a waiting step is a re-scan, a failed fetch is reported, and every instruction answers. -/
theorem everyStepAnswers : Obligations.EveryStepAnswers := by
  intro s
  cases hm : s.mode with
  | waitingForKey x => exact ⟨_, step_waiting hm⟩
  | running =>
    cases hf : s.fetchInstr with
    | error e => exact ⟨_, step_fetch_error hm hf⟩
    | ok i =>
      obtain ⟨u, hu⟩ := exec_answers i s.beginStep
      exact ⟨u.endStep, by rw [step_running hm hf, hu, closeStep_next]⟩

theorem after_of_next {s t : State} {op : HostOp} (h : s.transact op = .next t) : s.after op = t := by
  simp only [State.after, h]

theorem after_of_fault {s : State} {f : Fault} {op : HostOp} (h : s.transact op = .fault f) : s.after op = s := by
  simp only [State.after, h]

/-- A host operation that fails returns its own error (60_exceptions R242, R243). -/
theorem returned_of_fault {s : State} {f : Fault} {op : HostOp} (h : s.transact op = .fault f) :
    s.returned op = some (hostError f) := by
  simp only [State.returned, h]

/-! The two endings of `load` (60_exceptions R242). -/

theorem transact_load_fits (s : State) {bytes : List Byte} (h : 0x200 + bytes.length ≤ 4096) :
    s.transact (.load bytes) = .next { s with mem := s.mem.writeAll 0x200 bytes } := if_neg (Nat.not_lt.mpr h)

theorem transact_load_tooLong (s : State) {bytes : List Byte} (h : 0x200 + bytes.length > 4096) :
    s.transact (.load bytes) = .fault (.loadOutOfRange bytes.length) := if_pos h

/-- Settles O3: the image is written by `Memory.writeAll`, and a fetch at a loaded pair is `fetch_stored_pair`. -/
theorem loadCopiesOrFails : Obligations.LoadCopiesOrFails := by
  refine fun s bytes => ⟨fun hfits => ?_, fun hlong => ?_⟩
  · refine ⟨_, transact_load_fits s hfits, fun i hi => Memory.read_writeAll_getElem _ _ hi,
      fun a ha => Memory.read_writeAll_outside _ ha, rfl, ?_, fun i hi => ?_⟩
    · rintro rfl
      rfl
    · have hpc : (BitVec.ofNat 16 (0x200 + i)).toNat = 0x200 + i := by
        rw [BitVec.toNat_ofNat]
        omega
      exact fetch_stored_pair (s := s) rfl hfits hi hpc
  · have hload := transact_load_tooLong s hlong
    have hret := returned_of_fault hload
    exact ⟨hload, after_of_fault hload, hret, by rw [hret]; rfl⟩

/-! The two endings of the key setters (60_exceptions R243). -/

theorem transact_keySetter (s : State) (k : Nat) (down : Bool) :
    s.transact (if down then .setKeyDown k else .setKeyUp k) = s.setKey k down := by
  cases down <;> rfl

theorem setKey_inRange (s : State) {k : Nat} (down : Bool) (h : k < 16) :
    s.setKey k down = .next { s with key := s.key.set k down } := dif_pos h

theorem setKey_outOfRange (s : State) {k : Nat} (down : Bool) (h : 16 ≤ k) :
    s.setKey k down = .fault (.keyOutOfRange k) := dif_neg (Nat.not_lt.mpr h)

/-- Settles O4: `setKey_inRange` writes one entry of the latch; the reads are the components by definition. -/
theorem keySettersAndHostReads : Obligations.KeySettersAndHostReads := by
  intro s k down op
  have hop : s.transact op = s.setKey k down := transact_keySetter s k down
  refine ⟨fun hk => ?_, fun hk => ?_, rfl, rfl, rfl, rfl, rfl⟩
  · refine ⟨_, hop.trans (setKey_inRange s down hk), Vector.getElem_set_self hk,
      fun j hj => Vector.getElem_set_ne hk j.isLt hj.symm, rfl, fun hsame => ?_⟩
    rw [← hsame, Vector.set_getElem_self]
  · have hset := hop.trans (setKey_outOfRange s down hk)
    have hret := returned_of_fault hset
    exact ⟨hset, after_of_fault hset, hret, by rw [hret]; rfl⟩

/-! The invariant along a host's run (60_exceptions R240). -/

/-- `step(now)` is a step, from the state with `now` given first. -/
theorem transact_step (s : State) (now : Int) :
    s.transact (.step now) = step (s.withClock ⟨now :: s.clock.queue, s.clock.drawn⟩) := rfl

/-- After `reset`, memory is the glyph table written over nothing; the rest is as in the reset state. -/
theorem State.resetAt_inv (s : State) (now : Int) : (s.resetAt now).Inv := by
  obtain ⟨-, hreset, -⟩ := resetStateMeetsInvariant
  exact ⟨Memory.writeAll_wf Memory.reset_wf _ (by simp [Config.memSize]), hreset.stack, hreset.pc, hreset.waiting⟩

/-- The invariant does not speak of the clock input. -/
theorem State.Inv.withClock {s : State} (hs : s.Inv) (c : Source Int) : (s.withClock c).Inv :=
  ⟨hs.memory, hs.stack, hs.pc, hs.waiting⟩

/-- Every transaction of the host keeps the invariant. -/
theorem State.Inv.after {s : State} (hs : s.Inv) (op : HostOp) : (s.after op).Inv := by
  cases op with
  | reset now => exact s.resetAt_inv now
  | load bytes =>
    by_cases hfits : 0x200 + bytes.length ≤ 4096
    · rw [after_of_next (transact_load_fits s hfits)]
      exact ⟨Memory.writeAll_wf hs.memory bytes hfits, hs.stack, hs.pc, hs.waiting⟩
    · rwa [after_of_fault (transact_load_tooLong s (Nat.lt_of_not_le hfits))]
  | step now =>
    obtain ⟨t, ht⟩ := everyStepAnswers (s.withClock ⟨now :: s.clock.queue, s.clock.drawn⟩)
    rw [after_of_next ((transact_step s now).trans ht)]
    exact stepKeepsInvariant _ t (hs.withClock _) ht
  | setKeyDown k =>
    rw [after_setKeyDown_frame]
    exact ⟨hs.memory, hs.stack, hs.pc, hs.waiting⟩
  | setKeyUp k =>
    rw [after_setKeyUp_frame]
    exact ⟨hs.memory, hs.stack, hs.pc, hs.waiting⟩
  | clearDrawPending => exact ⟨hs.memory, hs.stack, hs.pc, hs.waiting⟩

/-- Settles O48: by induction on the transactions, each of which keeps the invariant (`State.Inv.after`). -/
theorem everyHostRunKeepsInvariant : Obligations.EveryHostRunKeepsInvariant := by
  intro s ops hs
  induction ops generalizing s with
  | nil => exact hs
  | cons op ops ih => exact ih _ (hs.after op)

end Sys2Proof.Machine
end

section
/-!
PROOFS. Errors of a step (60_exceptions R231, R234, R238): which instruction reports which error, from which state; so that a
step repeated after an error, which left everything it depends on, reports it again.
-/
open Sys2Proof.Claims

namespace Sys2Proof.Machine

/-- The error an instruction reports, if it reports one (60_exceptions R231). It depends on `pc`, `sp`, `I` and the registers
alone. -/
def errorOf (i : Instr) (s : State) : Option Error :=
  match i with
  | .ret => if 0 < s.sp.val then none else some (.stackUnderflow s.pc)
  | .call _ => if s.sp.val < 16 then none else some (.stackOverflow s.pc)
  | .drw _ _ n =>
    if n.toNat = 0 ∨ s.I.toNat + n.toNat ≤ 4096 then none else some (.outOfRange .mem (max s.I.toNat 4096))
  | .skp x | .sknp x => if (s.reg x).toNat < 16 then none else some (.outOfRange .key (s.reg x).toNat)
  | .ldB _ => if s.I.toNat + 2 ≤ 4095 then none else some (.outOfRange .mem (max s.I.toNat 4096))
  | .store x | .load x => if s.I.toNat + x.val ≤ 4095 then none else some (.outOfRange .mem (max s.I.toNat 4096))
  | _ => none

/-- An instruction reports the error `errorOf` gives it, and completes with no report where that gives none. -/
theorem exec_errorOf_cases (i : Instr) (s : State) :
    (errorOf i s = none ∧ ∃ t, exec i s = .next t ∧ t.report = s.report) ∨
      ∃ e, errorOf i s = some e ∧ exec i s = .next (s.raise e) := by
  cases i
  case ret =>
    by_cases h : 0 < s.sp.val
    · exact .inl ⟨if_pos h, _, exec_ret_pop h, rfl⟩
    · exact .inr ⟨_, if_neg h, exec_ret_empty h⟩
  case call nnn =>
    by_cases h : s.sp.val < 16
    · exact .inl ⟨if_pos h, _, exec_call_push nnn h, rfl⟩
    · exact .inr ⟨_, if_neg h, exec_call_full nnn h⟩
  case drw x y n =>
    by_cases h : InRange s n.toNat
    · obtain ⟨-, -, -, -, hframe⟩ := drawsOnly_drawSprite s x y (s.spriteRows n.toNat)
      exact .inl ⟨if_pos h, _, exec_drw_inRange x y h, by rw [hframe]⟩
    · exact .inr ⟨_, if_neg h, exec_drw_outOfRange x y h⟩
  case skp x =>
    by_cases h : (s.reg x).toNat < 16
    · exact .inl ⟨if_pos h, s.skipIf s.key[(s.reg x).toNat],
        by rw [exec, execSkp, keyPressed_inRange h, settle_ok], rfl⟩
    · exact .inr ⟨_, if_neg h, by rw [exec, execSkp, keyPressed_outOfRange h, settle_error]⟩
  case sknp x =>
    by_cases h : (s.reg x).toNat < 16
    · exact .inl ⟨if_pos h, s.skipIf (!s.key[(s.reg x).toNat]),
        by rw [exec, execSknp, keyPressed_inRange h, settle_ok], rfl⟩
    · exact .inr ⟨_, if_neg h, by rw [exec, execSknp, keyPressed_outOfRange h, settle_error]⟩
  case ldB x =>
    by_cases h : s.I.toNat + 2 ≤ 4095
    · exact .inl ⟨if_pos h, _, exec_ldB_inRange h, rfl⟩
    · exact .inr ⟨_, if_neg h, exec_ldB_outOfRange (Nat.lt_of_not_le h)⟩
  case store x =>
    by_cases h : s.I.toNat + x.val ≤ 4095
    · exact .inl ⟨if_pos h, _, exec_store_inRange h, rfl⟩
    · exact .inr ⟨_, if_neg h, exec_store_outOfRange (Nat.lt_of_not_le h)⟩
  case load x =>
    by_cases h : s.I.toNat + x.val ≤ 4095
    · exact .inl ⟨if_pos h, _, exec_load_inRange h, rfl⟩
    · exact .inr ⟨_, if_neg h, exec_load_outOfRange (Nat.lt_of_not_le h)⟩
  case ldVxK x =>
    cases h : s.selectedKey with
    | none => exact .inl ⟨rfl, _, exec_ldVxK_wait x h, rfl⟩
    | some k => exact .inl ⟨rfl, _, exec_ldVxK_take x h, rfl⟩
  all_goals exact .inl ⟨rfl, _, rfl, rfl⟩

/-- With nothing reported yet, an instruction ends in an error exactly if it is the one `errorOf` gives. -/
theorem exec_eq_raise_iff {i : Instr} {s : State} {e : Error} (hrep : s.report = none) :
    exec i s = .next (s.raise e) ↔ errorOf i s = some e := by
  rcases exec_errorOf_cases i s with ⟨hnone, t, hexec, ht⟩ | ⟨e', hsome, hexec⟩
  · have hne : t ≠ s.raise e := by
      rintro rfl
      rw [hrep] at ht
      cases ht
    simp [hnone, hexec, hne]
  · have hinj : s.raise e' = s.raise e ↔ e' = e :=
      ⟨fun h => congrArg ErrorRecord.error (Option.some.inj (congrArg State.report h)), fun h => h ▸ rfl⟩
    simp [hsome, hexec, hinj]

/-- The next step reports `e`: in Running mode, the fetch or the decoder does, or the instruction fetched. -/
def Raises (s : State) (e : Error) : Prop :=
  s.mode = .running ∧ (s.fetchInstr = .error e ∨ ∃ i, s.fetchInstr = .ok i ∧ errorOf i s = some e)

theorem Raises.step {s : State} {e : Error} (h : Raises s e) :
    step s = .next { errored s e with clock := s.clock.next } := by
  rw [← endStep_raise_eq_errored]
  obtain ⟨hrun, hfetch | ⟨i, hfetch, hi⟩⟩ := h
  · exact step_fetch_error hrun hfetch
  · have hexec : exec i s.beginStep = .next (s.beginStep.raise e) := (exec_eq_raise_iff rfl).mpr hi
    rw [step_running hrun hfetch, hexec, closeStep_next]

/-- A step that reports an error is one that `Raises` foretells, and the record's `pc` is the one before the step. -/
theorem raises_of_step {s t : State} {r : ErrorRecord} (h : step s = .next t) (hr : t.report = some r) :
    Raises s r.error ∧ r.pc = s.pc := by
  rcases step_cases h with ⟨x, -, rfl, hnone⟩ | ⟨i, u, -, -, -, -, hnone, rfl⟩ | ⟨e, hrun, hraise, rfl⟩
  · simp [hnone] at hr
  · simp [hnone] at hr
  · cases hr
    refine ⟨⟨hrun, hraise.imp_right fun ⟨i, hfetch, hexec⟩ => ⟨i, hfetch, ?_⟩⟩, rfl⟩
    exact (exec_eq_raise_iff (s := s.beginStep) rfl).mp hexec

/-- Settles O16: such a step is one that `Raises` foretells, and `Raises.step` gives the state after it. -/
theorem faultingStepCommitsNothing : Obligations.FaultingStepCommitsNothing := by
  intro s t r h hr
  obtain ⟨hraises, hpc⟩ := raises_of_step h hr
  rw [hraises.step] at h
  exact ⟨hpc, (Host.Outcome.next.inj h).symm⟩

/-- The record and the clock input do not decide whether a step reports an error. -/
theorem Raises.errored {s : State} {e : Error} (h : Raises s e) (e' : Error) (c : Source Int) :
    Raises { errored s e' with clock := c } e := h

/-- Settles O18: the step left everything that `Raises` speaks of, so the next one reports the same error at the same `pc`;
the record is kept by `step_fault`. -/
theorem repeatedStepRaisesSameError : Obligations.RepeatedStepRaisesSameError := by
  intro s t r h hr
  obtain ⟨hraises, -⟩ := raises_of_step h hr
  obtain ⟨-, ht⟩ := faultingStepCommitsNothing s t r h hr
  have hagain : Raises t r.error := ht ▸ hraises.errored _ _
  have hreport : (errored t r.error).report = some r := by
    rw [ht] at hr ⊢
    exact hr
  refine ⟨_, hagain.step, hreport, ?_⟩
  rw [step_fault hagain.step, step_fault h]
  simp [hr, hreport]

end Sys2Proof.Machine
end

section
/-!
PROOFS. The timers (60_exceptions R248, R249) and the halted state (R253): only the gate at the end of a step, LD DT and LD ST
write the timers, and only the gate records the time.
-/
namespace Sys2Proof.Machine

/-! The three cases of the gate. -/

theorem endStep_gate_fires {s : State} (hrep : s.report = none) (h : s.now - s.lastUpdate ≥ s.params.timerPeriod) :
    s.endStep.dt.toNat = s.dt.toNat - 1 ∧ s.endStep.st.toNat = s.st.toNat - 1 ∧ s.endStep.lastUpdate = s.now := by
  have hgate : s.gateFires s.now = true := decide_eq_true h
  simp [endStep_completed hrep, hgate, decay_toNat]

theorem endStep_gate_closed {s : State} (hrep : s.report = none) (h : s.now - s.lastUpdate < s.params.timerPeriod) :
    s.endStep.dt = s.dt ∧ s.endStep.st = s.st ∧ s.endStep.lastUpdate = s.lastUpdate := by
  have hgate : s.gateFires s.now = false := decide_eq_false (Int.not_le.mpr h)
  simp [endStep_completed hrep, hgate]

theorem endStep_gate_skipped {s : State} (hrep : s.report ≠ none) :
    s.endStep.dt = s.dt ∧ s.endStep.st = s.st ∧ s.endStep.lastUpdate = s.lastUpdate := by
  simp [endStep_reported (Option.isSome_iff_ne_none.mpr hrep)]

/-- The gate decrements both timers or neither (60_exceptions R249). -/
theorem endStep_timers (s : State) :
    (s.endStep.dt.toNat = s.dt.toNat - 1 ∧ s.endStep.st.toNat = s.st.toNat - 1) ∨
      (s.endStep.dt = s.dt ∧ s.endStep.st = s.st) := by
  by_cases hrep : s.report = none
  · by_cases h : s.now - s.lastUpdate ≥ s.params.timerPeriod
    · obtain ⟨hdt, hst, -⟩ := endStep_gate_fires hrep h
      exact .inl ⟨hdt, hst⟩
    · obtain ⟨hdt, hst, -⟩ := endStep_gate_closed hrep (Int.lt_of_not_ge h)
      exact .inr ⟨hdt, hst⟩
  · obtain ⟨hdt, hst, -⟩ := endStep_gate_skipped hrep
    exact .inr ⟨hdt, hst⟩

theorem endStep_lastUpdate (s : State) :
    s.endStep.lastUpdate =
      if s.report = none ∧ s.now - s.lastUpdate ≥ s.params.timerPeriod then s.now else s.lastUpdate := by
  by_cases hrep : s.report = none
  · by_cases h : s.now - s.lastUpdate ≥ s.params.timerPeriod
    · obtain ⟨-, -, hlast⟩ := endStep_gate_fires hrep h
      rw [hlast, if_pos ⟨hrep, h⟩]
    · obtain ⟨-, -, hlast⟩ := endStep_gate_closed hrep (Int.lt_of_not_ge h)
      rw [hlast, if_neg fun hc => h hc.2]
  · obtain ⟨-, -, hlast⟩ := endStep_gate_skipped hrep
    rw [hlast, if_neg fun hc => hrep hc.1]

@[simp] theorem State.endStep_clock (s : State) : s.endStep.clock = s.clock.next := rfl

/-- What an instruction or a re-scan leaves of the components the gate reads and writes; the timers unless it is LD DT or
LD ST, as `writesTimer` says. -/
structure GateFrame (writesTimer : Prop) (s u : State) : Prop where
  clock : u.clock = s.clock
  lastUpdate : u.lastUpdate = s.lastUpdate
  params : u.params = s.params
  timers : writesTimer ∨ (u.dt = s.dt ∧ u.st = s.st)

theorem Effect.gateFrame {i : Instr} {s u : State} (h : Effect i s u) :
    GateFrame (∃ x, i = .ldDT x ∨ i = .ldST x) s u := by
  cases i <;> simp only [Effect] at h
  case ldDT x | ldST x =>
    subst h
    exact ⟨rfl, rfl, rfl, .inl ⟨x, by simp⟩⟩
  case drw =>
    rw [h.2]
    exact ⟨rfl, rfl, rfl, .inr ⟨rfl, rfl⟩⟩
  case ldVxK x =>
    rcases h with ⟨-, rfl⟩ | ⟨k, -, rfl⟩ <;> exact ⟨rfl, rfl, rfl, .inr ⟨rfl, rfl⟩⟩
  case load =>
    obtain ⟨bs, -, rfl⟩ := h
    exact ⟨rfl, rfl, rfl, .inr ⟨rfl, rfl⟩⟩
  case addReg | subReg | subnReg | shr | shl =>
    obtain ⟨f, v, rfl⟩ := h
    exact ⟨rfl, rfl, rfl, .inr ⟨rfl, rfl⟩⟩
  case ret | call | skp | sknp | ldB | store | ldImm | addImm | ldReg | orReg | andReg | xorReg | ldVxDT | rnd | addI =>
    obtain ⟨_, rfl⟩ := h
    exact ⟨rfl, rfl, rfl, .inr ⟨rfl, rfl⟩⟩
  case cls | jp | jpV0 | seImm | sneImm | seReg | sneReg | ldI | ldF =>
    subst h
    exact ⟨rfl, rfl, rfl, .inr ⟨rfl, rfl⟩⟩

/-- Every step is something that leaves what the gate reads and writes (LD DT and LD ST apart), and then the end of the
step. -/
theorem step_gateFrame {s t : State} (h : step s = .next t) :
    ∃ u, t = u.endStep ∧
      GateFrame (s.mode = .running ∧ ∃ x, s.fetchInstr = .ok (.ldDT x) ∨ s.fetchInstr = .ok (.ldST x)) s u := by
  rcases step_cases h with ⟨x, -, rfl, -⟩ | ⟨i, u, hrun, hfetch, -, heff, -, rfl⟩ | ⟨e, -, -, rfl⟩
  · refine ⟨_, rfl, ?_⟩
    rw [rescan_frame]
    exact ⟨rfl, rfl, rfl, .inr ⟨rfl, rfl⟩⟩
  · obtain ⟨hclock, hlast, hparams, htimers⟩ := heff.gateFrame
    exact ⟨u, rfl, hclock, hlast, hparams, htimers.imp_left fun ⟨x, hi⟩ => ⟨hrun, x, by simpa [hfetch] using hi⟩⟩
  · exact ⟨s.beginStep.raise e, (endStep_raise s e).symm, rfl, rfl, rfl, .inr ⟨rfl, rfl⟩⟩

/-- Settles O20: only the gate reaches the timers in such a step (`step_gateFrame`), and it decrements both or neither. -/
theorem timersDecayTogether : Obligations.TimersDecayTogether := by
  intro s t h hother
  obtain ⟨u, rfl, hu⟩ := step_gateFrame h
  rcases hu.timers with ⟨hrun, x, hdt | hst⟩ | ⟨hdt, hst⟩
  · exact absurd hdt (hother x hrun).1
  · exact absurd hst (hother x hrun).2
  · rw [← hdt, ← hst]
    exact endStep_timers u

/-- Settles O19: the three cases of the gate; the state it meets in `step(now)` has the `now` given, and the time of the last
decay from before the step (`step_gateFrame`). -/
theorem timerGateAtEndOfStep : Obligations.TimerGateAtEndOfStep := by
  refine fun s => ⟨endStep_gate_fires, endStep_gate_closed, endStep_gate_skipped, endStep_frame s,
    fun now => ⟨rfl, rfl⟩, fun now => ?_⟩
  obtain ⟨t, ht⟩ := everyStepAnswers (s.withClock ⟨now :: s.clock.queue, s.clock.drawn⟩)
  obtain ⟨u, rfl, hclock, hlast, hparams, -⟩ := step_gateFrame ht
  have hnow : u.now = now := congrArg (Source.value Config.freeNow) hclock
  refine ⟨u.endStep, (transact_step s now).trans ht, (State.endStep_clock u).trans (congrArg Source.next hclock), ?_⟩
  rw [endStep_lastUpdate, hnow, hlast, hparams, State.endStep_report]
  rfl

/-! The halted state (60_exceptions R253). -/

theorem fetchInstr_of_halted {s : State} {a : Addr12} (h : s.haltedAt a) : s.fetchInstr = .ok (.jp a) := by
  obtain ⟨-, -, -, -, hfetch⟩ := h
  exact fetchInstr_of_decodeWord hfetch (decodes_encode (.jp a))

/-- Settles O60: the jump goes to where `pc` is, so the step is only its end. -/
theorem haltedStateStays : Obligations.HaltedStateStays := by
  intro s a h
  have hstep : step s = .next s.beginStep.endStep := by
    have hfetch := fetchInstr_of_halted h
    obtain ⟨-, hrun, hpc, -, -⟩ := h
    have hexec : exec (.jp a) s.beginStep = .next s.beginStep := by
      rw [exec, execJp, ← hpc]
      rfl
    rw [step_running hrun hfetch, hexec, closeStep_next]
  refine ⟨_, hstep, ?_, State.endStep_report _, ?_⟩
  · rw [endStep_frame]
    exact h
  · rw [endStep_frame]
    rfl

end Sys2Proof.Machine
end

section
/-!
PROOFS. The launch state (70_reset_and_hazards R272, R273): what `reset` and then a `load` that fits leave.
-/
namespace Sys2Proof.Machine

theorem after_reset (s : State) (now : Int) : s.after (.reset now) = s.resetAt now := after_of_next rfl

theorem after_load_fits (s : State) {bytes : List Byte} (h : 0x200 + bytes.length ≤ 4096) :
    s.after (.load bytes) = { s with mem := s.mem.writeAll 0x200 bytes } := after_of_next (transact_load_fits s h)

theorem afterAll_reset_load (s : State) (t0 : Int) {program : List Byte} (h : 0x200 + program.length ≤ 4096) :
    s.afterAll [.reset t0, .load program] =
      { s.resetAt t0 with mem := (s.resetAt t0).mem.writeAll 0x200 program } :=
  calc s.afterAll [.reset t0, .load program]
    _ = (s.after (.reset t0)).after (.load program) := rfl
    _ = (s.resetAt t0).after (.load program) := by rw [after_reset]
    _ = _ := after_load_fits _ h

/-- Memory right after reset is 0 past the glyph table (10_state R38), whatever the table is. -/
theorem read_resetAt_pastGlyphs (s : State) (now : Int) {a : Nat} (h : 80 ≤ a) : (s.resetAt now).mem.read a = 0 := by
  have hlen : s.params.glyphTable.toList.length ≤ a := by simpa using h
  exact (read_reset_glyphs s.params.glyphTable a).trans (List.getD_eq_default _ _ hlen)

/-- Settles O5: the load writes memory alone, at 0x200 onward; the rest is as `resetAt` gives it, with zeros past the
glyphs. -/
theorem launchStateHoldsTheProgram : Obligations.LaunchStateHoldsTheProgram := by
  intro s t0 program hlen t
  have ht : t = { s.resetAt t0 with mem := (s.resetAt t0).mem.writeAll 0x200 program } :=
    afterAll_reset_load s t0 (by omega)
  rw [ht]
  refine ⟨rfl, rfl, rfl, fun k => ?_, rfl, fun i hi => Memory.read_writeAll_getElem _ _ hi, fun a hglyphs hout => ?_⟩
  · simp [State.resetAt, State.reset]
  · exact (Memory.read_writeAll_outside _ hout).trans (read_resetAt_pastGlyphs s t0 hglyphs)

end Sys2Proof.Machine
end
